-- ==== Sys2Proof/Word.lean ====
section
/-! DEFINITION. The words of lz77_encoder (R10, R12): bytes of the stream and of the output port, and 32-bit command
words. Bit 0 is the least significant bit. -/

namespace Sys2Proof

/-- One stream byte, one output transfer (R10: "output port 8 bits per transfer"). -/
abbrev Byte := BitVec 8

/-- One command word, one readback value (R10: 32 bits each). -/
abbrev CmdWord := BitVec 32

end Sys2Proof
end

