-- ==== Sys2Proof/Config.lean ====
section
/-! DEFINITION. The constants the source fixes (R8) and the implementation parameters (R9). The parameters are arguments
of the model: State carries one value of `Params` (log 1), and no step changes it. There is no free value: the spec leaves
no result of a command open. -/

namespace Sys2Proof.Config

/-- `MIN_MATCH` (R8). -/
def minMatch : Nat := 3

/-- `OFF_CAP` (R8). -/
def offCap : Nat := 65535

/-- `LEN_CAP` (R8). -/
def lenCap : Nat := 255

/-- `TAG_LIT` (R8, R71). -/
def tagLit : Byte := 0x00

/-- `TAG_MATCH` (R8, R72). -/
def tagMatch : Byte := 0x01

/-- The reset value of `PROBE_CAP` (R8, R26). -/
def probeCapReset : Nat := 32

/-- The reset value of `CHAIN_DEPTH` (R8, R27). -/
def chainDepthReset : Nat := 64

/-- A stream of this many bytes is outside the spec (R106, U6). -/
def streamLimit : Nat := 2 ^ 64

/-- The implementation parameters of R9. -/
structure Params where
  windowMax : Nat
  chunkMax : Nat
  probeCapMax : Nat
  chainDepthMax : Nat
  deriving DecidableEq, Repr

/-- The constraints R9 puts on the parameters. -/
abbrev Params.Legal (P : Params) : Prop :=
  (1 ≤ P.windowMax ∧ P.windowMax ≤ offCap) ∧ (1 ≤ P.chunkMax ∧ P.chunkMax < 2 ^ 32) ∧
    (32 ≤ P.probeCapMax ∧ P.probeCapMax ≤ 65535) ∧ (64 ≤ P.chainDepthMax ∧ P.chainDepthMax ≤ 65535)

/-- The defaults of R9, "used by every test vector unless the vector says otherwise". -/
def Params.default : Params :=
  { windowMax := 65535, chunkMax := 65536, probeCapMax := 32, chainDepthMax := 64 }

end Sys2Proof.Config
end

