-- ==== Sys2Proof/Syntax.lean ====
section
/-! DEFINITION. The instructions: one constructor per row of spec/opcode_table.json. Six are commands the host sends
(R61 to R68); two are the output tokens of the wire format (R70 to R72), which the block itself performs (log 4). -/

namespace Sys2Proof

/-- The rows of the opcode table. -/
inductive Instr where
  /-- NOP, R63. -/
  | nop
  /-- START, R64. -/
  | start
  /-- DATA, R65: `BYTE = w[7:0]`, `LAST = w[8]`. -/
  | data (byte : Byte) (last : Bool)
  /-- END_CHUNK, R66. -/
  | endChunk
  /-- CFG_WRITE, R67: `REG = w[27:24]`, `VALUE = w[15:0]`. -/
  | cfgWrite (reg : BitVec 4) (value : BitVec 16)
  /-- FINISH, R68. -/
  | finish
  /-- LIT, R71: the token `Literal(b)`. -/
  | lit (b : Byte)
  /-- MATCH, R72: the token `Match(off, len)`. -/
  | matchRef (off : BitVec 16) (len : Byte)
  deriving DecidableEq, Repr

end Sys2Proof
end

