-- ==== Sys2Proof/WellFormed.lean ====
section
/-! DEFINITION. Which instructions the encoding admits. The one operand the formats restrict beyond its width is REG of
CFG_WRITE (R67: "REG values 0x5..0xF are illegal"); the token format carries every offset and every length (R74). Also which commands may stand inside one stream, and the
byte each sends, for the claims about streams (R114). -/

namespace Sys2Proof

/-- The instruction is one the formats of R63 to R72 admit. -/
def Instr.wellFormed : Instr → Bool
  | .nop => true
  | .start => true
  | .data _ _ => true
  | .endChunk => true
  | .cfgWrite reg _ => decide (reg.toNat ≤ 4)
  | .finish => true
  | .lit _ => true
  | .matchRef _ _ => true

/-- The instruction is a command of the command port (R62), not an output token. -/
def Instr.isCommand : Instr → Bool
  | .nop => true
  | .start => true
  | .data _ _ => true
  | .endChunk => true
  | .cfgWrite _ _ => true
  | .finish => true
  | .lit _ => false
  | .matchRef _ _ => false

/-- A command that may stand between START and FINISH of one stream (R114). -/
def Instr.inStream : Instr → Bool
  | .nop => true
  | .start => false
  | .data _ _ => true
  | .endChunk => true
  | .cfgWrite reg _ => decide (reg.toNat ≤ 4)
  | .finish => false
  | .lit _ => false
  | .matchRef _ _ => false

/-- The byte a DATA command sends. -/
def Instr.sentByte : Instr → Option Byte
  | .data byte _ => some byte
  | _ => none

end Sys2Proof
end

