-- ==== Sys2Proof/Decode.lean ====
section
/-! DEFINITION. From bits to instructions and back. `decodeCommand` reads a command word (R61 to R69), `decodeToken` the
bytes of one output token (R70 to R75), `decode` either; `encode` is the inverse, from the same formats. -/

namespace Sys2Proof

/-- The bits of one row of the opcode table: a command word on the command port (R61), or the bytes of a token in stream
order (R71, R72). -/
inductive Wire where
  | command (w : CmdWord)
  | token (bytes : List Byte)
  deriving DecidableEq, Repr

/-- Why bits are no instruction. The first three are the three cases of R69, the others those of R75 and R111. -/
inductive DecodeError where
  /-- R69 (a): OP is 0x6..0xF. -/
  | reservedOpcode
  /-- R69 (b): a reserved bit of the word's format is 1. -/
  | reservedBits
  /-- R69 (c): CFG_WRITE with REG ≥ 0x5. -/
  | illegalReg
  /-- R75: the first byte is neither TAG_LIT nor TAG_MATCH. -/
  | unknownTag
  /-- R75: the bytes end before the token does. -/
  | truncatedToken
  /-- The bytes go on after one complete token. -/
  | trailingBytes
  deriving DecidableEq, Repr

/-! ### The operand fields of a command word (R61, R65, R67, R76) -/

/-- `OP = w[31:28]` (R61). -/
def opField (w : CmdWord) : BitVec 4 := w.extractLsb' 28 4

/-- `BYTE = w[7:0]` (R65). -/
def byteField (w : CmdWord) : Byte := w.extractLsb' 0 8

/-- `LAST = w[8]` (R65). -/
def lastField (w : CmdWord) : Bool := w.getLsbD 8

/-- `REG = w[27:24]` (R67). -/
def regField (w : CmdWord) : BitVec 4 := w.extractLsb' 24 4

/-- `VALUE = w[15:0]` (R67). -/
def valueField (w : CmdWord) : BitVec 16 := w.extractLsb' 0 16

/-- A word of format Z: bits [27:0] are reserved (R63, R64, R66, R68). -/
def decodeZ (i : Instr) (w : CmdWord) : Except DecodeError Instr :=
  if w.extractLsb' 0 28 = 0 then .ok i else .error .reservedBits

/-- A word of format D: bits [27:9] are reserved (R65). -/
def decodeD (w : CmdWord) : Except DecodeError Instr :=
  if w.extractLsb' 9 19 = 0 then .ok (.data (byteField w) (lastField w)) else .error .reservedBits

/-- A word of format C: bits [23:16] are reserved, and REG is at most 4 (R67). -/
def decodeC (w : CmdWord) : Except DecodeError Instr :=
  if w.extractLsb' 16 8 = 0 then
    if (regField w).toNat ≤ 4 then .ok (.cfgWrite (regField w) (valueField w)) else .error .illegalReg
  else .error .reservedBits

/-- The opcode map of R62 on a command word; total, rejecting by name. -/
def decodeCommand (w : CmdWord) : Except DecodeError Instr :=
  match (opField w).toNat with
  | 0 => decodeZ .nop w
  | 1 => decodeZ .start w
  | 2 => decodeD w
  | 3 => decodeZ .endChunk w
  | 4 => decodeC w
  | 5 => decodeZ .finish w
  | _ => .error .reservedOpcode

/-- The bytes of exactly one token (R71 to R73): the length is told from the first byte. -/
def decodeToken : List Byte → Except DecodeError Instr
  | [] => .error .truncatedToken
  | tag :: rest =>
    if tag = Config.tagLit then
      match rest with
      | [] => .error .truncatedToken
      | [b] => .ok (.lit b)
      | _ :: _ :: _ => .error .trailingBytes
    else if tag = Config.tagMatch then
      match rest with
      | [lo, hi, len] => .ok (.matchRef (hi ++ lo) len)
      | _ :: _ :: _ :: _ :: _ => .error .trailingBytes
      | _ => .error .truncatedToken
    else .error .unknownTag

/-- The instruction the bits stand for. -/
def decode : Wire → Except DecodeError Instr
  | .command w => decodeCommand w
  | .token bytes => decodeToken bytes

/-! ### The encoder -/

/-- The bytes of `Literal(b)` (R71). -/
def litBytes (b : Byte) : List Byte := [Config.tagLit, b]

/-- The bytes of `Match(off, len)` (R72): the offset little-endian (R54). -/
def matchBytes (off : BitVec 16) (len : Byte) : List Byte :=
  [Config.tagMatch, off.extractLsb' 0 8, off.extractLsb' 8 8, len]

/-- The word of R65: `0x20000000 | (LAST << 8) | BYTE`. -/
def dataWord (byte : Byte) (last : Bool) : CmdWord :=
  0x20000000#32 ||| ((BitVec.ofBool last).setWidth 32 <<< 8) ||| byte.setWidth 32

/-- The word of R67: `0x40000000 | (REG << 24) | VALUE`. -/
def cfgWord (reg : BitVec 4) (value : BitVec 16) : CmdWord :=
  0x40000000#32 ||| (reg.setWidth 32 <<< 24) ||| value.setWidth 32

/-- The bits of an instruction, from the formats of R63 to R68, R71 and R72. -/
def encode : Instr → Wire
  | .nop => .command 0x00000000#32
  | .start => .command 0x10000000#32
  | .data byte last => .command (dataWord byte last)
  | .endChunk => .command 0x30000000#32
  | .cfgWrite reg value => .command (cfgWord reg value)
  | .finish => .command 0x50000000#32
  | .lit b => .token (litBytes b)
  | .matchRef off len => .token (matchBytes off len)

/-! ### Words as the opcode table numbers them -/

/-- The bits of an opcode-table row as they stand on the hardware. The token rows number their bits with byte 0 of the
stream uppermost (LIT: 16 bits, tag in [15:8]; MATCH: 32 bits, tag in [31:24]); a 32-bit number whose top byte is
TAG_MATCH is the MATCH row, since as a command word it would be illegal by R69 (b) (log 5). -/
def wireOfTable (nbits w : Nat) : Wire :=
  if nbits ≤ 16 then .token [BitVec.ofNat 8 (w / 2 ^ 8), BitVec.ofNat 8 w]
  else if w / 2 ^ 24 = Config.tagMatch.toNat then
    .token [BitVec.ofNat 8 (w / 2 ^ 24), BitVec.ofNat 8 (w / 2 ^ 16), BitVec.ofNat 8 (w / 2 ^ 8), BitVec.ofNat 8 w]
  else .command (BitVec.ofNat 32 w)

/-- The instruction the decoder reads from the bits `w` of an opcode-table row of `nbits` bits (log 5). -/
def decodeTableWord (nbits w : Nat) : Option Instr :=
  match decode (wireOfTable nbits w) with
  | .ok i => some i
  | .error _ => none

end Sys2Proof
end

