-- ==== Sys2Proof/Machine/State.lean ====
section
/-! DEFINITION. The state of lz77_encoder: the record S of R22 (`Block`), and what the model holds around it: the
implementation parameters (log 1), the host's actions still to come (log 2), a token emission placed on its own (log 4),
and what the host has observed (log 6). All of it is plain data. -/

namespace Sys2Proof.Machine

open Sys2Proof.Config (Params)

/-- The stream state (R23); the value 3 of STATUS.STATE never occurs. -/
inductive StreamState where
  | idle
  | streaming
  | done
  deriving DecidableEq, Repr

/-- The error causes of R121. -/
inductive ErrCode where
  /-- Code 1, R123. -/
  | illegal
  /-- Code 2, R124. -/
  | notStreaming
  /-- Code 3, R125. -/
  | chunkOvf
  deriving DecidableEq, Repr

/-- A token of the output (R70). -/
inductive Token where
  | literal (b : Byte)
  | matchRef (off : BitVec 16) (len : Byte)
  deriving DecidableEq, Repr

/-- One set of the configuration values: the five registers of R24 to R28 (MODE as its two bits), and again their active
twins of R30. -/
structure CfgRegs where
  window : BitVec 16
  maxMatch : BitVec 8
  probeCap : BitVec 16
  chainDepth : BitVec 16
  lazyEn : Bool
  exhaustive : Bool
  deriving DecidableEq, Repr

/-- The window `S.win` (R32): position and byte, positions strictly rising; an unlisted position has no byte. -/
abbrev Memory := List Host.Cell

/-- The dictionary `S.dict` (R33): 24-bit key and its list of positions, keys strictly rising; an unlisted key has the
empty list. -/
abbrev Dict := List (Nat × List Nat)

/-- The block's state S, field for field the record of R22. -/
structure Block where
  /-- `S.state`, R23. -/
  state : StreamState
  /-- `S.cfg_*`, R24 to R28. -/
  cfg : CfgRegs
  /-- The active twins, R30. -/
  act : CfgRegs
  /-- `S.abs_pos`, R31. -/
  absPos : BitVec 64
  /-- `S.win`, R32. -/
  win : Memory
  /-- `S.dict`, R33. -/
  dict : Dict
  /-- `S.chunk`, R34. -/
  chunk : List Byte
  /-- `S.outq`, R35. -/
  outq : List Byte
  /-- `S.err_illegal`, R36. -/
  errIllegal : Bool
  /-- `S.err_not_streaming`, R36. -/
  errNotStreaming : Bool
  /-- `S.err_chunk_ovf`, R36. -/
  errChunkOvf : Bool
  /-- `S.first_err`, R36: `none` is code 0; codes 4 to 15 never occur (log 11). -/
  firstErr : Option ErrCode
  /-- `S.lit_count`, R37. -/
  litCount : BitVec 32
  /-- `S.match_count`, R37. -/
  matchCount : BitVec 32
  deriving DecidableEq, Repr

/-- What the host can do to the block (R6, R7): send a command word (R80), remove an output byte (R88), read a register
(R43), pulse `rst` (R140). -/
inductive HostAction where
  | command (w : CmdWord)
  | transfer
  | readback (index : BitVec 4)
  | reset
  deriving DecidableEq, Repr

/-- The machine: the block, and what the model holds around it. -/
structure State where
  /-- The implementation parameters of R9 (log 1). No step changes them. -/
  params : Params
  /-- The block's state S (R22). -/
  blk : Block
  /-- The host's actions still to come, the next one first (log 2). -/
  pending : List HostAction
  /-- A token emission to perform on its own, before the host's next action (log 4). -/
  microOp : Option Token
  /-- The bytes the host has removed from the output port, oldest first (R19, log 6). -/
  delivered : List Byte
  /-- The readbacks the host has taken, oldest first (R19, log 6). -/
  reads : List (BitVec 4 × BitVec 32)
  deriving DecidableEq, Repr

/-- Why a step can fault. -/
inductive Fault where
  /-- R15, R46: `Byte(q)` was asked for a position outside the readable range; "a model that is asked to read outside it
  has a bug and faults". Raised by the chunk end (DATA with LAST, END_CHUNK, FINISH). Safe: no step from a state that
  meets the invariant of Safety.lean raises it. -/
  | byteOutsideRange
  deriving DecidableEq, Repr

/-- Why a step can refuse. -/
inductive Refusal where
  /-- An instruction without a meaning; no arm raises it. Safe. -/
  | notModelled (mnemonic : String)
  /-- R106, U6: "the model refuses the DATA that would make `S.abs_pos + len(S.chunk)` equal 2^64". Raised by DATA. Safe:
  such a stream is outside the spec. -/
  | streamOf2Pow64Bytes
  deriving DecidableEq, Repr

/-- The configuration registers after reset (R24 to R28, R141). -/
def CfgRegs.reset (P : Params) : CfgRegs :=
  { window := BitVec.ofNat 16 P.windowMax
    maxMatch := BitVec.ofNat 8 Config.lenCap
    probeCap := BitVec.ofNat 16 Config.probeCapReset
    chainDepth := BitVec.ofNat 16 Config.chainDepthReset
    lazyEn := true
    exhaustive := false }

/-- The block's state after reset (R141). -/
def Block.reset (P : Params) : Block :=
  { state := .idle
    cfg := CfgRegs.reset P
    act := CfgRegs.reset P
    absPos := 0#64
    win := []
    dict := []
    chunk := []
    outq := []
    errIllegal := false
    errNotStreaming := false
    errChunkOvf := false
    firstErr := none
    litCount := 0#32
    matchCount := 0#32 }

/-- The machine of parameters `P` right after reset, with nothing pending and nothing observed yet. -/
def State.resetWith (P : Params) : State :=
  { params := P, blk := Block.reset P, pending := [], microOp := none, delivered := [], reads := [] }

/-- The machine right after reset at the default parameters of R9 (log 1). -/
def State.reset : State := State.resetWith Params.default

end Sys2Proof.Machine
end

