-- ==== Sys2Proof/Machine/Ops.lean ====
section
/-! DEFINITION. The named operations of R15: the sparse maps behind window and dictionary, `Byte`, `WinWrite`,
`DictLookup`, `DictInsert`, `Emit`, the error action `raise Err` (R122) and its clearing (R128). -/

namespace Sys2Proof.Machine

open Sys2Proof.Config (Params)

/-! ### Sparse maps: lists of key and value, keys strictly rising -/

/-- The keys rise strictly, so none is listed twice. -/
abbrev KeysRising {α : Type} (m : List (Nat × α)) : Prop := (m.map Prod.fst).Pairwise (· < ·)

/-- The value listed under a key. -/
def sparseGet {α : Type} : List (Nat × α) → Nat → Option α
  | [], _ => none
  | (k, v) :: rest, a => if a = k then some v else sparseGet rest a

/-- The map with `v` under the key `a`, in order. -/
def sparseSet {α : Type} : List (Nat × α) → Nat → α → List (Nat × α)
  | [], a, v => [(a, v)]
  | (k, w) :: rest, a, v =>
    if a < k then (a, v) :: (k, w) :: rest
    else if a = k then (a, v) :: rest
    else (k, w) :: sparseSet rest a v

/-- The map without the key `a`. -/
def sparseErase {α : Type} (m : List (Nat × α)) (a : Nat) : List (Nat × α) := m.filter (fun e => e.1 ≠ a)

/-! ### The window (R32, R46, R47, R51) -/

/-- The canonical form of the window: positions strictly rising. An unlisted position has no byte, so no entry can equal
what an unlisted position reads as. -/
def Memory.wf (m : Memory) : Bool := decide (KeysRising m)

/-- What `S.win` records at a position: a byte, or none for a position that has none (R32). -/
def Memory.read (m : Memory) (q : Nat) : Option Byte := sparseGet m q

/-- `WinWrite(q, b)` (R47). -/
def winWrite (m : Memory) (q : Nat) (b : Byte) : Memory := sparseSet m q b

/-- `WinWrite` of consecutive bytes from position `q` on (the loop of R51). -/
def winWriteAll : Memory → Nat → List Byte → Memory
  | m, _, [] => m
  | m, q, b :: bs => winWriteAll (winWrite m q b) (q + 1) bs

/-- "drop from S.win every position q < lo" (R51). -/
def winDropBelow (m : Memory) (lo : Nat) : Memory := m.filter (fun e => lo ≤ e.1)

/-- What `Byte` can see while one chunk is encoded (R46): the window left by earlier chunks, the chunk, its first
position `cs`, and `aWINDOW`. -/
structure View where
  win : Memory
  chunk : List Byte
  cs : Nat
  window : Nat
  deriving DecidableEq, Repr

/-- `ce = cs + n`, one past the chunk's last position (R46, R90). -/
def View.ce (v : View) : Nat := v.cs + v.chunk.length

/-- `lo = max(0, cs - aWINDOW)` (R46). -/
def View.lo (v : View) : Nat := v.cs - v.window

/-- `Byte(q)` (R46): none outside `lo ..< ce`, the fault of R15. -/
def View.byteAt (v : View) (q : Nat) : Option Byte :=
  if v.cs ≤ q then v.chunk[q - v.cs]?
  else if v.lo ≤ q then Memory.read v.win q
  else none

/-- The view a chunk end of the block reads through (R46, R90). -/
def Block.view (b : Block) : View :=
  { win := b.win, chunk := b.chunk, cs := b.absPos.toNat, window := b.act.window.toNat }

/-! ### The dictionary (R33, R48 to R50) -/

/-- The canonical form of the dictionary: keys strictly rising, and no empty list listed, since an unlisted key has the
empty list. -/
def Dict.wf (d : Dict) : Bool := decide (KeysRising d ∧ ∀ e ∈ d, e.2 ≠ [])

/-- `DictLookup(k)` (R49). -/
def dictLookup (d : Dict) (k : Nat) : List Nat := (sparseGet d k).getD []

/-- `S.dict[k] <- l`, keeping the canonical form. -/
def dictPut (d : Dict) (k : Nat) : List Nat → Dict
  | [] => sparseErase d k
  | r :: rs => sparseSet d k (r :: rs)

/-- The packing of three bytes into a key, the first the most significant (R48). -/
def packKey (x y z : Byte) : Nat := x.toNat * 65536 + y.toNat * 256 + z.toNat

/-- `Key(q)` (R48). -/
def View.keyAt (v : View) (q : Nat) : Option Nat :=
  (v.byteAt q).bind fun x => (v.byteAt (q + 1)).bind fun y => (v.byteAt (q + 2)).map fun z => packKey x y z

/-- `DictInsert(q)` (R50), with `depth = aCHAIN_DEPTH`. -/
def dictInsert (v : View) (depth q : Nat) (d : Dict) : Option Dict :=
  (v.keyAt q).map fun k => dictPut d k ((q :: dictLookup d k).take depth)

/-! ### The output queue and the tokens (R53, R70 to R73, R101) -/

/-- The serialization of one token (R71, R72). -/
def Token.bytes : Token → List Byte
  | .literal b => litBytes b
  | .matchRef off len => matchBytes off len

/-- `Ser(ts)` (R73): the serializations one after another. -/
def serialize (ts : List Token) : List Byte := ts.flatMap Token.bytes

/-- The opcode-table row of a token. -/
def Token.toInstr : Token → Instr
  | .literal b => .lit b
  | .matchRef off len => .matchRef off len

/-- `Emit(bs)` (R53). -/
def Block.emit (b : Block) (bs : List Byte) : Block := { b with outq := b.outq ++ bs }

/-- `EmitLit(b)` (R101); the counter wraps modulo 2^32. -/
def Block.emitLit (b : Block) (x : Byte) : Block :=
  { b.emit (litBytes x) with litCount := b.litCount + 1#32 }

/-- `EmitMatch(off, len)` (R101); the counter wraps modulo 2^32. -/
def Block.emitMatch (b : Block) (off : BitVec 16) (len : Byte) : Block :=
  { b.emit (matchBytes off len) with matchCount := b.matchCount + 1#32 }

/-! ### Errors (R120 to R128): the block's one "exception", and its clearing -/

/-- Set the sticky bit of a code and leave the others (R122, R127). -/
def Block.setSticky (b : Block) : ErrCode → Block
  | .illegal => { b with errIllegal := true }
  | .notStreaming => { b with errNotStreaming := true }
  | .chunkOvf => { b with errChunkOvf := true }

/-- `raise Err(code)` (R122): the sticky bit, the first code if there is none yet, and nothing else. -/
def Block.raiseErr (b : Block) (code : ErrCode) : Block :=
  { b.setSticky code with firstErr := some (b.firstErr.getD code) }

/-- The clearing of the error state by START (R128). -/
def Block.clearErrs (b : Block) : Block :=
  { b with errIllegal := false, errNotStreaming := false, errChunkOvf := false, firstErr := none }

/-- The state with another block. -/
def State.withBlk (s : State) (b : Block) : State := { s with blk := b }

/-- The outcome of an erroneous command: dropped, with the error action and no other effect (R122). -/
def State.raiseErr (s : State) (code : ErrCode) : Host.Outcome State Fault Refusal :=
  .next (s.withBlk (s.blk.raiseErr code))

/-- The outcome of work on the block that reads stream bytes: none is the fault of R15. -/
def State.nextBlk (s : State) : Option Block → Host.Outcome State Fault Refusal
  | some b => .next (s.withBlk b)
  | none => .fault .byteOutsideRange

end Sys2Proof.Machine
end

