-- ==== Sys2Proof/Machine/Operands.lean ====
section
/-! DEFINITION. Operand values: the `Legal(v)` functions that make the 16-bit VALUE of CFG_WRITE legal for each register
(R24 to R28, R76, R87), and the quantities R11 derives from the active configuration. -/

namespace Sys2Proof.Machine

open Sys2Proof.Config (Params)

/-- `min(max(v, lo), hi)`, exact on naturals (R13, R87). -/
def clampNat (v lo hi : Nat) : Nat := min (max v lo) hi

/-- `Legal(v)` of WINDOW_SIZE (R24). -/
def legalWindow (P : Params) (v : BitVec 16) : BitVec 16 := BitVec.ofNat 16 (clampNat v.toNat 1 P.windowMax)

/-- `Legal(v)` of MAX_MATCH (R25), "for the 16-bit written value". -/
def legalMaxMatch (v : BitVec 16) : BitVec 8 := BitVec.ofNat 8 (clampNat v.toNat 3 255)

/-- `Legal(v)` of PROBE_CAP (R26). -/
def legalProbeCap (P : Params) (v : BitVec 16) : BitVec 16 := BitVec.ofNat 16 (clampNat v.toNat 1 P.probeCapMax)

/-- `Legal(v)` of CHAIN_DEPTH (R27). -/
def legalChainDepth (P : Params) (v : BitVec 16) : BitVec 16 := BitVec.ofNat 16 (clampNat v.toNat 1 P.chainDepthMax)

/-- The five writes of R87: the register REG selects takes `Legal(v)`, the others stay. REG ≥ 5 selects none. -/
def CfgRegs.write (c : CfgRegs) (P : Params) (reg : BitVec 4) (v : BitVec 16) : CfgRegs :=
  match reg.toNat with
  | 0 => { c with window := legalWindow P v }
  | 1 => { c with maxMatch := legalMaxMatch v }
  | 2 => { c with probeCap := legalProbeCap P v }
  | 3 => { c with chainDepth := legalChainDepth P v }
  | 4 => { c with lazyEn := v.getLsbD 0, exhaustive := v.getLsbD 1 }
  | _ => c

/-- `NPROBE = min(aPROBE_CAP, aCHAIN_DEPTH)` (R11). -/
def CfgRegs.nprobe (a : CfgRegs) : Nat := min a.probeCap.toNat a.chainDepth.toNat

/-- `MAX_DIST = aWINDOW` (R11). -/
def CfgRegs.maxDist (a : CfgRegs) : Nat := a.window.toNat

/-- `MAX_LEN = aMAX_MATCH` (R11). -/
def CfgRegs.maxLen (a : CfgRegs) : Nat := a.maxMatch.toNat

end Sys2Proof.Machine
end

