-- ==== Sys2Proof/Machine/Flags.lean ====
section
/-! DEFINITION. What the host reads of the block: the STATUS word (R38), every readback register (R24 to R28, R38 to
R43, R57), the `err` output (R129), and the end of a stream (R144). Nothing here changes the state. -/

namespace Sys2Proof.Machine

open Sys2Proof.Config (Params)

/-- The 2-bit code of STATUS.STATE (R23, R38). -/
def StreamState.code : StreamState → BitVec 2
  | .idle => 0#2
  | .streaming => 1#2
  | .done => 2#2

/-- The 4-bit code of an error (R121). -/
def ErrCode.code : ErrCode → BitVec 4
  | .illegal => 1#4
  | .notStreaming => 2#4
  | .chunkOvf => 3#4

/-- `S.first_err` as its 4-bit code (R36): 0 is none. -/
def Block.firstErrCode (b : Block) : BitVec 4 :=
  match b.firstErr with
  | none => 0#4
  | some c => c.code

/-- STATUS.BUSY between commands (R43: "In the model every readback sees the state after every command accepted before
it, so BUSY reads 0"; log 10). -/
def busyBit : BitVec 1 := 0#1

/-- STATUS.OUT_EMPTY (R38). -/
def Block.outEmpty (b : Block) : Bool := b.outq.isEmpty

/-- The STATUS word (R38), bit 31 first. -/
def Block.statusWord (b : Block) : BitVec 32 :=
  0#19 ++ BitVec.ofBool b.outEmpty ++ b.firstErrCode ++ 0#1 ++ BitVec.ofBool b.errChunkOvf ++
    BitVec.ofBool b.errNotStreaming ++ BitVec.ofBool b.errIllegal ++ 0#1 ++ busyBit ++ b.state.code

/-- MODE as read back (R28): LAZY_EN in bit 0, EXHAUSTIVE in bit 1. -/
def CfgRegs.modeWord (c : CfgRegs) : BitVec 32 :=
  0#30 ++ BitVec.ofBool c.exhaustive ++ BitVec.ofBool c.lazyEn

/-- `Read(i)` (R43): the register of readback index `i` (R57). Reserved indices read 0 (R42). -/
def Block.read (b : Block) (P : Params) (i : BitVec 4) : BitVec 32 :=
  match i.toNat with
  | 0x0 => b.cfg.window.setWidth 32
  | 0x1 => b.cfg.maxMatch.setWidth 32
  | 0x2 => b.cfg.probeCap.setWidth 32
  | 0x3 => b.cfg.chainDepth.setWidth 32
  | 0x4 => b.cfg.modeWord
  | 0x8 => b.statusWord
  | 0x9 => BitVec.ofNat 32 b.chunk.length
  | 0xA => b.absPos.extractLsb' 0 32
  | 0xB => b.absPos.extractLsb' 32 32
  | 0xC => b.litCount
  | 0xD => b.matchCount
  | 0xE => BitVec.ofNat 32 P.chunkMax
  | _ => 0#32

/-- The level output `err` (R129). -/
def Block.errOut (b : Block) : Bool := b.errIllegal || b.errNotStreaming || b.errChunkOvf

/-- "A stream is over when `S.state = DONE`, BUSY = 0 and `S.outq` is empty" (R144). -/
def Block.streamOver (b : Block) : Bool := decide (b.state = .done ∧ busyBit = 0#1 ∧ b.outq = [])

end Sys2Proof.Machine
end

