-- ==== Sys2Proof/Machine/MatchFinder.lean ====
section
/-! DEFINITION. The chunk encoder (R84, R90 to R102): the hash-chain and exhaustive searches, lazy evaluation, the scan,
and the completion of a chunk. A function answers none where `Byte` was asked for a position outside the readable range
(R15, R46). Each loop of the spec recurses on a counter that bounds its turns (log 19). -/

namespace Sys2Proof.Machine

/-- What a search carries along: the dictionary and the insertion cursor `ins` (R90, R93). -/
structure Finder where
  dict : Dict
  ins : Nat
  deriving DecidableEq, Repr

/-- The loop of `SyncDict(q)` (R93), for at most `n` turns. -/
def syncLoop (v : View) (depth q : Nat) : Nat → Finder → Option Finder
  | 0, f => some f
  | n + 1, f =>
    if f.ins < q ∧ f.ins + 2 < v.ce then
      (dictInsert v depth f.ins f.dict).bind fun d => syncLoop v depth q n { dict := d, ins := f.ins + 1 }
    else some f

/-- `SyncDict(q)` (R93). -/
def syncDict (v : View) (depth q : Nat) (f : Finder) : Option Finder := syncLoop v depth q (q - f.ins) f

/-- `CandHash(q)` (R94). -/
def candHash (v : View) (a : CfgRegs) (d : Dict) (q : Nat) : Option (List Nat) :=
  (v.keyAt q).map fun k => ((dictLookup d k).take a.nprobe).filter fun r => q - r ≤ a.maxDist

/-- `CandExh(q)` (R95): `q - 1`, `q - 2`, …, `max(0, q - aWINDOW)`. -/
def candExh (a : CfgRegs) (q : Nat) : List Nat :=
  (List.range' (q - a.maxDist) (q - (q - a.maxDist))).reverse

/-- The loop of `MatchLen(r, q, lim)` (R96) with `n = lim - l` turns left and `l` equal bytes counted. -/
def matchLenLoop (v : View) (r q : Nat) : Nat → Nat → Option Nat
  | 0, l => some l
  | n + 1, l =>
    (v.byteAt (r + l)).bind fun x => (v.byteAt (q + l)).bind fun y =>
      if x = y then matchLenLoop v r q n (l + 1) else some l

/-- `MatchLen(r, q, lim)` (R96). -/
def matchLen (v : View) (r q lim : Nat) : Option Nat := matchLenLoop v r q lim 0

/-- The loop of `Best` (R97) over the candidates left, with the best length and offset so far. -/
def bestLoop (v : View) (q lim : Nat) : List Nat → Nat → Nat → Option (Nat × Nat)
  | [], bestLen, bestOff => some (bestLen, bestOff)
  | r :: rs, bestLen, bestOff =>
    (matchLen v r q lim).bind fun l =>
      if bestLen < l then
        if l = lim then some (l, q - r) else bestLoop v q lim rs l (q - r)
      else if bestLen = lim then some (bestLen, bestOff)
      else bestLoop v q lim rs bestLen bestOff

/-- `Best(cands, q, lim)` (R97): the best length and its offset. -/
def best (v : View) (cands : List Nat) (q lim : Nat) : Option (Nat × Nat) := bestLoop v q lim cands 0 0

/-- The candidates of position `q` in the active search mode (R98). -/
def candidates (v : View) (a : CfgRegs) (d : Dict) (q : Nat) : Option (List Nat) :=
  if a.exhaustive then some (candExh a q) else candHash v a d q

/-- `limit(q) = min(aMAX_MATCH, ce - q)` (R92). -/
def searchLimit (v : View) (a : CfgRegs) (q : Nat) : Nat := min a.maxLen (v.ce - q)

/-- The search of `FindMatch(q)` after `SyncDict` (R98): length and offset, length 0 for no match. -/
def searchAt (v : View) (a : CfgRegs) (d : Dict) (q : Nat) : Option (Nat × Nat) :=
  if searchLimit v a q < Config.minMatch then some (0, 0)
  else
    (candidates v a d q).bind fun cands => (best v cands q (searchLimit v a q)).map fun lo =>
      if lo.1 < Config.minMatch then (0, 0) else lo

/-- `FindMatch(q)` (R98): the finder after `SyncDict(q)`, and the length and offset found. -/
def findMatch (v : View) (a : CfgRegs) (f : Finder) (q : Nat) : Option (Finder × Nat × Nat) :=
  (syncDict v a.chainDepth.toNat q f).bind fun f' => (searchAt v a f'.dict q).map fun lo => (f', lo)

/-- `aLAZY == 1 and p + 1 < ce and Defer(len, p)` (R99, R100): the look-ahead search, made only when the first two hold. -/
def deferral (v : View) (a : CfgRegs) (f : Finder) (len p : Nat) : Option (Finder × Bool) :=
  if a.lazyEn = true ∧ p + 1 < v.ce then
    (findMatch v a f (p + 1)).map fun r => (r.1, decide (len + 1 < r.2.1))
  else some (f, false)

/-- The token the scan chooses at position `p` (R99), with the finder after its searches. -/
def chooseToken (v : View) (a : CfgRegs) (f : Finder) (p : Nat) : Option (Finder × Token) :=
  (findMatch v a f p).bind fun r =>
    if r.2.1 = 0 then (v.byteAt p).map fun x => (r.1, .literal x)
    else
      (deferral v a r.1 r.2.1 p).bind fun d =>
        if d.2 then (v.byteAt p).map fun x => (d.1, .literal x)
        else some (d.1, .matchRef (BitVec.ofNat 16 r.2.2) (BitVec.ofNat 8 r.2.1))

/-- How many positions a token covers (R99). -/
def Token.span : Token → Nat
  | .literal _ => 1
  | .matchRef _ len => len.toNat

/-- `EmitLit` or `EmitMatch` (R101). -/
def Block.emitToken (b : Block) : Token → Block
  | .literal x => b.emitLit x
  | .matchRef off len => b.emitMatch off len

/-- `Scan()` (R99) from cursor `p`, for at most `n` tokens: the block with dictionary and output as the tokens leave them,
and the insertion cursor. -/
def scanLoop (v : View) : Nat → Block → Nat → Nat → Option (Block × Nat)
  | 0, b, ins, _ => some (b, ins)
  | n + 1, b, ins, p =>
    if p < v.ce then
      (chooseToken v b.act { dict := b.dict, ins := ins } p).bind fun r =>
        scanLoop v n ({ b with dict := r.1.dict }.emitToken r.2) r.1.ins (p + r.2.span)
    else some (b, ins)

/-- `Trim(ce)` (R51): the window after the chunk. -/
def trimWindow (v : View) : Memory :=
  winDropBelow (winWriteAll v.win v.cs v.chunk) (v.ce - v.window)

/-- `Complete()` (R102). -/
def completeChunk (v : View) (b : Block) (ins : Nat) : Option Block :=
  (syncDict v b.act.chainDepth.toNat v.ce { dict := b.dict, ins := ins }).map fun f =>
    { b with dict := f.dict, win := trimWindow v, absPos := BitVec.ofNat 64 v.ce, chunk := [] }

/-- `EncodeChunk()` (R90). -/
def Block.encodeChunk (b : Block) : Option Block :=
  (scanLoop b.view b.chunk.length b b.view.cs b.view.cs).bind fun r => completeChunk b.view r.1 r.2

/-- `ChunkEnd()` (R84). -/
def Block.chunkEnd (b : Block) : Option Block :=
  match b.chunk with
  | [] => some b
  | _ :: _ => b.encodeChunk

end Sys2Proof.Machine
end

