-- ==== Sys2Proof/Machine/StreamCommands.lean ====
section
/-! DEFINITION. The commands of format Z: NOP (R81), START (R82), END_CHUNK (R85), FINISH (R86). -/

namespace Sys2Proof.Machine

/-- What START does to the block (R82): the configuration latched (R30), the stream state emptied, the errors cleared
(R128); `S.outq` is not changed. -/
def Block.startStream (b : Block) : Block :=
  { b.clearErrs with
    act := b.cfg
    absPos := 0#64
    win := []
    dict := []
    chunk := []
    litCount := 0#32
    matchCount := 0#32
    state := .streaming }

/-- What FINISH does after the chunk end (R86). -/
def Block.finishStream (b : Block) : Block := { b with state := .done }

/-- NOP (R81): `skip`. -/
def execNop (s : State) : Host.Outcome State Fault Refusal := .next s

/-- START (R82): legal in every state. -/
def execStart (s : State) : Host.Outcome State Fault Refusal := .next (s.withBlk s.blk.startStream)

/-- END_CHUNK (R85). -/
def execEndChunk (s : State) : Host.Outcome State Fault Refusal :=
  if s.blk.state = .streaming then s.nextBlk s.blk.chunkEnd else s.raiseErr .notStreaming

/-- FINISH (R86). -/
def execFinish (s : State) : Host.Outcome State Fault Refusal :=
  if s.blk.state = .streaming then s.nextBlk (s.blk.chunkEnd.map Block.finishStream) else s.raiseErr .notStreaming

end Sys2Proof.Machine
end

