-- ==== Sys2Proof/Machine/DataCommands.lean ====
section
/-! DEFINITION. The command of format D: DATA (R83). -/

namespace Sys2Proof.Machine

/-- `S.chunk <- S.chunk ++ [b]` (R83). -/
def Block.appendByte (b : Block) (x : Byte) : Block := { b with chunk := b.chunk ++ [x] }

/-- The DATA would make the stream reach 2^64 bytes (R106, U6). -/
def Block.reachesStreamLimit (b : Block) : Bool := decide (Config.streamLimit ≤ b.absPos.toNat + b.chunk.length + 1)

/-- DATA (R83), its tests in the order of R126; the DATA that would reach 2^64 stream bytes is refused (R106, log 8). -/
def execData (x : Byte) (last : Bool) (s : State) : Host.Outcome State Fault Refusal :=
  if s.blk.state ≠ .streaming then s.raiseErr .notStreaming
  else if s.blk.chunk.length = s.params.chunkMax then s.raiseErr .chunkOvf
  else if s.blk.reachesStreamLimit then .refused .streamOf2Pow64Bytes
  else if last then s.nextBlk (s.blk.appendByte x).chunkEnd
  else .next (s.withBlk (s.blk.appendByte x))

end Sys2Proof.Machine
end

