-- ==== Sys2Proof/Machine/CfgCommands.lean ====
section
/-! DEFINITION. The command of format C: CFG_WRITE (R87). -/

namespace Sys2Proof.Machine

/-- CFG_WRITE (R87): legal in every state, and REG ≥ 5 is ILLEGAL (R69 (c), R123; log 13). -/
def execCfgWrite (reg : BitVec 4) (v : BitVec 16) (s : State) : Host.Outcome State Fault Refusal :=
  if reg.toNat ≤ 4 then .next (s.withBlk { s.blk with cfg := s.blk.cfg.write s.params reg v })
  else s.raiseErr .illegal

end Sys2Proof.Machine
end

