-- ==== Sys2Proof/Machine/TokenOps.lean ====
section
/-! DEFINITION. The two token rows of the opcode table: LIT and MATCH as the emissions of R101 (log 4). -/

namespace Sys2Proof.Machine

/-- LIT (R71): `EmitLit(b)` of R101. -/
def execLit (x : Byte) (s : State) : Host.Outcome State Fault Refusal := .next (s.withBlk (s.blk.emitLit x))

/-- MATCH (R72): `EmitMatch(off, len)` of R101. -/
def execMatchRef (off : BitVec 16) (len : Byte) (s : State) : Host.Outcome State Fault Refusal :=
  .next (s.withBlk (s.blk.emitMatch off len))

end Sys2Proof.Machine
end

