-- ==== Sys2Proof/Machine/Dispatch.lean ====
section
/-! DEFINITION. One arm per row of the opcode table. -/

namespace Sys2Proof.Machine

def exec (i : Instr) (s : State) : Host.Outcome State Fault Refusal :=
  match i with
  | .nop => Sys2Proof.Machine.execNop s
  | .start => Sys2Proof.Machine.execStart s
  | .data byte last => Sys2Proof.Machine.execData byte last s
  | .endChunk => Sys2Proof.Machine.execEndChunk s
  | .cfgWrite reg value => Sys2Proof.Machine.execCfgWrite reg value s
  | .finish => Sys2Proof.Machine.execFinish s
  | .lit b => Sys2Proof.Machine.execLit b s
  | .matchRef off len => Sys2Proof.Machine.execMatchRef off len s

end Sys2Proof.Machine
end

