-- ==== Sys2Proof/Machine/HostPort.lean ====
section
/-! DEFINITION. What the host does to the block: sending a command word (R80), removing an output byte (R88), reading a
register (R43), driving reset (R140); and where the words of the opcode table are placed for the next step (log 16). -/

namespace Sys2Proof.Machine

/-- `Accept(w)` (R80): an illegal word is dropped with ILLEGAL in every state (R123), a legal one runs its command. -/
def acceptCommand (w : CmdWord) (s : State) : Host.Outcome State Fault Refusal :=
  match decodeCommand w with
  | .ok i => exec i s
  | .error _ => s.raiseErr .illegal

/-- The state once the host's next action is taken off the list. -/
def State.popAction (s : State) : State := { s with pending := s.pending.tail }

/-- The output transfer (R88), the first of the host's actions: the head of `S.outq` goes to the host. On an empty queue
"a host waiting for a byte waits", so the action stays where it is (log 3). -/
def hostTransfer (s : State) : State :=
  match s.blk.outq with
  | [] => s
  | x :: rest => { (s.popAction).withBlk { s.blk with outq := rest } with delivered := s.delivered ++ [x] }

/-- The readback (R43), the first of the host's actions: the value goes to the host and the block is not changed. -/
def hostReadback (i : BitVec 4) (s : State) : State :=
  { s.popAction with reads := s.reads ++ [(i, s.blk.read s.params i)] }

/-- The reset (R140), the first of the host's actions: one step that sets the state of R141. -/
def hostReset (s : State) : State := (s.popAction).withBlk (Block.reset s.params)

/-- The step that performs the host's action. -/
def hostAct (s : State) : HostAction → Host.Outcome State Fault Refusal
  | .command w => acceptCommand w s.popAction
  | .transfer => .next (hostTransfer s)
  | .readback i => .next (hostReadback i s)
  | .reset => .next (hostReset s)

/-- The token bytes as the emission to perform on its own (log 4), and a word as the host's next command (log 16). -/
def State.placeWire (s : State) : Wire → State
  | .command w => { s with microOp := none, pending := .command w :: s.pending }
  | .token bytes =>
    match decodeToken bytes with
    | .ok (.lit b) => { s with microOp := some (.literal b) }
    | .ok (.matchRef off len) => { s with microOp := some (.matchRef off len) }
    | _ => s

end Sys2Proof.Machine
end

