-- ==== Sys2Proof/Machine/Step.lean ====
section
/-! DEFINITION. One step of the machine (R6): the acceptance of a command, the removal of an output byte, a readback, or
reset, in the host's order (R58). With nothing to do the block is idle and keeps all state (R134, R142). -/

namespace Sys2Proof.Machine

/-- One step: a placed token emission first (log 4), else the host's next action. -/
def step (s : State) : Host.Outcome State Fault Refusal :=
  match s.microOp with
  | some t => exec t.toInstr { s with microOp := none }
  | none =>
    match s.pending with
    | [] => .next s
    | a :: _ => hostAct s a

/-- The state whose very next step runs the instruction with bits `w` of an opcode-table row (log 16). -/
def State.withFetchWord (s : State) (nbits w : Nat) : State := s.placeWire (wireOfTable nbits w)

end Sys2Proof.Machine
end

