-- ==== Sys2Proof/Machine/Asm.lean ====
section
/-! DEFINITION. The assembler notation of R77 and the pseudo-instructions of R78: lines, the command words they stand for,
and the reading of a line of text. Notation only (D19): no step depends on it. -/

namespace Sys2Proof.Machine

open Sys2Proof.Config (Params)

/-- The register names of a `CFG` line (R77). -/
inductive CfgName where
  | windowSize
  | maxMatch
  | probeCap
  | chainDepth
  | mode
  deriving DecidableEq, Repr

/-- The REG value of a register name (R67, R77). -/
def CfgName.reg : CfgName → BitVec 4
  | .windowSize => 0#4
  | .maxMatch => 1#4
  | .probeCap => 2#4
  | .chainDepth => 3#4
  | .mode => 4#4

/-- One line of the notation: the commands of R77, then the pseudo-instructions of R78. -/
inductive AsmLine where
  | nop
  | start
  | data (b : Byte)
  | dataL (b : Byte)
  | endc
  | cfg (name : CfgName) (v : BitVec 16)
  | finish
  | word (n : CmdWord)
  | send (s : List Byte)
  | sendL (s : List Byte)
  | defaults
  | sendR (c : Byte) (n : Nat)
  deriving DecidableEq, Repr

/-- `SEND.L` of a string (R78): its last byte ends the chunk. -/
def sendLastWords : List Byte → List CmdWord
  | [] => [0x30000000#32]
  | [b] => [dataWord b true]
  | b :: b' :: bs => dataWord b false :: sendLastWords (b' :: bs)

/-- The command words a line stands for (R77, R78). -/
def AsmLine.words (P : Params) : AsmLine → List CmdWord
  | .nop => [0x00000000#32]
  | .start => [0x10000000#32]
  | .data b => [dataWord b false]
  | .dataL b => [dataWord b true]
  | .endc => [0x30000000#32]
  | .cfg name v => [cfgWord name.reg v]
  | .finish => [0x50000000#32]
  | .word n => [n]
  | .send s => s.map fun b => dataWord b false
  | .sendL s => sendLastWords s
  | .defaults =>
    [cfgWord 0#4 (BitVec.ofNat 16 P.windowMax), cfgWord 1#4 255#16, cfgWord 2#4 32#16, cfgWord 3#4 64#16, cfgWord 4#4 1#16]
  | .sendR c n => List.replicate n (dataWord c false)

/-- The words of a program, line by line ("One command per line"). -/
def asmWords (P : Params) (lines : List AsmLine) : List CmdWord := lines.flatMap (AsmLine.words P)

/-! ### Reading text (R77; the points R77 leaves open are in log 17) -/

/-- The lexical pieces of a line. -/
inductive Lexeme where
  | name (cs : List Char)
  | number (n : Nat)
  | string (bs : List Byte)
  | comma
  deriving DecidableEq, Repr

/-- The value of a digit in a base up to 16. -/
def digitValue (base : Nat) (c : Char) : Option Nat :=
  let v := if '0' ≤ c ∧ c ≤ '9' then c.toNat - 48
    else if 'a' ≤ c ∧ c ≤ 'f' then c.toNat - 87
    else if 'A' ≤ c ∧ c ≤ 'F' then c.toNat - 55
    else 16
  if v < base then some v else none

/-- The value of a run of digits, none for no digit or a wrong one. -/
def digitsValue (base : Nat) : List Char → Option Nat
  | [] => none
  | c :: cs => (c :: cs).foldl (fun acc d => acc.bind fun a => (digitValue base d).map fun x => a * base + x) (some 0)

/-- "numbers are decimal or `0x` hex" (R77). -/
def numberValue : List Char → Option Nat
  | '0' :: 'x' :: cs => digitsValue 16 cs
  | cs => digitsValue 10 cs

/-- A character of a name or of a number. -/
def isWordChar (c : Char) : Bool := c.isAlphanum || c = '.' || c = '_'

/-- The code of a character, its ASCII code (R78). -/
def charByte (c : Char) : Byte := BitVec.ofNat 8 c.toNat

/-- The pieces of a line, up to its comment ("`;` starts a comment"), in at most `n` turns. -/
def lexLine : Nat → List Char → Option (List Lexeme)
  | _, [] => some []
  | 0, _ :: _ => none
  | n + 1, c :: cs =>
    if c = ';' then some []
    else if c = ' ' ∨ c = '\t' then lexLine n cs
    else if c = ',' then (lexLine n cs).map (Lexeme.comma :: ·)
    else if c = '\'' then
      match cs with
      | x :: '\'' :: rest => (lexLine n rest).map (Lexeme.number (charByte x).toNat :: ·)
      | _ => none
    else if c = '"' then
      match cs.dropWhile (· ≠ '"') with
      | _ :: rest => (lexLine n rest).map (Lexeme.string ((cs.takeWhile (· ≠ '"')).map charByte) :: ·)
      | [] => none
    else if c.isDigit then
      (numberValue ((c :: cs).takeWhile isWordChar)).bind fun v =>
        (lexLine n (cs.dropWhile isWordChar)).map (Lexeme.number v :: ·)
    else if isWordChar c then
      (lexLine n (cs.dropWhile isWordChar)).map (Lexeme.name ((c :: cs).takeWhile isWordChar) :: ·)
    else none

/-- The register a `CFG` line names. -/
def cfgNameOf (cs : List Char) : Option CfgName :=
  if cs = ['W', 'I', 'N', 'D', 'O', 'W', '_', 'S', 'I', 'Z', 'E'] then some .windowSize
  else if cs = ['M', 'A', 'X', '_', 'M', 'A', 'T', 'C', 'H'] then some .maxMatch
  else if cs = ['P', 'R', 'O', 'B', 'E', '_', 'C', 'A', 'P'] then some .probeCap
  else if cs = ['C', 'H', 'A', 'I', 'N', '_', 'D', 'E', 'P', 'T', 'H'] then some .chainDepth
  else if cs = ['M', 'O', 'D', 'E'] then some .mode
  else none

/-- A number as an operand of `w` bits; none if it does not fit. -/
def operandOf (w n : Nat) : Option (BitVec w) := if n < 2 ^ w then some (BitVec.ofNat w n) else none

/-- The line a mnemonic and its operands make (R77, R78). -/
def lineOf (cs : List Char) (args : List Lexeme) : Option AsmLine :=
  if cs = ['N', 'O', 'P'] then (match args with | [] => some .nop | _ => none)
  else if cs = ['S', 'T', 'A', 'R', 'T'] then (match args with | [] => some .start | _ => none)
  else if cs = ['D', 'A', 'T', 'A'] then (match args with | [.number n] => (operandOf 8 n).map .data | _ => none)
  else if cs = ['D', 'A', 'T', 'A', '.', 'L'] then (match args with | [.number n] => (operandOf 8 n).map .dataL | _ => none)
  else if cs = ['E', 'N', 'D', 'C'] then (match args with | [] => some .endc | _ => none)
  else if cs = ['C', 'F', 'G'] then
    (match args with
      | [.name r, .comma, .number n] => (cfgNameOf r).bind fun reg => (operandOf 16 n).map fun v => .cfg reg v
      | _ => none)
  else if cs = ['F', 'I', 'N', 'I', 'S', 'H'] then (match args with | [] => some .finish | _ => none)
  else if cs = ['.', 'w', 'o', 'r', 'd'] then (match args with | [.number n] => (operandOf 32 n).map .word | _ => none)
  else if cs = ['S', 'E', 'N', 'D'] then (match args with | [.string s] => some (.send s) | _ => none)
  else if cs = ['S', 'E', 'N', 'D', '.', 'L'] then (match args with | [.string s] => some (.sendL s) | _ => none)
  else if cs = ['D', 'E', 'F', 'A', 'U', 'L', 'T', 'S'] then (match args with | [] => some .defaults | _ => none)
  else if cs = ['S', 'E', 'N', 'D', '.', 'R'] then
    (match args with
      | [.number c, .comma, .number n] => (operandOf 8 c).map fun b => .sendR b n
      | _ => none)
  else none

/-- A line of text as the lines it stands for: none if it is not of the notation, no line if it is empty or a comment. -/
def parseLine (text : List Char) : Option (List AsmLine) :=
  (lexLine text.length text).bind fun ls =>
    match ls with
    | [] => some []
    | .name cs :: args => (lineOf cs args).map fun l => [l]
    | _ => none

/-- A token as the notation writes it: `LIT b` and `MATCH off, len` (R77), numbers in decimal. -/
def Token.text : Token → List Char
  | .literal b => ['L', 'I', 'T', ' '] ++ Nat.toDigits 10 b.toNat
  | .matchRef off len =>
    ['M', 'A', 'T', 'C', 'H', ' '] ++ Nat.toDigits 10 off.toNat ++ [',', ' '] ++ Nat.toDigits 10 len.toNat

end Sys2Proof.Machine
end

