-- ==== Sys2Proof/Machine/RefDecoder.lean ====
section
/-! DEFINITION. The reference decoder of R110 to R113: specification functions, not hardware ("A model of the block needs
these functions for its laws and tests, not for its step"). It reads no configuration (R116). -/

namespace Sys2Proof.Machine

/-- Where the reference decoder is undefined, "a model treats the case as a fault of the decoder" (R110). -/
inductive DecoderFault where
  /-- U2: `Match(0, l)` with `l ≥ 1`. -/
  | offsetZero
  /-- U3: `Match(o, l)` with `o` greater than the output so far and `l ≥ 1`. -/
  | offsetBeyondOutput
  deriving DecidableEq, Repr

/-- `Deserialize(bs)` (R111): stops cleanly at the first byte that does not start a complete token. -/
def deserialize : List Byte → List Token
  | [] => []
  | [_] => []
  | tag :: x :: rest =>
    if tag = Config.tagLit then .literal x :: deserialize rest
    else if tag = Config.tagMatch then
      match rest with
      | hi :: len :: rest' => .matchRef (hi ++ x) len :: deserialize rest'
      | [_] => []
      | [] => []
    else []

/-- "repeat l times: out <- out ++ [out[len(out) - o]]" (R112), one byte at a time. -/
def copyBytes (o : Nat) : Nat → List Byte → List Byte
  | 0, out => out
  | l + 1, out => copyBytes o l (out ++ (out[out.length - o]?).toList)

/-- One token of `Decompress` (R112). A match of length 0 copies nothing, and only a match of length at least 1 is checked
against the output so far (D25). -/
def applyToken (out : List Byte) : Token → Except DecoderFault (List Byte)
  | .literal x => .ok (out ++ [x])
  | .matchRef off len =>
    if len.toNat = 0 then .ok out
    else if off.toNat = 0 then .error .offsetZero
    else if out.length < off.toNat then .error .offsetBeyondOutput
    else .ok (copyBytes off.toNat len.toNat out)

/-- `Decompress` from an output already there (R112, R115). -/
def decompressFrom : List Byte → List Token → Except DecoderFault (List Byte)
  | out, [] => .ok out
  | out, t :: ts =>
    match applyToken out t with
    | .ok out' => decompressFrom out' ts
    | .error e => .error e

/-- `Decompress(ts)` (R112). -/
def decompress (ts : List Token) : Except DecoderFault (List Byte) := decompressFrom [] ts

/-- `Decode(bs) = Decompress(Deserialize(bs))` (R113). -/
def refDecode (bs : List Byte) : Except DecoderFault (List Byte) := decompress (deserialize bs)

end Sys2Proof.Machine
end

