-- ==== Sys2Proof/Safety.lean ====
section
/-! DEFINITION. What a safe run is, in the terms the claims use: the invariant every step keeps, the observations of R19,
the stream a host sends, and what the tokens of a chunk must satisfy. -/

namespace Sys2Proof.Machine

open Sys2Proof.Config (Params)

/-! ### The invariant -/

/-- The configuration values are legal (R24 to R27). -/
abbrev CfgRegs.Legal (P : Params) (c : CfgRegs) : Prop :=
  (1 ≤ c.window.toNat ∧ c.window.toNat ≤ P.windowMax) ∧ 3 ≤ c.maxMatch.toNat ∧
    (1 ≤ c.probeCap.toNat ∧ c.probeCap.toNat ≤ P.probeCapMax) ∧
    (1 ≤ c.chainDepth.toNat ∧ c.chainDepth.toNat ≤ P.chainDepthMax)

/-- The first position of the window (R32). -/
def Block.winLo (b : Block) : Nat := b.absPos.toNat - b.act.window.toNat

/-- The window holds exactly the positions `max(0, abs_pos - aWINDOW) ..< abs_pos`, in rising order (R32). -/
abbrev Block.WindowExact (b : Block) : Prop :=
  b.win.map Prod.fst = List.range' b.winLo (b.absPos.toNat - b.winLo)

/-- The dictionary's form (R33, R50, R93): keys of 24 bits rising strictly; every listed list non-empty, strictly
decreasing, at most aCHAIN_DEPTH long, of positions whose key lies inside the completed chunks. -/
abbrev Block.DictForm (b : Block) : Prop :=
  KeysRising b.dict ∧
    ∀ e ∈ b.dict, e.1 < 2 ^ 24 ∧ e.2 ≠ [] ∧ e.2.Pairwise (· > ·) ∧ e.2.length ≤ b.act.chainDepth.toNat ∧
      ∀ r ∈ e.2, r + 3 ≤ b.absPos.toNat

/-- Every listed position still in the window has the key it is listed under (R33: "two different 3-byte values never share
a list"); of a position that has left the window (R52) nothing is said. -/
abbrev Block.DictKeyed (b : Block) : Prop :=
  ∀ e ∈ b.dict, ∀ r ∈ e.2, b.winLo ≤ r → b.view.keyAt r = some e.1

/-- The error fields agree (R36, R122): a first code is recorded exactly when a sticky bit is set, and its own bit is. -/
abbrev Block.ErrForm (b : Block) : Prop :=
  (b.firstErr = none ↔ b.errOut = false) ∧ (b.firstErr = some .illegal → b.errIllegal = true) ∧
    (b.firstErr = some .notStreaming → b.errNotStreaming = true) ∧ (b.firstErr = some .chunkOvf → b.errChunkOvf = true)

/-- The invariant of the block. -/
structure Block.Inv (P : Params) (b : Block) : Prop where
  cfgLegal : b.cfg.Legal P
  actLegal : b.act.Legal P
  chunkFits : b.chunk.length ≤ P.chunkMax
  chunkClosed : b.state ≠ .streaming → b.chunk = []
  belowLimit : b.absPos.toNat + b.chunk.length < Config.streamLimit
  windowExact : b.WindowExact
  dictForm : b.DictForm
  dictKeyed : b.DictKeyed
  errForm : b.ErrForm

/-- The invariant of the machine. -/
structure State.Inv (s : State) : Prop where
  paramsLegal : s.params.Legal
  blk : s.blk.Inv s.params

/-! ### What the host observes (R19) -/

/-- The observations of R19: the bytes delivered, the values read, the sticky error bits. -/
structure Observation where
  delivered : List Byte
  reads : List (BitVec 4 × BitVec 32)
  errIllegal : Bool
  errNotStreaming : Bool
  errChunkOvf : Bool
  deriving DecidableEq, Repr

/-- What the host has observed of a state. -/
def State.observe (s : State) : Observation :=
  { delivered := s.delivered
    reads := s.reads
    errIllegal := s.blk.errIllegal
    errNotStreaming := s.blk.errNotStreaming
    errChunkOvf := s.blk.errChunkOvf }

/-- Every byte the block has produced since reset: those delivered, then those still queued (R53, R58). -/
def State.produced (s : State) : List Byte := s.delivered ++ s.blk.outq

/-! ### Streams -/

/-- Run commands one after another, stopping at the first fault or refusal. -/
def execAll : List Instr → State → Host.Outcome State Fault Refusal
  | [], s => .next s
  | i :: is, s =>
    match exec i s with
    | .next s' => execAll is s'
    | .fault f => .fault f
    | .refused r => .refused r

/-- The concatenation of the DATA bytes of a command sequence (R114). -/
def sentBytes (is : List Instr) : List Byte := is.filterMap Instr.sentByte

/-! ### Illegal words -/

/-- The text of R69, on the word as a number: (a) the opcode is reserved; (b) a reserved bit of the format is 1; (c) CFG_WRITE
with REG ≥ 5. -/
def IllegalWord (w : CmdWord) : Prop :=
  6 ≤ w.toNat / 2 ^ 28 ∨
    ((w.toNat / 2 ^ 28 = 0 ∨ w.toNat / 2 ^ 28 = 1 ∨ w.toNat / 2 ^ 28 = 3 ∨ w.toNat / 2 ^ 28 = 5) ∧ w.toNat % 2 ^ 28 ≠ 0) ∨
    (w.toNat / 2 ^ 28 = 2 ∧ w.toNat % 2 ^ 28 / 2 ^ 9 ≠ 0) ∨
    (w.toNat / 2 ^ 28 = 4 ∧ w.toNat / 2 ^ 16 % 2 ^ 8 ≠ 0) ∨
    (w.toNat / 2 ^ 28 = 4 ∧ 5 ≤ w.toNat / 2 ^ 24 % 2 ^ 4)

/-! ### The tokens of a chunk -/

/-- A token at position `p` of the chunk stands for the stream's bytes there (R104, and R103: no match passes `ce`). -/
def TokenFits (v : View) (a : CfgRegs) (p : Nat) : Token → Prop
  | .literal x => v.byteAt p = some x
  | .matchRef off len =>
    1 ≤ off.toNat ∧ off.toNat ≤ a.window.toNat ∧ off.toNat ≤ p ∧ 3 ≤ len.toNat ∧ len.toNat ≤ a.maxMatch.toNat ∧
      p + len.toNat ≤ v.ce ∧
      ∀ i < len.toNat, (v.byteAt (p + i)).isSome ∧ v.byteAt (p - off.toNat + i) = v.byteAt (p + i)

/-- The tokens cover the positions from `p` to the chunk's end exactly once, in order, each standing for the bytes there
(R99, R104). -/
def TokensCover (v : View) (a : CfgRegs) : Nat → List Token → Prop
  | p, [] => p = v.ce
  | p, t :: ts => TokenFits v a p t ∧ TokensCover v a (p + t.span) ts

/-- The insertable positions `r` of the chunk, `cs ≤ r ≤ ce - 3`, whose key is `k`, the largest first (R93). -/
def insertablePositions (v : View) (k : Nat) : List Nat :=
  ((List.range' v.cs (v.chunk.length - 2)).filter fun r => decide (v.keyAt r = some k)).reverse

/-- The block with the positions purged from its dictionary that have left the window (R52: "An implementation may
therefore purge stale entries at any time"). -/
def Block.purgeStale (b : Block) : Block :=
  { b with
    dict := (b.dict.map fun e => (e.1, e.2.filter fun r => decide (b.winLo ≤ r))).filter fun e => decide (e.2 ≠ []) }

/-- How many of the tokens are literals. -/
def countLiterals (ts : List Token) : Nat := (ts.filter fun t => match t with | .literal _ => true | .matchRef _ _ => false).length

/-- How many of the tokens are matches. -/
def countMatches (ts : List Token) : Nat := (ts.filter fun t => match t with | .literal _ => false | .matchRef _ _ => true).length

end Sys2Proof.Machine
end

