-- ==== Sys2Proof/Certificates/Slice0/Obligations.lean ====
section
/-! DEFINITION. The statements for the provers. Each docstring names the rule of spec/ it formalises, or says what it
rests on. -/

open Sys2Proof Sys2Proof.Machine
open Sys2Proof.Config (Params)

/-! ### Encodings (R61 to R76) -/

/-- Every instruction the formats admit comes back from its own bits, whatever its operands (R63 to R68, R71, R72). -/
def Obligations.EncodedInstructionsDecodeBack : Prop :=
  ∀ i : Instr, i.wellFormed = true → decode (encode i) = .ok i

/-- A word the decoder takes is the encoding of the command it reads: no bit of a legal word is ignored (R69: "every word of
the 2^32 is either one of the six commands or illegal"). -/
def Obligations.LegalWordsReencodeToThemselves : Prop :=
  ∀ (w : CmdWord) (i : Instr), decodeCommand w = .ok i → i.wellFormed = true ∧ i.isCommand = true ∧ encode i = .command w

/-- R69: a word is rejected exactly when (a), (b) or (c) holds, and such a word raises ILLEGAL with no other effect. -/
def Obligations.WordsAreIllegalExactlyAsListed : Prop :=
  ∀ w : CmdWord,
    ((∃ e, decodeCommand w = .error e) ↔ IllegalWord w) ∧ ((∃ i, decodeCommand w = .ok i) ↔ ¬ IllegalWord w) ∧
      (IllegalWord w → ∀ s : State, acceptCommand w s =
        .next { s with blk := { s.blk with errIllegal := true, firstErr := some (s.blk.firstErr.getD .illegal) } })

/-- R63, R64, R66, R68: each command of format Z is one word exactly. -/
def Obligations.FormatZCommandsAreOneWordEach : Prop :=
  ∀ w : CmdWord,
    (decodeCommand w = .ok .nop ↔ w = 0x00000000#32) ∧ (decodeCommand w = .ok .start ↔ w = 0x10000000#32) ∧
      (decodeCommand w = .ok .endChunk ↔ w = 0x30000000#32) ∧ (decodeCommand w = .ok .finish ↔ w = 0x50000000#32)

/-- R65: the match pattern, the fields and the word of DATA. -/
def Obligations.DataWordsFollowFormatD : Prop :=
  (∀ w : CmdWord, (∃ b l, decodeCommand w = .ok (.data b l)) ↔ w &&& 0xFFFFFE00#32 = 0x20000000#32) ∧
    (∀ (w : CmdWord) (b : Byte) (l : Bool), decodeCommand w = .ok (.data b l) →
      b.toNat = w.toNat % 2 ^ 8 ∧ (l = true ↔ w.toNat / 2 ^ 8 % 2 = 1)) ∧
    (∀ (b : Byte) (l : Bool), ∃ w : CmdWord, encode (.data b l) = .command w ∧ decodeCommand w = .ok (.data b l) ∧
      w.toNat = 0x20000000 + (if l then 2 ^ 8 else 0) + b.toNat)

/-- R67: the match pattern, the fields and the word of CFG_WRITE, the register each REG selects, and that other REG values are
illegal. -/
def Obligations.CfgWriteWordsFollowFormatC : Prop :=
  (∀ w : CmdWord, (∃ r v, decodeCommand w = .ok (.cfgWrite r v)) ↔
      w &&& 0xF0FF0000#32 = 0x40000000#32 ∧ w.toNat / 2 ^ 24 % 2 ^ 4 ≤ 4) ∧
    (∀ (w : CmdWord) (r : BitVec 4) (v : BitVec 16), decodeCommand w = .ok (.cfgWrite r v) →
      r.toNat = w.toNat / 2 ^ 24 % 2 ^ 4 ∧ v.toNat = w.toNat % 2 ^ 16) ∧
    (∀ (r : BitVec 4) (v : BitVec 16), r.toNat ≤ 4 → ∃ w : CmdWord, encode (.cfgWrite r v) = .command w ∧
      decodeCommand w = .ok (.cfgWrite r v) ∧ w.toNat = 0x40000000 + r.toNat * 2 ^ 24 + v.toNat) ∧
    (∀ w : CmdWord, w.toNat / 2 ^ 28 = 4 → 5 ≤ w.toNat / 2 ^ 24 % 2 ^ 4 → ∃ e, decodeCommand w = .error e) ∧
    (∀ (c : CfgRegs) (P : Params) (v : BitVec 16),
      c.write P 0x0#4 v = { c with window := legalWindow P v } ∧ c.write P 0x1#4 v = { c with maxMatch := legalMaxMatch v } ∧
      c.write P 0x2#4 v = { c with probeCap := legalProbeCap P v } ∧
      c.write P 0x3#4 v = { c with chainDepth := legalChainDepth P v } ∧
      c.write P 0x4#4 v = { c with lazyEn := v.getLsbD 0, exhaustive := v.getLsbD 1 })

/-- R71, R72: the bytes of the two tokens, the offset low byte first. -/
def Obligations.TokenBytesFollowTheWireFormat : Prop :=
  (∀ b : Byte, (Token.literal b).bytes = [0x00#8, b]) ∧
    (∀ (off : BitVec 16) (len : Byte), (Token.matchRef off len).bytes =
      [0x01#8, BitVec.ofNat 8 (off.toNat % 256), BitVec.ofNat 8 (off.toNat / 256), len]) ∧
    (Token.matchRef 1#16 99#8).bytes = [0x01#8, 0x01#8, 0x00#8, 0x63#8] ∧
    (Token.matchRef 258#16 255#8).bytes = [0x01#8, 0x02#8, 0x01#8, 0xFF#8]

/-- A few words and token bytes written out by hand: those of spec/95_test_vectors.md, and 0x60000000, the example of R123. The
reasons of the three rejections are the cases (a), (b), (c) of R69. -/
def Obligations.SampleWordsDecode : Prop :=
  decodeCommand 0x00000000#32 = .ok .nop ∧ decodeCommand 0x10000000#32 = .ok .start ∧
    decodeCommand 0x20000165#32 = .ok (.data 0x65#8 true) ∧ decodeCommand 0x20000061#32 = .ok (.data 0x61#8 false) ∧
    decodeCommand 0x30000000#32 = .ok .endChunk ∧ decodeCommand 0x4100012C#32 = .ok (.cfgWrite 1#4 300#16) ∧
    decodeCommand 0x50000000#32 = .ok .finish ∧ decodeToken [0x00#8, 0xFF#8] = .ok (.lit 0xFF#8) ∧
    decodeToken [0x01#8, 0x00#8, 0x01#8, 0x04#8] = .ok (.matchRef 256#16 4#8) ∧
    decodeCommand 0x60000000#32 = .error .reservedOpcode ∧ decodeCommand 0x2000FE00#32 = .error .reservedBits ∧
    decodeCommand 0x45000000#32 = .error .illegalReg

/-! ### The reference decoder (R111, R112) -/

/-- R111: what each beginning of a byte sequence gives: a literal, a match, a clean stop on a truncated token, a clean stop
on an unrecognized tag. -/
def Obligations.DeserializeReadsTokensAndStopsCleanly : Prop :=
  deserialize [] = [] ∧ (∀ (b : Byte) (rest : List Byte), deserialize (0x00#8 :: b :: rest) = .literal b :: deserialize rest) ∧
    (∀ (lo hi len : Byte) (rest : List Byte),
      ∃ off : BitVec 16, off.toNat = lo.toNat + 256 * hi.toNat ∧
        deserialize (0x01#8 :: lo :: hi :: len :: rest) = .matchRef off len :: deserialize rest) ∧
    deserialize [0x00#8] = [] ∧ (∀ bs : List Byte, bs.length < 3 → deserialize (0x01#8 :: bs) = []) ∧
    (∀ (tag : Byte) (bs : List Byte), 2 ≤ tag.toNat → deserialize (tag :: bs) = []) ∧
    deserialize [0x00#8, 0x41#8, 0x07#8, 0x00#8, 0x42#8] = [.literal 0x41#8]

/-- A serialized token sequence is read back whole, whatever follows it (R73, R111). -/
def Obligations.DeserializeInvertsSerialize : Prop :=
  ∀ (ts : List Token) (rest : List Byte), deserialize (serialize ts ++ rest) = ts ++ deserialize rest

/-- `Decompress` (R112), with its undefined cases as the decoder's faults (R110, U2, U3; log 20): a literal appends its
byte; a match of length at least 1 with `1 ≤ o ≤ len(out)` appends `l` bytes, each equal to the one `o` places before it
(overlapping copies included); length 0 copies nothing; every other match is a fault, and ends the run. -/
def Obligations.DecompressCopiesOneByteAtATime : Prop :=
  ∀ out : List Byte,
    (∀ b : Byte, applyToken out (.literal b) = .ok (out ++ [b])) ∧
      (∀ (off : BitVec 16) (len : Byte),
        (len.toNat = 0 → applyToken out (.matchRef off len) = .ok out) ∧
        (1 ≤ len.toNat → 1 ≤ off.toNat → off.toNat ≤ out.length →
          ∃ copied : List Byte, applyToken out (.matchRef off len) = .ok (out ++ copied) ∧ copied.length = len.toNat ∧
            ∀ j < len.toNat, (out ++ copied)[out.length + j]? = (out ++ copied)[out.length + j - off.toNat]?) ∧
        (1 ≤ len.toNat → off.toNat = 0 → applyToken out (.matchRef off len) = .error .offsetZero) ∧
        (1 ≤ len.toNat → out.length < off.toNat → applyToken out (.matchRef off len) = .error .offsetBeyondOutput)) ∧
      (∀ (t : Token) (ts : List Token) (out' : List Byte), applyToken out t = .ok out' →
        decompressFrom out (t :: ts) = decompressFrom out' ts) ∧
      (∀ (t : Token) (ts : List Token) (e : DecoderFault), applyToken out t = .error e →
        decompressFrom out (t :: ts) = .error e) ∧
      decompressFrom out [] = .ok out ∧ (∀ ts : List Token, decompress ts = decompressFrom [] ts) ∧
      decompress [.literal 0x7A#8, .matchRef 1#16 10#8] = .ok (List.replicate 11 0x7A#8)

/-! ### Reset (R140, R141) -/

/-- R141: every field after reset, at every legal choice of the parameters, and what the readbacks and `err` then show. -/
def Obligations.ResetLeavesEveryFieldAsListed : Prop :=
  ∀ P : Params, P.Legal →
    let b := (State.resetWith P).blk
    b.state = .idle ∧ b.cfg.window.toNat = P.windowMax ∧ b.cfg.maxMatch.toNat = 255 ∧ b.cfg.probeCap.toNat = 32 ∧
      b.cfg.chainDepth.toNat = 64 ∧ b.cfg.lazyEn = true ∧ b.cfg.exhaustive = false ∧ b.act = b.cfg ∧
      b.absPos = 0#64 ∧ b.win = [] ∧ (∀ q, Memory.read b.win q = none) ∧ b.dict = [] ∧ (∀ k, dictLookup b.dict k = []) ∧
      b.chunk = [] ∧ b.outq = [] ∧ b.errIllegal = false ∧ b.errNotStreaming = false ∧ b.errChunkOvf = false ∧
      b.firstErr = none ∧ b.litCount = 0#32 ∧ b.matchCount = 0#32 ∧ b.read P 0x8#4 = 0x00001000#32 ∧
      b.read P 0x9#4 = 0#32 ∧ b.read P 0xA#4 = 0#32 ∧ b.read P 0xB#4 = 0#32 ∧ b.read P 0xC#4 = 0#32 ∧
      b.read P 0xD#4 = 0#32 ∧ b.errOut = false

/-- Reset as a step (R140), from any state: the block is as after power-on whatever it was doing; what the host has already
received stays received. That the host's later actions stay pending is the model's own choice (log 15). -/
def Obligations.ResetActionRestoresTheResetBlock : Prop :=
  ∀ (s : State) (rest : List HostAction), s.microOp = none → s.pending = .reset :: rest →
    step s = .next { s with blk := (State.resetWith s.params).blk, pending := rest }

/-! ### The commands (R80 to R87, R124 to R126) -/

/-- R81: NOP is legal in every state and changes nothing. -/
def Obligations.NopChangesNothing : Prop :=
  ∀ s : State, exec .nop s = .next s ∧ acceptCommand 0x00000000#32 s = .next s

/-- R82: START in every state; `S.outq` and the configuration registers stay, an open chunk is discarded. -/
def Obligations.StartOpensAFreshStream : Prop :=
  ∀ s : State, exec .start s = .next { s with blk := { s.blk with
    act := s.blk.cfg, absPos := 0#64, win := [], dict := [], chunk := [], litCount := 0#32, matchCount := 0#32,
    errIllegal := false, errNotStreaming := false, errChunkOvf := false, firstErr := none, state := .streaming } }

/-- R83 and R125, the three outcomes of DATA: NOT_STREAMING, CHUNK_OVF (LAST is not acted on), and the byte appended, with
LAST followed by the chunk end. The DATA that would reach 2^64 stream bytes is the subject of another statement (R106). -/
def Obligations.DataAppendsItsByte : Prop :=
  ∀ (s : State) (x : Byte) (last : Bool),
    (s.blk.state ≠ .streaming → exec (.data x last) s =
      .next { s with blk := { s.blk with errNotStreaming := true, firstErr := some (s.blk.firstErr.getD .notStreaming) } }) ∧
    (s.blk.state = .streaming → s.blk.chunk.length = s.params.chunkMax → exec (.data x last) s =
      .next { s with blk := { s.blk with errChunkOvf := true, firstErr := some (s.blk.firstErr.getD .chunkOvf) } }) ∧
    (s.blk.state = .streaming → s.blk.chunk.length ≠ s.params.chunkMax →
      s.blk.absPos.toNat + s.blk.chunk.length + 1 < 2 ^ 64 →
      (last = false → exec (.data x last) s = .next { s with blk := { s.blk with chunk := s.blk.chunk ++ [x] } }) ∧
      (last = true → s.Inv → ∃ b', { s.blk with chunk := s.blk.chunk ++ [x] }.encodeChunk = some b' ∧
        exec (.data x last) s = .next { s with blk := b' }))

/-- R85 with R84: in STREAMING an empty chunk gives no token and no change, another is encoded; elsewhere NOT_STREAMING. -/
def Obligations.EndChunkEncodesTheOpenChunk : Prop :=
  ∀ s : State,
    (s.blk.state = .streaming → s.blk.chunk = [] → exec .endChunk s = .next s) ∧
    (s.blk.state = .streaming → s.blk.chunk ≠ [] → s.Inv →
      ∃ b', s.blk.encodeChunk = some b' ∧ exec .endChunk s = .next { s with blk := b' }) ∧
    (s.blk.state ≠ .streaming → exec .endChunk s =
      .next { s with blk := { s.blk with errNotStreaming := true, firstErr := some (s.blk.firstErr.getD .notStreaming) } })

/-- R86 with R84: FINISH ends the chunk and the stream; elsewhere NOT_STREAMING, so a second FINISH is an error. After it
every step but a START and a reset keeps the stream's state and what the host reads of it. -/
def Obligations.FinishEndsTheStream : Prop :=
  (∀ s : State,
    (s.blk.state = .streaming → s.blk.chunk = [] → exec .finish s = .next { s with blk := { s.blk with state := .done } }) ∧
    (s.blk.state = .streaming → s.blk.chunk ≠ [] → s.Inv →
      ∃ b', s.blk.encodeChunk = some b' ∧ exec .finish s = .next { s with blk := { b' with state := .done } }) ∧
    (s.blk.state ≠ .streaming → exec .finish s =
      .next { s with blk := { s.blk with errNotStreaming := true, firstErr := some (s.blk.firstErr.getD .notStreaming) } })) ∧
  (∀ s t : State, s.blk.state = .done → s.microOp = none → step s = .next t →
    s.pending.head? ≠ some .reset → s.pending.head? ≠ some (.command 0x10000000#32) →
      t.blk.state = .done ∧ t.blk.win = s.blk.win ∧ t.blk.dict = s.blk.dict ∧ t.blk.absPos = s.blk.absPos ∧
        t.blk.litCount = s.blk.litCount ∧ t.blk.matchCount = s.blk.matchCount ∧ t.blk.act = s.blk.act ∧
        t.blk.chunk = s.blk.chunk ∧
        ∀ i ∈ [0xA#4, 0xB#4, 0xC#4, 0xD#4], t.blk.read t.params i = s.blk.read s.params i)

/-- R87 and R29: the addressed register takes `Legal(v)` and nothing else changes, in every state; a word with REG ≥ 5 or a
reserved bit is ILLEGAL. That the term of Instr with REG ≥ 5 raises the same error is the model's own choice (log 13). -/
def Obligations.CfgWriteStoresTheLegalValue : Prop :=
  (∀ (s : State) (reg : BitVec 4) (v : BitVec 16), s.params.Legal → reg.toNat ≤ 4 →
    ∃ c : CfgRegs, exec (.cfgWrite reg v) s = .next { s with blk := { s.blk with cfg := c } } ∧
      c.window.toNat = (if reg.toNat = 0 then min (max v.toNat 1) s.params.windowMax else s.blk.cfg.window.toNat) ∧
      c.maxMatch.toNat = (if reg.toNat = 1 then min (max v.toNat 3) 255 else s.blk.cfg.maxMatch.toNat) ∧
      c.probeCap.toNat = (if reg.toNat = 2 then min (max v.toNat 1) s.params.probeCapMax else s.blk.cfg.probeCap.toNat) ∧
      c.chainDepth.toNat = (if reg.toNat = 3 then min (max v.toNat 1) s.params.chainDepthMax else s.blk.cfg.chainDepth.toNat) ∧
      c.lazyEn = (if reg.toNat = 4 then v.getLsbD 0 else s.blk.cfg.lazyEn) ∧
      c.exhaustive = (if reg.toNat = 4 then v.getLsbD 1 else s.blk.cfg.exhaustive)) ∧
  (∀ (s : State) (reg : BitVec 4) (v : BitVec 16), 5 ≤ reg.toNat → exec (.cfgWrite reg v) s =
    .next { s with blk := { s.blk with errIllegal := true, firstErr := some (s.blk.firstErr.getD .illegal) } }) ∧
  (∀ (s : State) (w : CmdWord), w.toNat / 2 ^ 28 = 4 → (5 ≤ w.toNat / 2 ^ 24 % 2 ^ 4 ∨ w.toNat / 2 ^ 16 % 2 ^ 8 ≠ 0) →
    acceptCommand w s =
      .next { s with blk := { s.blk with errIllegal := true, firstErr := some (s.blk.firstErr.getD .illegal) } })

/-- R124: a legal DATA, END_CHUNK or FINISH in IDLE or DONE. -/
def Obligations.StreamCommandsOutsideStreamingAreErrors : Prop :=
  ∀ (s : State) (i : Instr), (s.blk.state = .idle ∨ s.blk.state = .done) →
    ((∃ x l, i = .data x l) ∨ i = .endChunk ∨ i = .finish) →
      exec i s =
        .next { s with blk := { s.blk with errNotStreaming := true, firstErr := some (s.blk.firstErr.getD .notStreaming) } }

/-- R106: DATA is refused exactly where R83 would append a byte and the stream would then hold 2^64 bytes, whatever LAST
is. (A position count already beyond 2^64 cannot arise from a state that meets the invariant.) -/
def Obligations.DataReachingTwoToThe64IsRefused : Prop :=
  ∀ (s : State) (x : Byte) (last : Bool), s.Inv →
    (exec (.data x last) s = .refused .streamOf2Pow64Bytes ↔
      s.blk.state = .streaming ∧ s.blk.chunk.length ≠ s.params.chunkMax ∧
        s.blk.absPos.toNat + s.blk.chunk.length + 1 = 2 ^ 64)

/-- R80: the acceptance of a word, opcode by opcode; and an erroneous command is dropped, changing nothing but the error
state. -/
def Obligations.AcceptFollowsTheOpcode : Prop :=
  ∀ (w : CmdWord) (s : State),
    (IllegalWord w → acceptCommand w s =
      .next { s with blk := { s.blk with errIllegal := true, firstErr := some (s.blk.firstErr.getD .illegal) } }) ∧
    (¬ IllegalWord w →
      (w.toNat / 2 ^ 28 = 0 → acceptCommand w s = exec .nop s) ∧
      (w.toNat / 2 ^ 28 = 1 → acceptCommand w s = exec .start s) ∧
      (w.toNat / 2 ^ 28 = 2 → acceptCommand w s = exec (.data (BitVec.ofNat 8 w.toNat) (w.getLsbD 8)) s) ∧
      (w.toNat / 2 ^ 28 = 3 → acceptCommand w s = exec .endChunk s) ∧
      (w.toNat / 2 ^ 28 = 4 →
        acceptCommand w s = exec (.cfgWrite (BitVec.ofNat 4 (w.toNat / 2 ^ 24)) (BitVec.ofNat 16 w.toNat)) s) ∧
      (w.toNat / 2 ^ 28 = 5 → acceptCommand w s = exec .finish s) ∧ w.toNat / 2 ^ 28 ≤ 5) ∧
    (¬ IllegalWord w → (w.toNat / 2 ^ 28 = 2 ∨ w.toNat / 2 ^ 28 = 3 ∨ w.toNat / 2 ^ 28 = 5) → s.blk.state ≠ .streaming →
      acceptCommand w s =
        .next { s with blk := { s.blk with errNotStreaming := true, firstErr := some (s.blk.firstErr.getD .notStreaming) } }) ∧
    (¬ IllegalWord w → w.toNat / 2 ^ 28 = 2 → s.blk.state = .streaming → s.blk.chunk.length = s.params.chunkMax →
      acceptCommand w s =
        .next { s with blk := { s.blk with errChunkOvf := true, firstErr := some (s.blk.firstErr.getD .chunkOvf) } })

/-- R126: one command raises at most one error, and the first that holds of ILLEGAL, NOT_STREAMING, CHUNK_OVF. -/
def Obligations.ErrorsFollowTheirPriority : Prop :=
  ∀ (s : State) (w : CmdWord),
    (IllegalWord w → acceptCommand w s =
      .next { s with blk := { s.blk with errIllegal := true, firstErr := some (s.blk.firstErr.getD .illegal) } }) ∧
    (∀ i, decodeCommand w = .ok i → ((∃ x l, i = .data x l) ∨ i = .endChunk ∨ i = .finish) → s.blk.state ≠ .streaming →
      acceptCommand w s =
        .next { s with blk := { s.blk with errNotStreaming := true, firstErr := some (s.blk.firstErr.getD .notStreaming) } }) ∧
    (∀ x l, decodeCommand w = .ok (.data x l) → s.blk.state = .streaming → s.blk.chunk.length = s.params.chunkMax →
      acceptCommand w s =
        .next { s with blk := { s.blk with errChunkOvf := true, firstErr := some (s.blk.firstErr.getD .chunkOvf) } }) ∧
    (∀ t, acceptCommand w s = .next t → s.blk.errOut = false →
      ¬ (t.blk.errIllegal = true ∧ t.blk.errNotStreaming = true) ∧ ¬ (t.blk.errIllegal = true ∧ t.blk.errChunkOvf = true) ∧
        ¬ (t.blk.errNotStreaming = true ∧ t.blk.errChunkOvf = true))

/-- R122: the error action, code by code. -/
def Obligations.ErrorActionSetsOneBitAndTheFirstCode : Prop :=
  ∀ b : Block,
    b.raiseErr .illegal = { b with errIllegal := true, firstErr := some (b.firstErr.getD .illegal) } ∧
    b.raiseErr .notStreaming = { b with errNotStreaming := true, firstErr := some (b.firstErr.getD .notStreaming) } ∧
    b.raiseErr .chunkOvf = { b with errChunkOvf := true, firstErr := some (b.firstErr.getD .chunkOvf) } ∧
    (∀ c : ErrCode, (b.firstErr = none → (b.raiseErr c).firstErr = some c) ∧
      (b.firstErr ≠ none → (b.raiseErr c).firstErr = b.firstErr))

/-- R128 with R127: only a START and a reset clear the error state, and both clear all of it; every other step leaves each
sticky bit that is set, and the first code, as they are. An error does not stop the block: after it every command runs as it
would have without it. -/
def Obligations.OnlyStartAndResetClearErrors : Prop :=
  (∀ (s t : State) (i : Instr) (c : ErrCode), exec i s = .next t →
    ∃ t', exec i { s with blk := s.blk.raiseErr c } = .next t' ∧
      t'.blk = { t.blk with
        errIllegal := t'.blk.errIllegal, errNotStreaming := t'.blk.errNotStreaming, errChunkOvf := t'.blk.errChunkOvf
        firstErr := t'.blk.firstErr }) ∧
  ∀ s t : State, step s = .next t →
    ((s.microOp = none ∧ (s.pending.head? = some .reset ∨ s.pending.head? = some (.command 0x10000000#32))) →
      t.blk.errIllegal = false ∧ t.blk.errNotStreaming = false ∧ t.blk.errChunkOvf = false ∧ t.blk.firstErr = none) ∧
    (¬ (s.microOp = none ∧ (s.pending.head? = some .reset ∨ s.pending.head? = some (.command 0x10000000#32))) →
      (s.blk.errIllegal = true → t.blk.errIllegal = true) ∧
      (s.blk.errNotStreaming = true → t.blk.errNotStreaming = true) ∧
      (s.blk.errChunkOvf = true → t.blk.errChunkOvf = true) ∧
      (∀ c, s.blk.firstErr = some c → t.blk.firstErr = some c))

/-- The two token emissions of R101, complete in every state; each counter wraps modulo 2^32. That they are instructions is
log 4. -/
def Obligations.TokenEmissionAppendsAndCounts : Prop :=
  ∀ s : State,
    (∀ b : Byte, ∃ n : BitVec 32, n.toNat = (s.blk.litCount.toNat + 1) % 2 ^ 32 ∧
      exec (.lit b) s = .next { s with blk := { s.blk with outq := s.blk.outq ++ [0x00#8, b], litCount := n } }) ∧
    (∀ (off : BitVec 16) (len : Byte), ∃ n : BitVec 32, n.toNat = (s.blk.matchCount.toNat + 1) % 2 ^ 32 ∧
      exec (.matchRef off len) s = .next { s with blk := { s.blk with
        outq := s.blk.outq ++ [0x01#8, BitVec.ofNat 8 (off.toNat % 256), BitVec.ofNat 8 (off.toNat / 256), len]
        matchCount := n } })

/-! ### Steps and the host (R43, R88, R38 to R42, R129) -/

/-- A step runs what is decoded: a legal word at the head of the host's list runs its command with the word taken off, an
illegal one raises ILLEGAL; a placed token runs its row; with nothing to do the block keeps all state (R80, R134). The
list and the placed token are the model's own (log 2, log 4). -/
def Obligations.StepRunsTheDecodedInstruction : Prop :=
  ∀ s : State,
    (∀ w rest i, s.microOp = none → s.pending = .command w :: rest → decode (.command w) = .ok i →
      step s = exec i { s with pending := rest }) ∧
    (∀ w rest e, s.microOp = none → s.pending = .command w :: rest → decode (.command w) = .error e →
      step s = .next { s with
        pending := rest
        blk := { s.blk with errIllegal := true, firstErr := some (s.blk.firstErr.getD .illegal) } }) ∧
    (∀ b, s.microOp = some (.literal b) → step s = exec (.lit b) { s with microOp := none }) ∧
    (∀ off len, s.microOp = some (.matchRef off len) → step s = exec (.matchRef off len) { s with microOp := none }) ∧
    (s.microOp = none → s.pending = [] → step s = .next s)

/-- R88: the transfer delivers the head of the queue and changes nothing else of the block; on an empty queue the host
waits (that it waits at the head of its own list is log 3). -/
def Obligations.OutputTransferDeliversTheHead : Prop :=
  ∀ (s : State) (rest : List HostAction), s.microOp = none → s.pending = .transfer :: rest →
    (∀ x q, s.blk.outq = x :: q → step s =
      .next { s with blk := { s.blk with outq := q }, pending := rest, delivered := s.delivered ++ [x] }) ∧
    (s.blk.outq = [] → step s = .next s)

/-- R43: a readback hands the host the register's value and changes nothing of the block. -/
def Obligations.ReadbackChangesNoState : Prop :=
  ∀ (s : State) (i : BitVec 4) (rest : List HostAction), s.microOp = none → s.pending = .readback i :: rest →
    step s = .next { s with pending := rest, reads := s.reads ++ [(i, s.blk.read s.params i)] }

/-- STATUS bit by bit, and its reset value (R38). That BUSY is 0 holds at the model's level, where every readback is between
commands (R43, log 10). -/
def Obligations.StatusWordBitByBit : Prop :=
  (∀ (b : Block) (P : Params),
    (b.read P 0x8#4).toNat % 4 = (match b.state with | .idle => 0 | .streaming => 1 | .done => 2) ∧
    (b.read P 0x8#4).getLsbD 2 = false ∧ (b.read P 0x8#4).getLsbD 3 = false ∧
    (b.read P 0x8#4).getLsbD 4 = b.errIllegal ∧ (b.read P 0x8#4).getLsbD 5 = b.errNotStreaming ∧
    (b.read P 0x8#4).getLsbD 6 = b.errChunkOvf ∧ (b.read P 0x8#4).getLsbD 7 = false ∧
    (b.read P 0x8#4).toNat / 2 ^ 8 % 2 ^ 4 =
      (match b.firstErr with | none => 0 | some .illegal => 1 | some .notStreaming => 2 | some .chunkOvf => 3) ∧
    (b.read P 0x8#4).getLsbD 12 = decide (b.outq = []) ∧ (b.read P 0x8#4).toNat / 2 ^ 13 = 0) ∧
  (∀ P : Params, (State.resetWith P).blk.read P 0x8#4 = 0x00001000#32)

/-- The configuration readbacks (R24 to R28): each register in its field, zero above it. -/
def Obligations.ConfigurationReadbacks : Prop :=
  ∀ (b : Block) (P : Params),
    (b.read P 0x0#4).toNat = b.cfg.window.toNat ∧ (b.read P 0x1#4).toNat = b.cfg.maxMatch.toNat ∧
      (b.read P 0x2#4).toNat = b.cfg.probeCap.toNat ∧ (b.read P 0x3#4).toNat = b.cfg.chainDepth.toNat ∧
      (b.read P 0x4#4).toNat = (if b.cfg.lazyEn then 1 else 0) + (if b.cfg.exhaustive then 2 else 0)

/-- R39, R40, R41, R42: the remaining registers, their reset values, the reserved indices, and how the host learns the
maxima. -/
def Obligations.StreamReadbacks : Prop :=
  ∀ (s : State), s.Inv →
    let b := s.blk
    let P := s.params
    (b.read P 0x9#4).toNat = b.chunk.length ∧ (b.read P 0xA#4).toNat = b.absPos.toNat % 2 ^ 32 ∧
      (b.read P 0xB#4).toNat = b.absPos.toNat / 2 ^ 32 ∧ b.read P 0xC#4 = b.litCount ∧ b.read P 0xD#4 = b.matchCount ∧
      (b.read P 0xE#4).toNat = P.chunkMax ∧ b.read P 0x5#4 = 0#32 ∧ b.read P 0x6#4 = 0#32 ∧ b.read P 0x7#4 = 0#32 ∧
      b.read P 0xF#4 = 0#32 ∧
      (∀ i rest t, s.microOp = none → s.pending = .readback i :: rest → step s = .next t →
        t.blk.read P 0xA#4 = b.read P 0xA#4 ∧ t.blk.read P 0xB#4 = b.read P 0xB#4) ∧
      (∀ t, exec (.cfgWrite 0#4 0xFFFF#16) s = .next t → (t.blk.read P 0x0#4).toNat = P.windowMax) ∧
      (∀ t, exec (.cfgWrite 2#4 0xFFFF#16) s = .next t → (t.blk.read P 0x2#4).toNat = P.probeCapMax) ∧
      (∀ t, exec (.cfgWrite 3#4 0xFFFF#16) s = .next t → (t.blk.read P 0x3#4).toNat = P.chainDepthMax) ∧
      (let r := (State.resetWith P).blk
       r.read P 0x9#4 = 0#32 ∧ r.read P 0xA#4 = 0#32 ∧ r.read P 0xB#4 = 0#32 ∧ r.read P 0xC#4 = 0#32 ∧ r.read P 0xD#4 = 0#32)

/-- R129: `err` is the OR of the sticky bits; it rises with the first error and falls only at START or reset. -/
def Obligations.ErrOutputIsTheOrOfTheStickyBits : Prop :=
  (∀ b : Block, b.errOut = (b.errIllegal || b.errNotStreaming || b.errChunkOvf)) ∧
    (∀ (b : Block) (c : ErrCode), (b.raiseErr c).errOut = true) ∧
    (∀ s t : State, step s = .next t → s.blk.errOut = true → t.blk.errOut = false →
      s.microOp = none ∧ (s.pending.head? = some .reset ∨ s.pending.head? = some (.command 0x10000000#32)))

/-! ### Storage (R46, R50, R51) -/

/-- R46: the readable positions of a block that meets the invariant, where each byte comes from, and that no chunk end reads
outside them; a chunk end that did would fault. -/
def Obligations.BytesAreReadableExactlyInTheWindowAndChunk : Prop :=
  ∀ (P : Params) (b : Block), b.Inv P → b.chunk ≠ [] →
    (∀ q, (b.view.byteAt q).isSome = true ↔
      b.absPos.toNat - b.act.window.toNat ≤ q ∧ q < b.absPos.toNat + b.chunk.length) ∧
    (∀ q, b.absPos.toNat - b.act.window.toNat ≤ q → q < b.absPos.toNat → b.view.byteAt q = Memory.read b.win q) ∧
    (∀ q, b.absPos.toNat ≤ q → b.view.byteAt q = b.chunk[q - b.absPos.toNat]?) ∧
    (∃ b', b.encodeChunk = some b') ∧
    (∀ s : State, s.blk.state = .streaming → s.blk.chunk ≠ [] → s.blk.encodeChunk = none →
      exec .endChunk s = .fault .byteOutsideRange ∧ exec .finish s = .fault .byteOutsideRange)

/-- The insertion of R50 with the lookup of R49: the key's list takes the position in front and keeps the `depth` most
recent, every other list is as before, and a decreasing list of earlier positions stays decreasing. -/
def Obligations.DictInsertPutsThePositionInFront : Prop :=
  ∀ (v : View) (depth q : Nat) (d d' : Dict), dictInsert v depth q d = some d' →
    ∃ k, v.keyAt q = some k ∧ dictLookup d' k = (q :: dictLookup d k).take depth ∧
      (∀ k', k' ≠ k → dictLookup d' k' = dictLookup d k') ∧ (KeysRising d → KeysRising d') ∧
      ((dictLookup d k).Pairwise (· > ·) → (∀ r ∈ dictLookup d k, r < q) → (dictLookup d' k).Pairwise (· > ·))

/-- R51: after a chunk end the window is exactly the bytes at positions `max(0, ce - aWINDOW) ..< ce`, each the byte the
stream has there. -/
def Obligations.TrimKeepsTheLastWindowBytes : Prop :=
  ∀ (P : Params) (b b' : Block), b.Inv P → b.chunk ≠ [] → b.encodeChunk = some b' →
    let ce := b.absPos.toNat + b.chunk.length
    let lo := ce - b.act.window.toNat
    b'.win.map Prod.fst = List.range' lo (ce - lo) ∧
      ∀ q, Memory.read b'.win q = if lo ≤ q ∧ q < ce then b.view.byteAt q else none

/-! ### The match finder (R92 to R100) -/

/-- R92: no search returns a length above `limit(q)`, and with fewer than 3 bytes the search gives no match, whatever the
candidates (none is read: it answers whenever `SyncDict` does). Every answer is no match or a match of 3 bytes or more
(MIN_MATCH, R98). -/
def Obligations.SearchesStayWithinTheLimit : Prop :=
  (∀ (v : View) (a : CfgRegs) (f f' : Finder) (q len off : Nat), findMatch v a f q = some (f', len, off) →
    len ≤ min a.maxMatch.toNat (v.ce - q) ∧ (min a.maxMatch.toNat (v.ce - q) < 3 → len = 0 ∧ off = 0) ∧
      ((len = 0 ∧ off = 0) ∨ 3 ≤ len)) ∧
  (∀ (v : View) (a : CfgRegs) (f f' : Finder) (q : Nat), min a.maxMatch.toNat (v.ce - q) < 3 →
    syncDict v a.chainDepth.toNat q f = some f' → findMatch v a f q = some (f', 0, 0))

/-- R94: the candidates of hash-chain mode. The premises are what the dictionary meets at every search at `q`, as
ChunkEndInsertsEveryInsertablePosition states: a decreasing list of positions below `q`, each still in the window under its
own key. -/
def Obligations.HashCandidatesAreTheRecentSameKeyPositions : Prop :=
  ∀ (v : View) (a : CfgRegs) (d : Dict) (q k : Nat) (cands : List Nat), v.keyAt q = some k →
    (dictLookup d k).Pairwise (· > ·) →
    (∀ r ∈ dictLookup d k, r < q ∧ (q - r ≤ a.window.toNat → v.keyAt r = some k)) →
    candHash v a d q = some cands →
      cands = ((dictLookup d k).take (min a.probeCap.toNat a.chainDepth.toNat)).takeWhile
        (fun r => decide (q - r ≤ a.window.toNat)) ∧
      cands.length ≤ min a.probeCap.toNat a.chainDepth.toNat ∧
      ∀ r ∈ cands, r < q ∧ v.keyAt r = v.keyAt q ∧ 1 ≤ q - r ∧ q - r ≤ a.window.toNat

/-- R95: the candidates of exhaustive mode: every earlier position within the window, nearest first, each once. -/
def Obligations.ExhaustiveCandidatesAreTheWholeWindow : Prop :=
  ∀ (a : CfgRegs) (q : Nat),
    (∀ r, r ∈ candExh a q ↔ r < q ∧ q - a.window.toNat ≤ r) ∧ (candExh a q).Pairwise (· > ·) ∧
      (candExh a q).length = min q a.window.toNat

/-- R96: the match length is the number of equal bytes forward from both positions, up to the limit. -/
def Obligations.MatchLenCountsEqualBytes : Prop :=
  ∀ (v : View) (r q lim l : Nat), matchLen v r q lim = some l →
    l ≤ lim ∧ (∀ i < l, (v.byteAt (r + i)).isSome = true ∧ v.byteAt (r + i) = v.byteAt (q + i)) ∧
      (l < lim → v.byteAt (r + l) ≠ v.byteAt (q + l))

/-- R97: the longest match wins, among equals the first candidate in list order; no candidate of positive length, no
match. -/
def Obligations.BestIsTheFirstLongestCandidate : Prop :=
  ∀ (v : View) (cands : List Nat) (q lim len off : Nat), best v cands q lim = some (len, off) →
    (∀ r ∈ cands, ∀ m, matchLen v r q lim = some m → m ≤ len) ∧
      ((len = 0 ∧ off = 0) ∨
        ∃ earlier r later, cands = earlier ++ r :: later ∧ matchLen v r q lim = some len ∧ off = q - r ∧
          ∀ r' ∈ earlier, ∀ m, matchLen v r' q lim = some m → m < len)

/-- `FindMatch(q)` of R98, branch by branch: after `SyncDict(q)` it answers no match below MIN_MATCH bytes of limit, and else
the result of `Best` over the exhaustive candidates when EXHAUSTIVE is active and over the hash-chain candidates when it is
not, with a result below MIN_MATCH turned into no match. And "calling it twice at the same `q` in one chunk gives the same
answer": the second call finds nothing to insert. -/
def Obligations.FindMatchTwiceGivesTheSameAnswer : Prop :=
  (∀ (v : View) (a : CfgRegs) (f f' : Finder) (q : Nat), syncDict v a.chainDepth.toNat q f = some f' →
    (min a.maxMatch.toNat (v.ce - q) < 3 → findMatch v a f q = some (f', 0, 0)) ∧
    (3 ≤ min a.maxMatch.toNat (v.ce - q) → ∀ (cands : List Nat) (l o : Nat),
      ((a.exhaustive = true ∧ candExh a q = cands) ∨ (a.exhaustive = false ∧ candHash v a f'.dict q = some cands)) →
      best v cands q (min a.maxMatch.toNat (v.ce - q)) = some (l, o) →
        (l < 3 → findMatch v a f q = some (f', 0, 0)) ∧ (3 ≤ l → findMatch v a f q = some (f', l, o)))) ∧
  (∀ (v : View) (a : CfgRegs) (f f' : Finder) (q len off : Nat), findMatch v a f q = some (f', len, off) →
    findMatch v a f' q = some (f', len, off))

/-- R100 within the scan of R99. No match at `p` gives a literal, and there is none at the chunk's last position; a match is
taken without lazy evaluation; with it the scan defers exactly when the match at `p + 1` is longer than `a + 1`, never at a
match of the greatest length (255 among them). Each turn emits its token and goes on behind it by the same rule, by 1 for a
literal and by the length for a match, until `p` reaches `ce`; and what a chunk end emits is what the scan from `cs` emits. -/
def Obligations.LazyEvaluationDefersOnlyForALongerMatch : Prop :=
  (∀ (v : View) (a : CfgRegs) (f f1 : Finder) (p len off : Nat) (x : Byte),
    findMatch v a f p = some (f1, len, off) → v.byteAt p = some x →
    (len = 0 → chooseToken v a f p = some (f1, .literal x)) ∧
    (v.ce ≤ p + 1 → len = 0) ∧
    (3 ≤ len → a.lazyEn = false →
      chooseToken v a f p = some (f1, .matchRef (BitVec.ofNat 16 off) (BitVec.ofNat 8 len))) ∧
    (3 ≤ len → a.lazyEn = true → ∀ (f2 : Finder) (len2 off2 : Nat), findMatch v a f1 (p + 1) = some (f2, len2, off2) →
      chooseToken v a f p =
        some (f2, if len2 > len + 1 then .literal x else .matchRef (BitVec.ofNat 16 off) (BitVec.ofNat 8 len)) ∧
      (a.maxMatch.toNat ≤ len → ¬ len2 > len + 1))) ∧
  (∀ (v : View) (n : Nat) (b : Block) (ins p : Nat),
    (v.ce ≤ p → scanLoop v (n + 1) b ins p = some (b, ins)) ∧
    (p < v.ce → ∀ (g : Finder) (t : Token), chooseToken v b.act { dict := b.dict, ins := ins } p = some (g, t) →
      scanLoop v (n + 1) b ins p = scanLoop v n ({ b with dict := g.dict }.emitToken t) g.ins (p + t.span))) ∧
  (∀ (x : Byte) (off : BitVec 16) (len : Byte), (Token.literal x).span = 1 ∧ (Token.matchRef off len).span = len.toNat) ∧
  (∀ (b b' : Block), b.encodeChunk = some b' →
    ∃ r, scanLoop b.view b.chunk.length b b.absPos.toNat b.absPos.toNat = some r ∧ b'.outq = r.1.outq ∧
      b'.litCount = r.1.litCount ∧ b'.matchCount = r.1.matchCount)

/-! ### Chunk ends as a whole (R90, R93, R99, R101 to R104, R108) -/

/-- R104 with R99 and R101: the tokens of a chunk cover its positions exactly once in order, each match satisfies the bounds
and points at equal bytes, the queue takes their serialization and the counters their numbers; there are at most `n`
(R108). -/
def Obligations.ChunkTokensStandForTheChunk : Prop :=
  ∀ (P : Params) (b : Block), b.Inv P → b.chunk ≠ [] →
    ∃ (b' : Block) (ts : List Token), b.encodeChunk = some b' ∧
      TokensCover b.view b.act b.absPos.toNat ts ∧ (ts.map Token.span).sum = b.chunk.length ∧
      b'.outq = b.outq ++ serialize ts ∧
      b'.litCount.toNat = (b.litCount.toNat + countLiterals ts) % 2 ^ 32 ∧
      b'.matchCount.toNat = (b.matchCount.toNat + countMatches ts) % 2 ^ 32 ∧ ts.length ≤ b.chunk.length

/-- The chunk's insertable positions enter the dictionary once each, in increasing order, in both search modes and whatever
tokens the scan chose; positions whose key straddles the chunk's end never do (R93, R50). A search at `q` sees exactly those
below `q`, in front of what earlier chunks left, whatever searches came before it at lower positions; and what it sees meets
the premises of HashCandidatesAreTheRecentSameKeyPositions. -/
def Obligations.ChunkEndInsertsEveryInsertablePosition : Prop :=
  ∀ (P : Params) (b : Block), b.Inv P → b.chunk ≠ [] →
    (∀ b', b.encodeChunk = some b' → ∀ k, dictLookup b'.dict k =
      (insertablePositions b.view k ++ dictLookup b.dict k).take b.act.chainDepth.toNat) ∧
    (∀ q, b.absPos.toNat ≤ q → ∃ f,
      syncDict b.view b.act.chainDepth.toNat q { dict := b.dict, ins := b.absPos.toNat } = some f ∧
      (∀ k, dictLookup f.dict k =
        ((insertablePositions b.view k).filter (fun r => decide (r < q)) ++ dictLookup b.dict k).take
          b.act.chainDepth.toNat) ∧
      (∀ q', q ≤ q' → syncDict b.view b.act.chainDepth.toNat q' f =
        syncDict b.view b.act.chainDepth.toNat q' { dict := b.dict, ins := b.absPos.toNat }) ∧
      (∀ k, (dictLookup f.dict k).Pairwise (· > ·) ∧ ∀ r ∈ dictLookup f.dict k,
        r < q ∧ (q - r ≤ b.act.window.toNat → b.view.keyAt r = some k)))

/-- R90 and R102, from every state, whether it meets the invariant or not: a chunk end that answers empties the chunk,
advances the position by its length, and writes nothing but the fields R90 names. The window is read byte by byte: the
chunk's positions read the chunk, the others as before, those below `ce - aWINDOW` have no byte. The position is held modulo
2^64 (log 18); below the limit of R106, so from every state that meets the invariant, it is exact. -/
def Obligations.ChunkEndWritesOnlyItsFields : Prop :=
  ∀ b b' : Block, b.encodeChunk = some b' →
    b'.state = b.state ∧ b'.cfg = b.cfg ∧ b'.act = b.act ∧ b'.errIllegal = b.errIllegal ∧
      b'.errNotStreaming = b.errNotStreaming ∧ b'.errChunkOvf = b.errChunkOvf ∧ b'.firstErr = b.firstErr ∧
      b'.chunk = [] ∧ b'.absPos.toNat = (b.absPos.toNat + b.chunk.length) % 2 ^ 64 ∧ b.outq <+: b'.outq ∧
      ∀ q, Memory.read b'.win q =
        if q < b.absPos.toNat + b.chunk.length - b.act.window.toNat then none
        else if b.absPos.toNat ≤ q ∧ q < b.absPos.toNat + b.chunk.length then b.chunk[q - b.absPos.toNat]?
        else Memory.read b.win q

/-- R103 (2): a chunk of one or two bytes is all literals, in either search mode, and inserts nothing. -/
def Obligations.ShortChunksAreAllLiterals : Prop :=
  ∀ (P : Params) (b : Block), b.Inv P → (b.chunk.length = 1 ∨ b.chunk.length = 2) →
    ∃ b', b.encodeChunk = some b' ∧ b'.outq = b.outq ++ serialize (b.chunk.map .literal) ∧
      b'.litCount = b.litCount + BitVec.ofNat 32 b.chunk.length ∧ b'.matchCount = b.matchCount ∧ b'.dict = b.dict

/-- R52: purging the entries that have left the window changes neither the tokens nor anything else but the dictionary. -/
def Obligations.PurgingStaleEntriesChangesNoToken : Prop :=
  ∀ (P : Params) (b : Block), b.Inv P → b.chunk ≠ [] →
    ∃ b1 b2, b.encodeChunk = some b1 ∧ b.purgeStale.encodeChunk = some b2 ∧ b2 = { b1 with dict := b2.dict }

/-! ### Frames -/

/-- The commands that do not end a chunk: START, CFG_WRITE, NOP and DATA without LAST. Whenever one gives a next state:
the output queue, the parameters and the host's side are as they were; but for START every byte of the window, the
dictionary, the position, the counters and the active configuration are too; only CFG_WRITE changes the configuration
registers, only DATA and START the chunk, only START and an error the error fields. -/
def Obligations.FrameOfCommandsThatEndNoChunk : Prop :=
  ∀ (s t : State) (i : Instr),
    (i = .nop ∨ i = .start ∨ (∃ r v, i = .cfgWrite r v) ∨ (∃ x, i = .data x false)) → exec i s = .next t →
      t.blk.outq = s.blk.outq ∧ t.params = s.params ∧ t.pending = s.pending ∧ t.microOp = s.microOp ∧
      t.delivered = s.delivered ∧ t.reads = s.reads ∧
      ((∀ r v, i ≠ .cfgWrite r v) → t.blk.cfg = s.blk.cfg) ∧
      (i ≠ .start → t.blk.act = s.blk.act ∧ t.blk.absPos = s.blk.absPos ∧ t.blk.state = s.blk.state ∧
        (∀ q, Memory.read t.blk.win q = Memory.read s.blk.win q) ∧
        (∀ k, dictLookup t.blk.dict k = dictLookup s.blk.dict k) ∧
        t.blk.litCount = s.blk.litCount ∧ t.blk.matchCount = s.blk.matchCount ∧
        ((∀ x, i ≠ .data x false) → t.blk.chunk = s.blk.chunk) ∧
        (t.blk.errIllegal = s.blk.errIllegal ∨ ∃ r v, i = .cfgWrite r v ∧ 5 ≤ r.toNat) ∧
        (t.blk.errNotStreaming = s.blk.errNotStreaming ∨ ∃ x, i = .data x false ∧ s.blk.state ≠ .streaming) ∧
        (t.blk.errChunkOvf = s.blk.errChunkOvf ∨ ∃ x, i = .data x false ∧ s.blk.chunk.length = s.params.chunkMax) ∧
        (t.blk.firstErr = s.blk.firstErr ∨ (s.blk.firstErr = none ∧ t.blk.errOut = true)))

/-- The commands that can end a chunk: DATA with LAST, END_CHUNK, FINISH. Whenever one gives a next state the configuration,
active and not, the parameters and the host's side are as they were; the queue only grows at its tail; FINISH alone
changes the stream state; outside STREAMING only the error fields change; and every position of the window outside the
chunk that ended (its `n` bytes from `abs_pos` on, DATA's own byte among them) reads as before unless it has left the
window. -/
def Obligations.FrameOfCommandsThatEndAChunk : Prop :=
  ∀ (s t : State) (i : Instr), ((∃ x, i = .data x true) ∨ i = .endChunk ∨ i = .finish) → exec i s = .next t →
    t.blk.cfg = s.blk.cfg ∧ t.blk.act = s.blk.act ∧ t.params = s.params ∧ t.pending = s.pending ∧
      t.microOp = s.microOp ∧ t.delivered = s.delivered ∧ t.reads = s.reads ∧ s.blk.outq <+: t.blk.outq ∧
      t.blk.errIllegal = s.blk.errIllegal ∧ (i ≠ .finish → t.blk.state = s.blk.state) ∧
      (s.blk.state = .streaming → t.blk.errNotStreaming = s.blk.errNotStreaming) ∧
      ((∀ x, i ≠ .data x true) → t.blk.errChunkOvf = s.blk.errChunkOvf) ∧
      (s.blk.state ≠ .streaming → t.blk.state = s.blk.state ∧ t.blk.win = s.blk.win ∧ t.blk.dict = s.blk.dict ∧ t.blk.absPos = s.blk.absPos ∧
        t.blk.chunk = s.blk.chunk ∧ t.blk.outq = s.blk.outq ∧ t.blk.litCount = s.blk.litCount ∧
        t.blk.matchCount = s.blk.matchCount) ∧
      (s.blk.state = .streaming → (∀ x, i ≠ .data x true) → t.blk.firstErr = s.blk.firstErr) ∧
      (∀ n, n = s.blk.chunk.length + (if i = .endChunk ∨ i = .finish then 0 else 1) →
        ∀ q, (q < s.blk.absPos.toNat ∨ s.blk.absPos.toNat + n ≤ q) →
          Memory.read t.blk.win q = Memory.read s.blk.win q ∨
            (Memory.read t.blk.win q = none ∧ q < s.blk.absPos.toNat + n - s.blk.act.window.toNat))

/-! ### Whole-machine rules -/

/-- The invariant holds after reset, at every legal choice of the parameters. -/
def Obligations.InvariantHoldsAtReset : Prop :=
  ∀ P : Params, P.Legal → (State.resetWith P).Inv

/-- Every step keeps the invariant (R23 to R37): legal configuration, chunk within its capacity and closed outside
STREAMING, the stream below 2^64 bytes, the window exact, the dictionary in form, each key true of its bytes, the error
fields in agreement. -/
def Obligations.EveryStepKeepsTheInvariant : Prop :=
  ∀ s t : State, s.Inv → step s = .next t → t.Inv

/-- From a state that meets the invariant no step faults, and a step refuses only a DATA that would reach 2^64 stream bytes
(R46, R106, R120). -/
def Obligations.NoStepFaultsFromTheInvariant : Prop :=
  ∀ s : State, s.Inv → (∀ f, step s ≠ .fault f) ∧
    (∀ r, step s = .refused r → r = .streamOf2Pow64Bytes ∧ s.microOp = none ∧
      (∃ w rest x l, s.pending = .command w :: rest ∧ decodeCommand w = .ok (.data x l)) ∧
      s.blk.absPos.toNat + s.blk.chunk.length + 1 = 2 ^ 64)

/-- Every step from any state keeps the canonical form of the window and of the dictionary (log 12), reachable or not. -/
def Obligations.EveryStepKeepsTheCanonicalForms : Prop :=
  ∀ s t : State, step s = .next t →
    (Memory.wf s.blk.win = true → Memory.wf t.blk.win = true) ∧
      (Dict.wf s.blk.dict = true → Dict.wf t.blk.dict = true)

/-- R53: the bytes produced (delivered, then queued) only ever grow, by whole tokens, and only at a chunk end (or where a
token was placed on its own, log 4); an output transfer moves a byte and neither drops nor duplicates one; only a reset
discards queued bytes, and it discards no delivered one. -/
def Obligations.ProducedBytesOnlyGrow : Prop :=
  ∀ s t : State, step s = .next t →
    ((s.microOp = none ∧ s.pending.head? = some .reset) → t.delivered = s.delivered ∧ t.blk.outq = []) ∧
    (¬ (s.microOp = none ∧ s.pending.head? = some .reset) →
      ∃ ts, t.produced = s.produced ++ serialize ts ∧
        (ts ≠ [] → s.microOp ≠ none ∨
          ∃ w, s.pending.head? = some (.command w) ∧
            ((∃ x, decodeCommand w = .ok (.data x true)) ∨ decodeCommand w = .ok .endChunk ∨
              decodeCommand w = .ok .finish)))

/-- R107, R88: when the host removes an output byte makes no difference to what a command does: removing it before the
command and after it give the same state. -/
def Obligations.OutputTransfersCommuteWithCommands : Prop :=
  ∀ (s : State) (i : Instr) (x : Byte) (q : List Byte), s.blk.outq = x :: q →
    match exec i s with
    | .next t => ∃ q', t.blk.outq = x :: q' ∧
        exec i { s with blk := { s.blk with outq := q } } = .next { t with blk := { t.blk with outq := q' } }
    | .fault f => exec i { s with blk := { s.blk with outq := q } } = .fault f
    | .refused r => exec i { s with blk := { s.blk with outq := q } } = .refused r

/-- R105: a change of the configuration registers has no effect on what any command but START (and another CFG_WRITE) does,
and no command but START changes the active configuration. -/
def Obligations.OpenStreamsIgnoreConfigurationWrites : Prop :=
  (∀ (s : State) (i : Instr) (c : CfgRegs), i ≠ .start → (∀ r v, i ≠ .cfgWrite r v) →
    match exec i s with
    | .next t => exec i { s with blk := { s.blk with cfg := c } } = .next { t with blk := { t.blk with cfg := c } }
    | .fault f => exec i { s with blk := { s.blk with cfg := c } } = .fault f
    | .refused r => exec i { s with blk := { s.blk with cfg := c } } = .refused r) ∧
  (∀ (s t : State) (i : Instr), i ≠ .start → exec i s = .next t → t.blk.act = s.blk.act)

/-! ### The round trip (R114, R115) -/

/-- R114: for every stream (a START, then commands with any chunk ends, then FINISH) that raises no error, the bytes it
emits decode to the concatenation of its DATA bytes, and `Deserialize` consumes them completely; from any state that meets
the invariant, so under any legal configuration, in either search mode. -/
def Obligations.EveryStreamRoundTrips : Prop :=
  ∀ (s t : State) (cmds : List Instr), s.Inv → (∀ i ∈ cmds, i.inStream = true) →
    execAll (.start :: cmds ++ [.finish]) s = .next t → t.blk.errOut = false →
      ∃ O, t.blk.outq = s.blk.outq ++ O ∧ refDecode O = .ok (sentBytes cmds) ∧ serialize (deserialize O) = O ∧
        t.blk.state = .done

/-- R115: the prefix form. At any point of a stream without errors the bytes emitted so far decode to the stream bytes of
the completed chunks, and the open chunk holds the rest. -/
def Obligations.EmittedBytesDecodeToTheCompletedChunks : Prop :=
  ∀ (s t : State) (cmds : List Instr), s.Inv → (∀ i ∈ cmds, i.inStream = true) →
    execAll (.start :: cmds) s = .next t → t.blk.errOut = false →
      ∃ O B, t.blk.outq = s.blk.outq ++ O ∧ refDecode O = .ok B ∧ sentBytes cmds = B ++ t.blk.chunk ∧
        B.length = t.blk.absPos.toNat

/-- The whole-buffer use of R143 with the round trip of R114: every byte sequence that fits one chunk (the empty one
included) is encoded without error by START, its DATA and FINISH, and its output decodes to it. -/
def Obligations.WholeBufferEncodingCompletesAndRoundTrips : Prop :=
  ∀ (s : State) (B : List Byte), s.Inv → B.length ≤ s.params.chunkMax →
    ∃ t O, execAll (.start :: B.map (fun x => .data x false) ++ [.finish]) s = .next t ∧ t.blk.errOut = false ∧
      t.blk.state = .done ∧ t.blk.chunk = [] ∧ t.blk.absPos.toNat = B.length ∧ t.blk.outq = s.blk.outq ++ O ∧
      refDecode O = .ok B
end

