-- ==== Sys2Proof/Laws/Sparse.lean ====
section
/-! SUPPORT. The laws of the sparse maps and of the window and dictionary operations over them: a read after a write, and
that every operation keeps the canonical form. -/

namespace Sys2Proof.Machine

section Sparse

variable {α : Type}

@[simp] theorem sparseGet_nil (a : Nat) : sparseGet ([] : List (Nat × α)) a = none := rfl

theorem sparseGet_cons (e : Nat × α) (m : List (Nat × α)) (a : Nat) :
    sparseGet (e :: m) a = if a = e.1 then some e.2 else sparseGet m a := rfl

@[simp] theorem sparseGet_set_self (m : List (Nat × α)) (a : Nat) (v : α) : sparseGet (sparseSet m a v) a = some v := by
  induction m with
  | nil => simp [sparseSet, sparseGet]
  | cons e m ih =>
    obtain ⟨k, w⟩ := e
    by_cases h1 : a < k
    · simp [sparseSet, h1, sparseGet]
    · by_cases h2 : a = k
      · simp [sparseSet, h2, sparseGet]
      · simp [sparseSet, h1, h2, sparseGet, ih]

theorem sparseGet_set_other (m : List (Nat × α)) {a a' : Nat} (v : α) (h : a' ≠ a) :
    sparseGet (sparseSet m a v) a' = sparseGet m a' := by
  induction m with
  | nil => simp [sparseSet, sparseGet, h]
  | cons e m ih =>
    obtain ⟨k, w⟩ := e
    by_cases h1 : a < k
    · simp [sparseSet, h1, sparseGet, h]
    · by_cases h2 : a = k
      · subst h2
        simp [sparseSet, sparseGet, h]
      · simp [sparseSet, h1, h2, sparseGet, ih]

theorem sparseGet_filter_key (m : List (Nat × α)) (p : Nat → Bool) (a : Nat) :
    sparseGet (m.filter fun e => p e.1) a = if p a then sparseGet m a else none := by
  induction m with
  | nil => simp
  | cons e m ih =>
    obtain ⟨k, w⟩ := e
    by_cases hk : p k = true
    · rw [List.filter_cons_of_pos (by simpa using hk)]
      by_cases ha : a = k
      · subst ha; simp [sparseGet, hk]
      · simp [sparseGet, ha, ih]
    · rw [List.filter_cons_of_neg (by simpa using hk), ih]
      by_cases ha : a = k
      · subst ha; simp [hk]
      · simp [sparseGet, ha]

theorem sparseGet_isSome_iff (m : List (Nat × α)) (a : Nat) : (sparseGet m a).isSome ↔ a ∈ m.map Prod.fst := by
  induction m with
  | nil => simp
  | cons e m ih =>
    obtain ⟨k, w⟩ := e
    by_cases h : a = k
    · simp [sparseGet, h]
    · simpa [sparseGet, h] using ih

theorem sparseGet_mem {m : List (Nat × α)} {a : Nat} {v : α} (h : sparseGet m a = some v) : (a, v) ∈ m := by
  induction m with
  | nil => simp at h
  | cons e m ih =>
    obtain ⟨k, w⟩ := e
    by_cases hk : a = k
    · subst hk
      simp [sparseGet] at h
      simp [h]
    · simp only [sparseGet, hk, if_false] at h
      exact List.mem_cons_of_mem _ (ih h)

theorem mem_sparseSet {m : List (Nat × α)} {a : Nat} {v : α} {e : Nat × α} (h : e ∈ sparseSet m a v) :
    e = (a, v) ∨ e ∈ m := by
  induction m with
  | nil => simpa [sparseSet] using h
  | cons e' m ih =>
    obtain ⟨k, w⟩ := e'
    by_cases h1 : a < k
    · simpa [sparseSet, h1] using h
    · by_cases h2 : a = k
      · subst h2
        simp only [sparseSet, Nat.lt_irrefl, if_false, if_true, List.mem_cons] at h
        rcases h with h | h
        · exact .inl h
        · exact .inr (List.mem_cons_of_mem _ h)
      · simp only [sparseSet, h1, h2, if_false, List.mem_cons] at h
        rcases h with h | h
        · exact .inr (by simp [h])
        · rcases ih h with h | h
          · exact .inl h
          · exact .inr (List.mem_cons_of_mem _ h)

theorem keysRising_sparseSet {m : List (Nat × α)} (hm : KeysRising m) (a : Nat) (v : α) :
    KeysRising (sparseSet m a v) := by
  induction m with
  | nil => simp [sparseSet, KeysRising]
  | cons e m ih =>
    obtain ⟨k, w⟩ := e
    simp only [KeysRising, List.map_cons, List.pairwise_cons] at hm
    obtain ⟨hk, hrest⟩ := hm
    by_cases h1 : a < k
    · simp only [sparseSet, h1, if_true, KeysRising, List.map_cons, List.pairwise_cons]
      refine ⟨?_, hk, hrest⟩
      intro x hx
      rcases List.mem_cons.mp hx with rfl | hx
      · exact h1
      · exact Nat.lt_trans h1 (hk x hx)
    · by_cases h2 : a = k
      · subst h2
        simp only [sparseSet, Nat.lt_irrefl, if_false, if_true, KeysRising, List.map_cons, List.pairwise_cons]
        exact ⟨hk, hrest⟩
      · simp only [sparseSet, h1, h2, if_false, KeysRising, List.map_cons, List.pairwise_cons]
        refine ⟨?_, ih hrest⟩
        intro x hx
        obtain ⟨e, he, rfl⟩ := List.mem_map.mp hx
        rcases mem_sparseSet he with rfl | he
        · simp only; omega
        · exact hk _ (List.mem_map_of_mem he)

theorem keysRising_filter {m : List (Nat × α)} (hm : KeysRising m) (p : Nat × α → Bool) : KeysRising (m.filter p) :=
  List.Pairwise.sublist (List.Sublist.map _ List.filter_sublist) hm

/-- Writing above every listed key puts the entry last. -/
theorem sparseSet_append {m : List (Nat × α)} {a : Nat} (v : α) (h : ∀ e ∈ m, e.1 < a) :
    sparseSet m a v = m ++ [(a, v)] := by
  induction m with
  | nil => rfl
  | cons e m ih =>
    obtain ⟨k, w⟩ := e
    have hk : k < a := h (k, w) (by simp)
    have h1 : ¬ a < k := by omega
    have h2 : a ≠ k := by omega
    simp [sparseSet, h1, h2, ih (fun e he => h e (List.mem_cons_of_mem _ he))]

end Sparse

/-! ### The window -/

theorem memory_wf_iff (m : Memory) : Memory.wf m = true ↔ KeysRising m := by simp [Memory.wf]

theorem winWrite_wf {m : Memory} (h : Memory.wf m = true) (q : Nat) (b : Byte) : Memory.wf (winWrite m q b) = true := by
  rw [memory_wf_iff] at *
  exact keysRising_sparseSet h q b

theorem winWriteAll_wf {m : Memory} (h : Memory.wf m = true) (q : Nat) (bs : List Byte) :
    Memory.wf (winWriteAll m q bs) = true := by
  induction bs generalizing m q with
  | nil => exact h
  | cons b bs ih => exact ih (winWrite_wf h q b) (q + 1)

theorem winDropBelow_wf {m : Memory} (h : Memory.wf m = true) (lo : Nat) : Memory.wf (winDropBelow m lo) = true := by
  rw [memory_wf_iff] at *
  exact keysRising_filter h _

/-- A read after a write (R47). -/
@[simp] theorem read_winWrite_self (m : Memory) (q : Nat) (b : Byte) : Memory.read (winWrite m q b) q = some b :=
  sparseGet_set_self m q b

/-- A write leaves every other position alone (R47). -/
theorem read_winWrite_other (m : Memory) {q q' : Nat} (b : Byte) (h : q' ≠ q) :
    Memory.read (winWrite m q b) q' = Memory.read m q' :=
  sparseGet_set_other m b h

theorem read_winDropBelow (m : Memory) (lo q : Nat) :
    Memory.read (winDropBelow m lo) q = if lo ≤ q then Memory.read m q else none := by
  have h := sparseGet_filter_key m (fun k => decide (lo ≤ k)) q
  simpa [Memory.read, winDropBelow] using h

/-- Consecutive writes: the written positions read the bytes, every other position as before (R51). -/
theorem read_winWriteAll (m : Memory) (q : Nat) (bs : List Byte) (a : Nat) :
    Memory.read (winWriteAll m q bs) a = if q ≤ a ∧ a < q + bs.length then bs[a - q]? else Memory.read m a := by
  induction bs generalizing m q with
  | nil =>
    have h : ¬ (q ≤ a ∧ a < q + ([] : List Byte).length) := by simp
    rw [winWriteAll, if_neg h]
  | cons b bs ih =>
    rw [winWriteAll, ih]
    by_cases h : a = q
    · subst h
      simp
    · rw [read_winWrite_other m b h]
      by_cases h1 : q + 1 ≤ a ∧ a < q + 1 + bs.length
      · have h2 : q ≤ a ∧ a < q + (b :: bs).length := by simp; omega
        have h3 : a - q = (a - (q + 1)) + 1 := by omega
        rw [if_pos h1, if_pos h2, h3, List.getElem?_cons_succ]
      · have h2 : ¬ (q ≤ a ∧ a < q + (b :: bs).length) := by simp; omega
        rw [if_neg h1, if_neg h2]

/-- Writing consecutive bytes above every listed position appends their positions. -/
theorem keys_winWriteAll {m : Memory} {q : Nat} (bs : List Byte) (h : ∀ e ∈ m, e.1 < q) :
    (winWriteAll m q bs).map Prod.fst = m.map Prod.fst ++ List.range' q bs.length := by
  induction bs generalizing m q with
  | nil => simp [winWriteAll]
  | cons b bs ih =>
    have hset : winWrite m q b = m ++ [(q, b)] := sparseSet_append b h
    have hnext : ∀ e ∈ winWrite m q b, e.1 < q + 1 := by
      intro e he
      rw [hset] at he
      rcases List.mem_append.mp he with he | he
      · have := h e he; omega
      · simp at he; subst he; simp
    rw [winWriteAll, ih hnext, hset]
    simp [List.range'_succ]

/-! ### The dictionary -/

theorem dict_wf_iff (d : Dict) : Dict.wf d = true ↔ KeysRising d ∧ ∀ e ∈ d, e.2 ≠ [] := by
  simp [Dict.wf]

@[simp] theorem dictLookup_put_self (d : Dict) (k : Nat) (l : List Nat) : dictLookup (dictPut d k l) k = l := by
  cases l with
  | nil =>
    have h := sparseGet_filter_key d (fun x => decide (x ≠ k)) k
    simp [dictLookup, dictPut, sparseErase]
    simp at h
    simp [h]
  | cons r rs => simp [dictLookup, dictPut]

theorem dictLookup_put_other (d : Dict) {k k' : Nat} (l : List Nat) (h : k' ≠ k) :
    dictLookup (dictPut d k l) k' = dictLookup d k' := by
  cases l with
  | nil =>
    have h' := sparseGet_filter_key d (fun x => decide (x ≠ k)) k'
    simp [h] at h'
    simp [dictLookup, dictPut, sparseErase, h']
  | cons r rs => simp [dictLookup, dictPut, sparseGet_set_other d _ h]

theorem mem_dictPut {d : Dict} {k : Nat} {l : List Nat} {e : Nat × List Nat} (h : e ∈ dictPut d k l) :
    (e = (k, l) ∧ l ≠ []) ∨ e ∈ d := by
  cases l with
  | nil => exact .inr (List.mem_filter.mp h).1
  | cons r rs =>
    rcases mem_sparseSet h with h | h
    · exact .inl ⟨h, by simp⟩
    · exact .inr h

theorem keysRising_dictPut {d : Dict} (h : KeysRising d) (k : Nat) (l : List Nat) : KeysRising (dictPut d k l) := by
  cases l with
  | nil => exact keysRising_filter h _
  | cons r rs => exact keysRising_sparseSet h k _

theorem dictPut_wf {d : Dict} (h : Dict.wf d = true) (k : Nat) (l : List Nat) : Dict.wf (dictPut d k l) = true := by
  rw [dict_wf_iff] at *
  refine ⟨keysRising_dictPut h.1 k l, fun e he => ?_⟩
  rcases mem_dictPut he with ⟨rfl, hl⟩ | he
  · exact hl
  · exact h.2 e he

theorem mem_of_dictLookup {d : Dict} {k r : Nat} (h : r ∈ dictLookup d k) : (k, dictLookup d k) ∈ d := by
  unfold dictLookup at h ⊢
  cases hg : sparseGet d k with
  | none => simp [hg] at h
  | some l => simpa using sparseGet_mem hg

end Sys2Proof.Machine
end

