-- ==== Sys2Proof/Laws/State.lean ====
section
/-! SUPPORT. One lemma per field per update of the block and of the machine, so that later proofs never unfold a record
update; and the inversion of the outcomes `State.raiseErr` and `State.nextBlk`. -/

namespace Sys2Proof.Machine

/-! ### The block's updates -/

@[simp] theorem Block.emit_state (b : Block) (bs : List Byte) : (b.emit bs).state = b.state := rfl
@[simp] theorem Block.emit_cfg (b : Block) (bs : List Byte) : (b.emit bs).cfg = b.cfg := rfl
@[simp] theorem Block.emit_act (b : Block) (bs : List Byte) : (b.emit bs).act = b.act := rfl
@[simp] theorem Block.emit_absPos (b : Block) (bs : List Byte) : (b.emit bs).absPos = b.absPos := rfl
@[simp] theorem Block.emit_win (b : Block) (bs : List Byte) : (b.emit bs).win = b.win := rfl
@[simp] theorem Block.emit_dict (b : Block) (bs : List Byte) : (b.emit bs).dict = b.dict := rfl
@[simp] theorem Block.emit_chunk (b : Block) (bs : List Byte) : (b.emit bs).chunk = b.chunk := rfl
@[simp] theorem Block.emit_outq (b : Block) (bs : List Byte) : (b.emit bs).outq = b.outq ++ bs := rfl
@[simp] theorem Block.emit_errIllegal (b : Block) (bs : List Byte) : (b.emit bs).errIllegal = b.errIllegal := rfl
@[simp] theorem Block.emit_errNotStreaming (b : Block) (bs : List Byte) : (b.emit bs).errNotStreaming = b.errNotStreaming := rfl
@[simp] theorem Block.emit_errChunkOvf (b : Block) (bs : List Byte) : (b.emit bs).errChunkOvf = b.errChunkOvf := rfl
@[simp] theorem Block.emit_firstErr (b : Block) (bs : List Byte) : (b.emit bs).firstErr = b.firstErr := rfl
@[simp] theorem Block.emit_litCount (b : Block) (bs : List Byte) : (b.emit bs).litCount = b.litCount := rfl
@[simp] theorem Block.emit_matchCount (b : Block) (bs : List Byte) : (b.emit bs).matchCount = b.matchCount := rfl

@[simp] theorem Block.emitLit_state (b : Block) (x : Byte) : (b.emitLit x).state = b.state := rfl
@[simp] theorem Block.emitLit_cfg (b : Block) (x : Byte) : (b.emitLit x).cfg = b.cfg := rfl
@[simp] theorem Block.emitLit_act (b : Block) (x : Byte) : (b.emitLit x).act = b.act := rfl
@[simp] theorem Block.emitLit_absPos (b : Block) (x : Byte) : (b.emitLit x).absPos = b.absPos := rfl
@[simp] theorem Block.emitLit_win (b : Block) (x : Byte) : (b.emitLit x).win = b.win := rfl
@[simp] theorem Block.emitLit_dict (b : Block) (x : Byte) : (b.emitLit x).dict = b.dict := rfl
@[simp] theorem Block.emitLit_chunk (b : Block) (x : Byte) : (b.emitLit x).chunk = b.chunk := rfl
@[simp] theorem Block.emitLit_outq (b : Block) (x : Byte) : (b.emitLit x).outq = b.outq ++ litBytes x := rfl
@[simp] theorem Block.emitLit_errIllegal (b : Block) (x : Byte) : (b.emitLit x).errIllegal = b.errIllegal := rfl
@[simp] theorem Block.emitLit_errNotStreaming (b : Block) (x : Byte) : (b.emitLit x).errNotStreaming = b.errNotStreaming := rfl
@[simp] theorem Block.emitLit_errChunkOvf (b : Block) (x : Byte) : (b.emitLit x).errChunkOvf = b.errChunkOvf := rfl
@[simp] theorem Block.emitLit_firstErr (b : Block) (x : Byte) : (b.emitLit x).firstErr = b.firstErr := rfl
@[simp] theorem Block.emitLit_litCount (b : Block) (x : Byte) : (b.emitLit x).litCount = b.litCount + 1#32 := rfl
@[simp] theorem Block.emitLit_matchCount (b : Block) (x : Byte) : (b.emitLit x).matchCount = b.matchCount := rfl

@[simp] theorem Block.emitMatch_state (b : Block) (off : BitVec 16) (len : Byte) : (b.emitMatch off len).state = b.state := rfl
@[simp] theorem Block.emitMatch_cfg (b : Block) (off : BitVec 16) (len : Byte) : (b.emitMatch off len).cfg = b.cfg := rfl
@[simp] theorem Block.emitMatch_act (b : Block) (off : BitVec 16) (len : Byte) : (b.emitMatch off len).act = b.act := rfl
@[simp] theorem Block.emitMatch_absPos (b : Block) (off : BitVec 16) (len : Byte) : (b.emitMatch off len).absPos = b.absPos := rfl
@[simp] theorem Block.emitMatch_win (b : Block) (off : BitVec 16) (len : Byte) : (b.emitMatch off len).win = b.win := rfl
@[simp] theorem Block.emitMatch_dict (b : Block) (off : BitVec 16) (len : Byte) : (b.emitMatch off len).dict = b.dict := rfl
@[simp] theorem Block.emitMatch_chunk (b : Block) (off : BitVec 16) (len : Byte) : (b.emitMatch off len).chunk = b.chunk := rfl
@[simp] theorem Block.emitMatch_outq (b : Block) (off : BitVec 16) (len : Byte) : (b.emitMatch off len).outq = b.outq ++ matchBytes off len := rfl
@[simp] theorem Block.emitMatch_errIllegal (b : Block) (off : BitVec 16) (len : Byte) : (b.emitMatch off len).errIllegal = b.errIllegal := rfl
@[simp] theorem Block.emitMatch_errNotStreaming (b : Block) (off : BitVec 16) (len : Byte) : (b.emitMatch off len).errNotStreaming = b.errNotStreaming := rfl
@[simp] theorem Block.emitMatch_errChunkOvf (b : Block) (off : BitVec 16) (len : Byte) : (b.emitMatch off len).errChunkOvf = b.errChunkOvf := rfl
@[simp] theorem Block.emitMatch_firstErr (b : Block) (off : BitVec 16) (len : Byte) : (b.emitMatch off len).firstErr = b.firstErr := rfl
@[simp] theorem Block.emitMatch_litCount (b : Block) (off : BitVec 16) (len : Byte) : (b.emitMatch off len).litCount = b.litCount := rfl
@[simp] theorem Block.emitMatch_matchCount (b : Block) (off : BitVec 16) (len : Byte) : (b.emitMatch off len).matchCount = b.matchCount + 1#32 := rfl

@[simp] theorem Block.emitToken_state (b : Block) (t : Token) : (b.emitToken t).state = b.state := by cases t <;> rfl
@[simp] theorem Block.emitToken_cfg (b : Block) (t : Token) : (b.emitToken t).cfg = b.cfg := by cases t <;> rfl
@[simp] theorem Block.emitToken_act (b : Block) (t : Token) : (b.emitToken t).act = b.act := by cases t <;> rfl
@[simp] theorem Block.emitToken_absPos (b : Block) (t : Token) : (b.emitToken t).absPos = b.absPos := by cases t <;> rfl
@[simp] theorem Block.emitToken_win (b : Block) (t : Token) : (b.emitToken t).win = b.win := by cases t <;> rfl
@[simp] theorem Block.emitToken_dict (b : Block) (t : Token) : (b.emitToken t).dict = b.dict := by cases t <;> rfl
@[simp] theorem Block.emitToken_chunk (b : Block) (t : Token) : (b.emitToken t).chunk = b.chunk := by cases t <;> rfl
@[simp] theorem Block.emitToken_outq (b : Block) (t : Token) : (b.emitToken t).outq = b.outq ++ t.bytes := by cases t <;> rfl
@[simp] theorem Block.emitToken_errIllegal (b : Block) (t : Token) : (b.emitToken t).errIllegal = b.errIllegal := by cases t <;> rfl
@[simp] theorem Block.emitToken_errNotStreaming (b : Block) (t : Token) : (b.emitToken t).errNotStreaming = b.errNotStreaming := by cases t <;> rfl
@[simp] theorem Block.emitToken_errChunkOvf (b : Block) (t : Token) : (b.emitToken t).errChunkOvf = b.errChunkOvf := by cases t <;> rfl
@[simp] theorem Block.emitToken_firstErr (b : Block) (t : Token) : (b.emitToken t).firstErr = b.firstErr := by cases t <;> rfl

@[simp] theorem Block.clearErrs_state (b : Block) : (b.clearErrs).state = b.state := rfl
@[simp] theorem Block.clearErrs_cfg (b : Block) : (b.clearErrs).cfg = b.cfg := rfl
@[simp] theorem Block.clearErrs_act (b : Block) : (b.clearErrs).act = b.act := rfl
@[simp] theorem Block.clearErrs_absPos (b : Block) : (b.clearErrs).absPos = b.absPos := rfl
@[simp] theorem Block.clearErrs_win (b : Block) : (b.clearErrs).win = b.win := rfl
@[simp] theorem Block.clearErrs_dict (b : Block) : (b.clearErrs).dict = b.dict := rfl
@[simp] theorem Block.clearErrs_chunk (b : Block) : (b.clearErrs).chunk = b.chunk := rfl
@[simp] theorem Block.clearErrs_outq (b : Block) : (b.clearErrs).outq = b.outq := rfl
@[simp] theorem Block.clearErrs_errIllegal (b : Block) : (b.clearErrs).errIllegal = false := rfl
@[simp] theorem Block.clearErrs_errNotStreaming (b : Block) : (b.clearErrs).errNotStreaming = false := rfl
@[simp] theorem Block.clearErrs_errChunkOvf (b : Block) : (b.clearErrs).errChunkOvf = false := rfl
@[simp] theorem Block.clearErrs_firstErr (b : Block) : (b.clearErrs).firstErr = none := rfl
@[simp] theorem Block.clearErrs_litCount (b : Block) : (b.clearErrs).litCount = b.litCount := rfl
@[simp] theorem Block.clearErrs_matchCount (b : Block) : (b.clearErrs).matchCount = b.matchCount := rfl

@[simp] theorem Block.startStream_state (b : Block) : (b.startStream).state = .streaming := rfl
@[simp] theorem Block.startStream_cfg (b : Block) : (b.startStream).cfg = b.cfg := rfl
@[simp] theorem Block.startStream_act (b : Block) : (b.startStream).act = b.cfg := rfl
@[simp] theorem Block.startStream_absPos (b : Block) : (b.startStream).absPos = 0#64 := rfl
@[simp] theorem Block.startStream_win (b : Block) : (b.startStream).win = [] := rfl
@[simp] theorem Block.startStream_dict (b : Block) : (b.startStream).dict = [] := rfl
@[simp] theorem Block.startStream_chunk (b : Block) : (b.startStream).chunk = [] := rfl
@[simp] theorem Block.startStream_outq (b : Block) : (b.startStream).outq = b.outq := rfl
@[simp] theorem Block.startStream_errIllegal (b : Block) : (b.startStream).errIllegal = false := rfl
@[simp] theorem Block.startStream_errNotStreaming (b : Block) : (b.startStream).errNotStreaming = false := rfl
@[simp] theorem Block.startStream_errChunkOvf (b : Block) : (b.startStream).errChunkOvf = false := rfl
@[simp] theorem Block.startStream_firstErr (b : Block) : (b.startStream).firstErr = none := rfl
@[simp] theorem Block.startStream_litCount (b : Block) : (b.startStream).litCount = 0#32 := rfl
@[simp] theorem Block.startStream_matchCount (b : Block) : (b.startStream).matchCount = 0#32 := rfl

@[simp] theorem Block.finishStream_state (b : Block) : (b.finishStream).state = .done := rfl
@[simp] theorem Block.finishStream_cfg (b : Block) : (b.finishStream).cfg = b.cfg := rfl
@[simp] theorem Block.finishStream_act (b : Block) : (b.finishStream).act = b.act := rfl
@[simp] theorem Block.finishStream_absPos (b : Block) : (b.finishStream).absPos = b.absPos := rfl
@[simp] theorem Block.finishStream_win (b : Block) : (b.finishStream).win = b.win := rfl
@[simp] theorem Block.finishStream_dict (b : Block) : (b.finishStream).dict = b.dict := rfl
@[simp] theorem Block.finishStream_chunk (b : Block) : (b.finishStream).chunk = b.chunk := rfl
@[simp] theorem Block.finishStream_outq (b : Block) : (b.finishStream).outq = b.outq := rfl
@[simp] theorem Block.finishStream_errIllegal (b : Block) : (b.finishStream).errIllegal = b.errIllegal := rfl
@[simp] theorem Block.finishStream_errNotStreaming (b : Block) : (b.finishStream).errNotStreaming = b.errNotStreaming := rfl
@[simp] theorem Block.finishStream_errChunkOvf (b : Block) : (b.finishStream).errChunkOvf = b.errChunkOvf := rfl
@[simp] theorem Block.finishStream_firstErr (b : Block) : (b.finishStream).firstErr = b.firstErr := rfl
@[simp] theorem Block.finishStream_litCount (b : Block) : (b.finishStream).litCount = b.litCount := rfl
@[simp] theorem Block.finishStream_matchCount (b : Block) : (b.finishStream).matchCount = b.matchCount := rfl

@[simp] theorem Block.appendByte_state (b : Block) (x : Byte) : (b.appendByte x).state = b.state := rfl
@[simp] theorem Block.appendByte_cfg (b : Block) (x : Byte) : (b.appendByte x).cfg = b.cfg := rfl
@[simp] theorem Block.appendByte_act (b : Block) (x : Byte) : (b.appendByte x).act = b.act := rfl
@[simp] theorem Block.appendByte_absPos (b : Block) (x : Byte) : (b.appendByte x).absPos = b.absPos := rfl
@[simp] theorem Block.appendByte_win (b : Block) (x : Byte) : (b.appendByte x).win = b.win := rfl
@[simp] theorem Block.appendByte_dict (b : Block) (x : Byte) : (b.appendByte x).dict = b.dict := rfl
@[simp] theorem Block.appendByte_chunk (b : Block) (x : Byte) : (b.appendByte x).chunk = b.chunk ++ [x] := rfl
@[simp] theorem Block.appendByte_outq (b : Block) (x : Byte) : (b.appendByte x).outq = b.outq := rfl
@[simp] theorem Block.appendByte_errIllegal (b : Block) (x : Byte) : (b.appendByte x).errIllegal = b.errIllegal := rfl
@[simp] theorem Block.appendByte_errNotStreaming (b : Block) (x : Byte) : (b.appendByte x).errNotStreaming = b.errNotStreaming := rfl
@[simp] theorem Block.appendByte_errChunkOvf (b : Block) (x : Byte) : (b.appendByte x).errChunkOvf = b.errChunkOvf := rfl
@[simp] theorem Block.appendByte_firstErr (b : Block) (x : Byte) : (b.appendByte x).firstErr = b.firstErr := rfl
@[simp] theorem Block.appendByte_litCount (b : Block) (x : Byte) : (b.appendByte x).litCount = b.litCount := rfl
@[simp] theorem Block.appendByte_matchCount (b : Block) (x : Byte) : (b.appendByte x).matchCount = b.matchCount := rfl

@[simp] theorem Block.raiseErr_state (b : Block) (c : ErrCode) : (b.raiseErr c).state = b.state := by cases c <;> rfl
@[simp] theorem Block.raiseErr_cfg (b : Block) (c : ErrCode) : (b.raiseErr c).cfg = b.cfg := by cases c <;> rfl
@[simp] theorem Block.raiseErr_act (b : Block) (c : ErrCode) : (b.raiseErr c).act = b.act := by cases c <;> rfl
@[simp] theorem Block.raiseErr_absPos (b : Block) (c : ErrCode) : (b.raiseErr c).absPos = b.absPos := by cases c <;> rfl
@[simp] theorem Block.raiseErr_win (b : Block) (c : ErrCode) : (b.raiseErr c).win = b.win := by cases c <;> rfl
@[simp] theorem Block.raiseErr_dict (b : Block) (c : ErrCode) : (b.raiseErr c).dict = b.dict := by cases c <;> rfl
@[simp] theorem Block.raiseErr_chunk (b : Block) (c : ErrCode) : (b.raiseErr c).chunk = b.chunk := by cases c <;> rfl
@[simp] theorem Block.raiseErr_outq (b : Block) (c : ErrCode) : (b.raiseErr c).outq = b.outq := by cases c <;> rfl
@[simp] theorem Block.raiseErr_errIllegal (b : Block) (c : ErrCode) : (b.raiseErr c).errIllegal = (b.errIllegal || decide (c = .illegal)) := by cases c <;> simp [Block.raiseErr, Block.setSticky]
@[simp] theorem Block.raiseErr_errNotStreaming (b : Block) (c : ErrCode) : (b.raiseErr c).errNotStreaming = (b.errNotStreaming || decide (c = .notStreaming)) := by cases c <;> simp [Block.raiseErr, Block.setSticky]
@[simp] theorem Block.raiseErr_errChunkOvf (b : Block) (c : ErrCode) : (b.raiseErr c).errChunkOvf = (b.errChunkOvf || decide (c = .chunkOvf)) := by cases c <;> simp [Block.raiseErr, Block.setSticky]
@[simp] theorem Block.raiseErr_firstErr (b : Block) (c : ErrCode) : (b.raiseErr c).firstErr = some (b.firstErr.getD c) := rfl
@[simp] theorem Block.raiseErr_litCount (b : Block) (c : ErrCode) : (b.raiseErr c).litCount = b.litCount := by cases c <;> rfl
@[simp] theorem Block.raiseErr_matchCount (b : Block) (c : ErrCode) : (b.raiseErr c).matchCount = b.matchCount := by cases c <;> rfl

/-! ### The machine's updates -/

@[simp] theorem State.withBlk_params (s : State) (b : Block) : (s.withBlk b).params = s.params := rfl
@[simp] theorem State.withBlk_blk (s : State) (b : Block) : (s.withBlk b).blk = b := rfl
@[simp] theorem State.withBlk_pending (s : State) (b : Block) : (s.withBlk b).pending = s.pending := rfl
@[simp] theorem State.withBlk_microOp (s : State) (b : Block) : (s.withBlk b).microOp = s.microOp := rfl
@[simp] theorem State.withBlk_delivered (s : State) (b : Block) : (s.withBlk b).delivered = s.delivered := rfl
@[simp] theorem State.withBlk_reads (s : State) (b : Block) : (s.withBlk b).reads = s.reads := rfl

@[simp] theorem State.popAction_params (s : State) : s.popAction.params = s.params := rfl
@[simp] theorem State.popAction_blk (s : State) : s.popAction.blk = s.blk := rfl
@[simp] theorem State.popAction_pending (s : State) : s.popAction.pending = s.pending.tail := rfl
@[simp] theorem State.popAction_microOp (s : State) : s.popAction.microOp = s.microOp := rfl
@[simp] theorem State.popAction_delivered (s : State) : s.popAction.delivered = s.delivered := rfl
@[simp] theorem State.popAction_reads (s : State) : s.popAction.reads = s.reads := rfl

@[simp] theorem hostReset_params (s : State) : (hostReset s).params = s.params := rfl
@[simp] theorem hostReset_blk (s : State) : (hostReset s).blk = Block.reset s.params := rfl
@[simp] theorem hostReset_pending (s : State) : (hostReset s).pending = s.pending.tail := rfl
@[simp] theorem hostReset_microOp (s : State) : (hostReset s).microOp = s.microOp := rfl
@[simp] theorem hostReset_delivered (s : State) : (hostReset s).delivered = s.delivered := rfl
@[simp] theorem hostReset_reads (s : State) : (hostReset s).reads = s.reads := rfl

@[simp] theorem hostReadback_params (i : BitVec 4) (s : State) : (hostReadback i s).params = s.params := rfl
@[simp] theorem hostReadback_blk (i : BitVec 4) (s : State) : (hostReadback i s).blk = s.blk := rfl
@[simp] theorem hostReadback_pending (i : BitVec 4) (s : State) : (hostReadback i s).pending = s.pending.tail := rfl
@[simp] theorem hostReadback_microOp (i : BitVec 4) (s : State) : (hostReadback i s).microOp = s.microOp := rfl
@[simp] theorem hostReadback_delivered (i : BitVec 4) (s : State) : (hostReadback i s).delivered = s.delivered := rfl
@[simp] theorem hostReadback_reads (i : BitVec 4) (s : State) : (hostReadback i s).reads = s.reads ++ [(i, s.blk.read s.params i)] := rfl

/-! ### The outcomes -/

@[simp] theorem State.raiseErr_eq (s : State) (c : ErrCode) : s.raiseErr c = .next (s.withBlk (s.blk.raiseErr c)) := rfl

@[simp] theorem State.nextBlk_some (s : State) (b : Block) : s.nextBlk (some b) = .next (s.withBlk b) := rfl

@[simp] theorem State.nextBlk_none (s : State) : s.nextBlk none = .fault .byteOutsideRange := rfl

/-- What `State.nextBlk` can answer as a next state. -/
theorem State.nextBlk_eq_next {s t : State} {o : Option Block} (h : s.nextBlk o = .next t) :
    ∃ b, o = some b ∧ t = s.withBlk b := by
  cases o with
  | none => simp at h
  | some b =>
    simp only [State.nextBlk_some, Host.Outcome.next.injEq] at h
    exact ⟨b, rfl, h.symm⟩

end Sys2Proof.Machine
end

