-- ==== Sys2Proof/Laws/Finder.lean ====
section
/-! SUPPORT. One lemma per piece of the match finder: which positions `Byte` reads, what `MatchLen`, `Best`, `SyncDict`,
`FindMatch` and the choice of a token answer. Each comes in two halves: what an answer says, and that there is one. -/

namespace Sys2Proof.Machine

/-! ### Reading stream bytes (R46) -/

/-- The window of the view holds exactly `lo ..< cs` (R32). -/
def View.Exact (v : View) : Prop := v.win.map Prod.fst = List.range' v.lo (v.cs - v.lo)

theorem View.lo_le_cs (v : View) : v.lo ≤ v.cs := Nat.sub_le _ _

theorem View.cs_le_ce (v : View) : v.cs ≤ v.ce := Nat.le_add_right _ _

theorem byteAt_chunk {v : View} {q : Nat} (h : v.cs ≤ q) : v.byteAt q = v.chunk[q - v.cs]? := by
  simp [View.byteAt, h]

theorem byteAt_window {v : View} {q : Nat} (h : q < v.cs) (h' : v.lo ≤ q) : v.byteAt q = Memory.read v.win q := by
  have : ¬ v.cs ≤ q := by omega
  simp [View.byteAt, this, h']

theorem byteAt_isSome_iff {v : View} (hv : v.Exact) (q : Nat) : (v.byteAt q).isSome ↔ v.lo ≤ q ∧ q < v.ce := by
  have hlo := v.lo_le_cs
  have hce : v.ce = v.cs + v.chunk.length := rfl
  by_cases h : v.cs ≤ q
  · rw [byteAt_chunk h]
    rw [Option.isSome_iff_exists]
    constructor
    · rintro ⟨x, hx⟩
      have := (List.getElem?_eq_some_iff.mp hx).1
      omega
    · intro hq
      exact ⟨_, List.getElem?_eq_getElem (by omega)⟩
  · by_cases h' : v.lo ≤ q
    · rw [byteAt_window (by omega) h', Memory.read, sparseGet_isSome_iff, hv, List.mem_range'_1]
      omega
    · simp [View.byteAt, h, h']

theorem byteAt_of_range {v : View} (hv : v.Exact) {q : Nat} (h : v.lo ≤ q) (h' : q < v.ce) : ∃ x, v.byteAt q = some x :=
  Option.isSome_iff_exists.mp ((byteAt_isSome_iff hv q).mpr ⟨h, h'⟩)

theorem packKey_lt (x y z : Byte) : packKey x y z < 2 ^ 24 := by
  have := x.isLt; have := y.isLt; have := z.isLt
  simp only [packKey]
  omega

/-- `Key(q)` exists when the key lies inside the readable range, and has 24 bits (R48). -/
theorem keyAt_of_range {v : View} (hv : v.Exact) {q : Nat} (h : v.lo ≤ q) (h' : q + 2 < v.ce) :
    ∃ k, v.keyAt q = some k ∧ k < 2 ^ 24 := by
  obtain ⟨x, hx⟩ := byteAt_of_range hv h (by omega)
  obtain ⟨y, hy⟩ := byteAt_of_range hv (q := q + 1) (by omega) (by omega)
  obtain ⟨z, hz⟩ := byteAt_of_range hv (q := q + 2) (by omega) h'
  exact ⟨packKey x y z, by simp [View.keyAt, hx, hy, hz], packKey_lt x y z⟩

/-- The key depends on the three bytes alone (R48). -/
theorem keyAt_congr {v v' : View} {q : Nat} (h : ∀ i < 3, v.byteAt (q + i) = v'.byteAt (q + i)) : v.keyAt q = v'.keyAt q := by
  have h0 := h 0 (by omega)
  have h1 := h 1 (by omega)
  have h2 := h 2 (by omega)
  simp only [Nat.add_zero] at h0
  simp only [View.keyAt, h0, h1, h2]

/-! ### `MatchLen` (R96) -/

theorem matchLenLoop_spec {v : View} {r q n l m : Nat} (h : matchLenLoop v r q n l = some m) :
    l ≤ m ∧ m ≤ l + n ∧
      (∀ i, l ≤ i → i < m → (v.byteAt (q + i)).isSome ∧ v.byteAt (r + i) = v.byteAt (q + i)) ∧
      (m < l + n → v.byteAt (r + m) ≠ v.byteAt (q + m)) := by
  induction n generalizing l with
  | zero =>
    simp only [matchLenLoop, Option.some.injEq] at h
    subst h
    exact ⟨Nat.le_refl _, Nat.le_refl _, fun i h1 h2 => absurd h1 (by omega), fun h => absurd h (by omega)⟩
  | succ n ih =>
    simp only [matchLenLoop, Option.bind_eq_some_iff] at h
    obtain ⟨x, hx, y, hy, h⟩ := h
    by_cases hxy : x = y
    · subst hxy
      rw [if_pos rfl] at h
      obtain ⟨h1, h2, h3, h4⟩ := ih h
      refine ⟨by omega, by omega, fun i hi hi' => ?_, fun hm => h4 (by omega)⟩
      by_cases hil : i = l
      · subst hil
        simp [hx, hy]
      · exact h3 i (by omega) hi'
    · rw [if_neg hxy, Option.some.injEq] at h
      subst h
      refine ⟨Nat.le_refl _, by omega, fun i h1 h2 => absurd h1 (by omega), fun _ => ?_⟩
      rw [hx, hy]
      simpa using hxy

theorem matchLenLoop_total {v : View} {r q n l : Nat}
    (h : ∀ i, l ≤ i → i < l + n → (v.byteAt (r + i)).isSome ∧ (v.byteAt (q + i)).isSome) :
    ∃ m, matchLenLoop v r q n l = some m := by
  induction n generalizing l with
  | zero => exact ⟨l, rfl⟩
  | succ n ih =>
    obtain ⟨x, hx⟩ := Option.isSome_iff_exists.mp (h l (by omega) (by omega)).1
    obtain ⟨y, hy⟩ := Option.isSome_iff_exists.mp (h l (by omega) (by omega)).2
    by_cases hxy : x = y
    · obtain ⟨m, hm⟩ := ih (l := l + 1) (fun i h1 h2 => h i (by omega) (by omega))
      exact ⟨m, by simp [matchLenLoop, hx, hy, hxy, hm]⟩
    · exact ⟨l, by simp [matchLenLoop, hx, hy, hxy]⟩

/-- What a length says: it is at most the limit, the bytes agree so far, and they differ there unless the limit is reached
(R96). -/
theorem matchLen_spec {v : View} {r q lim m : Nat} (h : matchLen v r q lim = some m) :
    m ≤ lim ∧ (∀ i < m, (v.byteAt (q + i)).isSome ∧ v.byteAt (r + i) = v.byteAt (q + i)) ∧
      (m < lim → v.byteAt (r + m) ≠ v.byteAt (q + m)) := by
  obtain ⟨-, h2, h3, h4⟩ := matchLenLoop_spec h
  exact ⟨by omega, fun i hi => h3 i (by omega) hi, fun hm => h4 (by omega)⟩

/-- There is a length when the source lies in the readable range below `q` and the limit stays inside the chunk. -/
theorem matchLen_total {v : View} (hv : v.Exact) {r q lim : Nat} (hr : v.lo ≤ r) (hrq : r < q) (hq : q + lim ≤ v.ce) :
    ∃ m, matchLen v r q lim = some m := by
  refine matchLenLoop_total fun i _ hi => ?_
  exact ⟨(byteAt_isSome_iff hv _).mpr ⟨by omega, by omega⟩, (byteAt_isSome_iff hv _).mpr ⟨by omega, by omega⟩⟩

/-! ### `Best` (R97) -/

theorem bestLoop_spec {v : View} {q lim : Nat} {cands : List Nat} {bl bo L O : Nat}
    (h : bestLoop v q lim cands bl bo = some (L, O)) (hb : bl ≤ lim) :
    bl ≤ L ∧ L ≤ lim ∧ (∀ r ∈ cands, ∀ m, matchLen v r q lim = some m → m ≤ L) ∧
      ((L = bl ∧ O = bo) ∨
        (bl < L ∧ ∃ pre r post, cands = pre ++ r :: post ∧ matchLen v r q lim = some L ∧ O = q - r ∧
          ∀ r' ∈ pre, ∀ m, matchLen v r' q lim = some m → m < L)) := by
  induction cands generalizing bl bo with
  | nil =>
    simp only [bestLoop, Option.some.injEq, Prod.mk.injEq] at h
    obtain ⟨rfl, rfl⟩ := h
    exact ⟨Nat.le_refl _, hb, by simp, .inl ⟨rfl, rfl⟩⟩
  | cons r rs ih =>
    simp only [bestLoop, Option.bind_eq_some_iff] at h
    obtain ⟨l, hl, h⟩ := h
    have hlim : ∀ r' m, matchLen v r' q lim = some m → m ≤ lim := fun r' m hm => (matchLen_spec hm).1
    have hr : ∀ m, matchLen v r q lim = some m → m = l := fun m hm => by simpa [hl] using hm.symm
    by_cases h1 : bl < l
    · rw [if_pos h1] at h
      by_cases h2 : l = lim
      · rw [if_pos h2, Option.some.injEq, Prod.mk.injEq] at h
        obtain ⟨rfl, rfl⟩ := h
        exact ⟨by omega, by omega, fun r' _ m hm => h2 ▸ hlim r' m hm,
          .inr ⟨h1, [], r, rs, rfl, hl, rfl, by simp⟩⟩
      · rw [if_neg h2] at h
        obtain ⟨h3, h4, h5, h6⟩ := ih h (hlim r l hl)
        refine ⟨by omega, h4, ?_, .inr ?_⟩
        · intro r' hr' m hm
          rcases List.mem_cons.mp hr' with rfl | hr'
          · rw [hr m hm]; exact h3
          · exact h5 r' hr' m hm
        · rcases h6 with ⟨rfl, rfl⟩ | ⟨h7, pre, r', post, rfl, hm, hO, hpre⟩
          · exact ⟨h1, [], r, rs, rfl, hl, rfl, by simp⟩
          · refine ⟨by omega, r :: pre, r', post, rfl, hm, hO, ?_⟩
            intro x hx m hxm
            rcases List.mem_cons.mp hx with rfl | hx
            · rw [hr m hxm]; exact h7
            · exact hpre x hx m hxm
    · rw [if_neg h1] at h
      by_cases h2 : bl = lim
      · rw [if_pos h2, Option.some.injEq, Prod.mk.injEq] at h
        obtain ⟨rfl, rfl⟩ := h
        exact ⟨Nat.le_refl _, hb, fun r' _ m hm => h2 ▸ hlim r' m hm, .inl ⟨rfl, rfl⟩⟩
      · rw [if_neg h2] at h
        obtain ⟨h3, h4, h5, h6⟩ := ih h hb
        refine ⟨h3, h4, ?_, ?_⟩
        · intro r' hr' m hm
          rcases List.mem_cons.mp hr' with rfl | hr'
          · rw [hr m hm]; omega
          · exact h5 r' hr' m hm
        · rcases h6 with h6 | ⟨h7, pre, r', post, rfl, hm, hO, hpre⟩
          · exact .inl h6
          · refine .inr ⟨h7, r :: pre, r', post, rfl, hm, hO, ?_⟩
            intro x hx m hxm
            rcases List.mem_cons.mp hx with rfl | hx
            · rw [hr m hxm]; omega
            · exact hpre x hx m hxm

theorem bestLoop_total {v : View} {q lim : Nat} {cands : List Nat} {bl bo : Nat}
    (h : ∀ r ∈ cands, ∃ m, matchLen v r q lim = some m) : ∃ lo, bestLoop v q lim cands bl bo = some lo := by
  induction cands generalizing bl bo with
  | nil => exact ⟨_, rfl⟩
  | cons r rs ih =>
    obtain ⟨l, hl⟩ := h r (by simp)
    have ih' := fun bl bo => ih (bl := bl) (bo := bo) (fun r' hr' => h r' (List.mem_cons_of_mem _ hr'))
    simp only [bestLoop, hl, Option.bind_some]
    split
    · split
      · exact ⟨_, rfl⟩
      · exact ih' _ _
    · split
      · exact ⟨_, rfl⟩
      · exact ih' _ _

/-! ### `SyncDict` (R93) -/

/-- The positions `cs ..< ins` of the chunk whose key is `k`, most recent first. -/
def insertedAt (v : View) (ins k : Nat) : List Nat :=
  ((List.range' v.cs (ins - v.cs)).filter fun r => decide (v.keyAt r = some k)).reverse

/-- The form of the dictionary while a chunk is encoded: `d₀` is what earlier chunks left, and the positions `cs ..< ins`
of this chunk have been inserted (R33, R50, R93). -/
structure FinderForm (v : View) (depth : Nat) (d₀ : Dict) (f : Finder) : Prop where
  rising : KeysRising f.dict
  entries : ∀ e ∈ f.dict, e.1 < 2 ^ 24 ∧ e.2 ≠ [] ∧ e.2.Pairwise (· > ·) ∧ e.2.length ≤ depth ∧
    ∀ r ∈ e.2, r < f.ins ∧ r + 3 ≤ v.ce
  keyed : ∀ e ∈ f.dict, ∀ r ∈ e.2, v.lo ≤ r → v.keyAt r = some e.1
  insLow : v.cs ≤ f.ins
  insHigh : f.ins ≤ max v.cs (v.ce - 2)
  history : ∀ k, dictLookup f.dict k = (insertedAt v f.ins k ++ dictLookup d₀ k).take depth

theorem take_append_take {α : Type} (n : Nat) (xs ys : List α) : (xs ++ ys.take n).take n = (xs ++ ys).take n := by
  rw [List.take_append, List.take_append, List.take_take, Nat.min_eq_left (Nat.sub_le _ _)]

theorem insertedAt_succ {v : View} {ins : Nat} (h : v.cs ≤ ins) (k : Nat) :
    insertedAt v (ins + 1) k = (if v.keyAt ins = some k then [ins] else []) ++ insertedAt v ins k := by
  have h1 : ins + 1 - v.cs = (ins - v.cs) + 1 := by omega
  have h2 : v.cs + (ins - v.cs) = ins := by omega
  rw [insertedAt, insertedAt, h1, List.range'_concat, List.filter_append, List.reverse_append]
  simp only [Nat.one_mul, h2]
  by_cases hk : v.keyAt ins = some k <;> simp [hk]

theorem FinderForm.lookup_lt {v : View} {depth : Nat} {d₀ : Dict} {f : Finder} (hf : FinderForm v depth d₀ f) {k r : Nat}
    (h : r ∈ dictLookup f.dict k) : r < f.ins :=
  ((hf.entries _ (mem_of_dictLookup h)).2.2.2.2 r h).1

/-- One turn of `SyncDict` keeps the form. -/
theorem dictInsert_form {v : View} (hv : v.Exact) {depth : Nat} (hd : 1 ≤ depth) {d₀ : Dict} {f : Finder}
    (hf : FinderForm v depth d₀ f) (h : f.ins + 2 < v.ce) :
    ∃ d, dictInsert v depth f.ins f.dict = some d ∧ FinderForm v depth d₀ { dict := d, ins := f.ins + 1 } := by
  have hcs := v.lo_le_cs
  have hlow := hf.insLow
  obtain ⟨k, hk, hk24⟩ := keyAt_of_range hv (q := f.ins) (by omega) h
  obtain ⟨depth', rfl⟩ : ∃ n, depth = n + 1 := ⟨depth - 1, by omega⟩
  have hlist : (f.ins :: dictLookup f.dict k).take (depth' + 1) = f.ins :: (dictLookup f.dict k).take depth' := rfl
  refine ⟨dictPut f.dict k ((f.ins :: dictLookup f.dict k).take (depth' + 1)), by rw [dictInsert, hk]; rfl, ?_⟩
  constructor
  · dsimp only
    exact keysRising_dictPut hf.rising _ _
  · intro e he
    dsimp only at he
    rcases mem_dictPut he with ⟨rfl, -⟩ | he
    · simp only [hlist]
      refine ⟨hk24, by simp, ?_, ?_, ?_⟩
      · rw [List.pairwise_cons]
        refine ⟨fun r hr => hf.lookup_lt (List.mem_of_mem_take hr), ?_⟩
        refine List.Pairwise.sublist (List.take_sublist _ _) ?_
        by_cases hne : dictLookup f.dict k = []
        · simp [hne]
        · obtain ⟨r, hr⟩ := List.exists_mem_of_ne_nil _ hne
          exact (hf.entries _ (mem_of_dictLookup hr)).2.2.1
      · simp only [List.length_cons, List.length_take]; omega
      · intro r hr
        rcases List.mem_cons.mp hr with rfl | hr
        · exact ⟨Nat.lt_succ_self _, by omega⟩
        · have hm := List.mem_of_mem_take hr
          have := (hf.entries _ (mem_of_dictLookup hm)).2.2.2.2 r hm
          exact ⟨by omega, this.2⟩
    · obtain ⟨h1, h2, h3, h4, h5⟩ := hf.entries e he
      exact ⟨h1, h2, h3, h4, fun r hr => ⟨by have := (h5 r hr).1; simp only; omega, (h5 r hr).2⟩⟩
  · dsimp only
    intro e he r hr hlo
    rcases mem_dictPut he with ⟨rfl, -⟩ | he
    · rcases List.mem_cons.mp (hlist ▸ hr) with rfl | hr
      · exact hk
      · have hm := List.mem_of_mem_take hr
        exact hf.keyed _ (mem_of_dictLookup hm) r hm hlo
    · exact hf.keyed e he r hr hlo
  · simp only; omega
  · simp only; omega
  · intro k'
    simp only
    rw [insertedAt_succ hlow]
    by_cases hkk : k' = k
    · subst hkk
      rw [dictLookup_put_self, hf.history, if_pos hk]
      have := take_append_take (depth' + 1) [f.ins] (insertedAt v f.ins k' ++ dictLookup d₀ k')
      simpa using this
    · rw [dictLookup_put_other _ _ hkk, hf.history, if_neg (by rw [hk]; simpa using fun h => hkk h.symm)]
      simp

theorem syncLoop_form {v : View} (hv : v.Exact) {depth : Nat} (hd : 1 ≤ depth) {d₀ : Dict} {q n : Nat} {f : Finder}
    (hf : FinderForm v depth d₀ f) :
    ∃ f', syncLoop v depth q n f = some f' ∧ FinderForm v depth d₀ f' ∧ f.ins ≤ f'.ins ∧ f'.ins ≤ max f.ins q ∧
      (q ≤ f.ins + n → min q (v.ce - 2) ≤ f'.ins) := by
  induction n generalizing f with
  | zero => exact ⟨f, rfl, hf, Nat.le_refl _, by omega, fun h => by omega⟩
  | succ n ih =>
    by_cases h : f.ins < q ∧ f.ins + 2 < v.ce
    · obtain ⟨d, hd', hf'⟩ := dictInsert_form hv hd hf h.2
      obtain ⟨f', h1, h2, h3, h4, h5⟩ := ih hf'
      refine ⟨f', by simp only [syncLoop, if_pos h, hd', Option.bind_some, h1], h2, ?_, ?_, fun hq => h5 ?_⟩
      · simp only at h3; omega
      · simp only at h4; omega
      · simp only; omega
    · exact ⟨f, by rw [syncLoop, if_neg h], hf, Nat.le_refl _, by omega, fun hq => by omega⟩

/-- `SyncDict(q)` answers, keeps the form, and leaves the cursor between the old one and `q`, with every insertable
position below `q` inserted (R93). -/
theorem syncDict_form {v : View} (hv : v.Exact) {depth : Nat} (hd : 1 ≤ depth) {d₀ : Dict} {f : Finder} (q : Nat)
    (hf : FinderForm v depth d₀ f) :
    ∃ f', syncDict v depth q f = some f' ∧ FinderForm v depth d₀ f' ∧ f.ins ≤ f'.ins ∧ f'.ins ≤ max f.ins q ∧
      min q (v.ce - 2) ≤ f'.ins := by
  obtain ⟨f', h1, h2, h3, h4, h5⟩ := syncLoop_form hv hd (q := q) (n := q - f.ins) hf
  exact ⟨f', h1, h2, h3, h4, h5 (by omega)⟩

/-- After its turns the loop of `SyncDict(q)` has nothing left to insert below `q`. -/
theorem syncLoop_stop {v : View} {depth q n : Nat} {f f' : Finder} (h : syncLoop v depth q n f = some f')
    (hn : q ≤ f.ins + n) : ¬ (f'.ins < q ∧ f'.ins + 2 < v.ce) := by
  induction n generalizing f with
  | zero =>
    simp only [syncLoop, Option.some.injEq] at h
    subst h
    omega
  | succ n ih =>
    rw [syncLoop] at h
    split at h
    · simp only [Option.bind_eq_some_iff] at h
      obtain ⟨d, -, h⟩ := h
      exact ih h (by simp only; omega)
    · cases h
      assumption

/-- A later `SyncDict` goes on where an earlier one, at a lower position, stopped: the two together are the later alone. -/
theorem syncLoop_resume {v : View} {depth q q' n : Nat} (hq : q ≤ q') {f f' : Finder}
    (h : syncLoop v depth q n f = some f') (hn : q ≤ f.ins + n) : syncDict v depth q' f' = syncDict v depth q' f := by
  induction n generalizing f with
  | zero => cases h; rfl
  | succ n ih =>
    rw [syncLoop] at h
    split at h
    · rename_i hc
      simp only [Option.bind_eq_some_iff] at h
      obtain ⟨d, hd, h⟩ := h
      have hturn : q' - f.ins = (q' - (f.ins + 1)) + 1 := by omega
      rw [ih h (by simp only; omega), syncDict, syncDict, hturn, syncLoop, if_pos ⟨by omega, hc.2⟩, hd]
      rfl
    · cases h; rfl

/-- The positions inserted by a `SyncDict(q)` are the insertable positions below `q` (R93). -/
theorem insertablePositions_below {v : View} {q ins : Nat} (k : Nat) (h0 : v.cs ≤ ins) (h1 : ins ≤ q)
    (h2 : ins ≤ max v.cs (v.ce - 2)) (h3 : min q (v.ce - 2) ≤ ins) :
    (insertablePositions v k).filter (fun r => decide (r < q)) = insertedAt v ins k := by
  have hce : v.ce = v.cs + v.chunk.length := rfl
  have hsplit : List.range' v.cs (v.chunk.length - 2) =
      List.range' v.cs (ins - v.cs) ++ List.range' ins (v.chunk.length - 2 - (ins - v.cs)) := by
    have := List.range'_append_1 (s := v.cs) (m := ins - v.cs) (n := v.chunk.length - 2 - (ins - v.cs))
    rw [show v.cs + (ins - v.cs) = ins by omega,
      show ins - v.cs + (v.chunk.length - 2 - (ins - v.cs)) = v.chunk.length - 2 by omega] at this
    exact this.symm
  have hlate : ((List.range' ins (v.chunk.length - 2 - (ins - v.cs))).filter
      (fun r => decide (v.keyAt r = some k))).reverse.filter (fun r => decide (r < q)) = [] := by
    rw [List.filter_eq_nil_iff]
    intro r hr
    simp at hr
    simp
    omega
  have hearly : ∀ r ∈ insertedAt v ins k, decide (r < q) = true := by
    intro r hr
    simp [insertedAt] at hr
    simp
    omega
  rw [insertablePositions, hsplit, List.filter_append, List.reverse_append, List.filter_append, hlate, List.nil_append]
  exact List.filter_eq_self.mpr hearly

/-! ### The search (R94, R95, R98) -/

theorem mem_candExh {a : CfgRegs} {q r : Nat} : r ∈ candExh a q ↔ r < q ∧ q - r ≤ a.window.toNat := by
  simp only [candExh, CfgRegs.maxDist, List.mem_reverse, List.mem_range'_1]
  omega

theorem mem_candHash {v : View} {a : CfgRegs} {d : Dict} {q r : Nat} {cands : List Nat}
    (h : candHash v a d q = some cands) (hr : r ∈ cands) :
    q - r ≤ a.window.toNat ∧ ∃ k, v.keyAt q = some k ∧ r ∈ dictLookup d k := by
  simp only [candHash, Option.map_eq_some_iff] at h
  obtain ⟨k, hk, rfl⟩ := h
  obtain ⟨h1, h2⟩ := List.mem_filter.mp hr
  exact ⟨by simpa [CfgRegs.maxDist] using h2, k, hk, List.mem_of_mem_take h1⟩

/-- Every candidate lies below `q` and within the window (R94, R95), when the dictionary holds positions below `q`. -/
theorem mem_candidates {v : View} {a : CfgRegs} {d : Dict} {q r : Nat} {cands : List Nat}
    (hd : ∀ k, ∀ x ∈ dictLookup d k, x < q) (h : candidates v a d q = some cands) (hr : r ∈ cands) :
    r < q ∧ q - r ≤ a.window.toNat := by
  unfold candidates at h
  split at h
  · cases h
    exact mem_candExh.mp hr
  · obtain ⟨h1, k, -, h2⟩ := mem_candHash h hr
    exact ⟨hd k r h2, h1⟩

/-- What a match found at `q` says (R74, R98, R104). -/
structure MatchFits (v : View) (a : CfgRegs) (q len off : Nat) : Prop where
  offLow : 1 ≤ off
  offWindow : off ≤ a.window.toNat
  offPos : off ≤ q
  lenLow : 3 ≤ len
  lenMax : len ≤ a.maxMatch.toNat
  lenChunk : q + len ≤ v.ce
  bytes : ∀ i < len, (v.byteAt (q + i)).isSome ∧ v.byteAt (q - off + i) = v.byteAt (q + i)

theorem searchAt_spec {v : View} {a : CfgRegs} {d : Dict} {q len off : Nat}
    (hd : ∀ k, ∀ x ∈ dictLookup d k, x < q) (h : searchAt v a d q = some (len, off)) :
    (len = 0 ∧ off = 0) ∨ MatchFits v a q len off := by
  unfold searchAt at h
  split at h
  · cases h; exact .inl ⟨rfl, rfl⟩
  · rename_i hlim
    simp only [Option.bind_eq_some_iff, Option.map_eq_some_iff] at h
    obtain ⟨cands, hc, ⟨L, O⟩, hb, h⟩ := h
    split at h
    · cases h; exact .inl ⟨rfl, rfl⟩
    · rename_i hL
      cases h
      simp only [Config.minMatch] at hL hlim
      have hlim' : searchLimit v a q = min a.maxMatch.toNat (v.ce - q) := rfl
      obtain ⟨-, h2, -, h4⟩ := bestLoop_spec hb (Nat.zero_le _)
      rcases h4 with ⟨h4, -⟩ | ⟨-, pre, r, post, rfl, hm, rfl, -⟩
      · omega
      · obtain ⟨hr1, hr2⟩ := mem_candidates hd hc (r := r) (by simp)
        have hs := (matchLen_spec hm).2.1
        refine .inr ⟨by omega, by omega, by omega, by omega, by omega, by omega, fun i hi => ?_⟩
        have hq : q - (q - r) = r := by omega
        rw [hq]
        exact hs i hi

theorem searchAt_total {v : View} (hv : v.Exact) {a : CfgRegs} (ha : a.window.toNat = v.window) {d : Dict} {q : Nat}
    (hcs : v.cs ≤ q) (hd : ∀ k, ∀ x ∈ dictLookup d k, x < q) : ∃ lo, searchAt v a d q = some lo := by
  unfold searchAt
  split
  · exact ⟨_, rfl⟩
  · rename_i hlim
    have hlim' : searchLimit v a q = min a.maxMatch.toNat (v.ce - q) := rfl
    have hlo : v.lo = v.cs - v.window := rfl
    simp only [Config.minMatch] at hlim
    obtain ⟨cands, hc⟩ : ∃ cands, candidates v a d q = some cands := by
      unfold candidates
      split
      · exact ⟨_, rfl⟩
      · obtain ⟨k, hk, -⟩ := keyAt_of_range hv (q := q) (by omega) (by omega)
        exact ⟨_, by rw [candHash, hk]; rfl⟩
    obtain ⟨lo, hb⟩ := bestLoop_total (v := v) (q := q) (lim := searchLimit v a q) (cands := cands) (bl := 0) (bo := 0)
      (fun r hr => by
        obtain ⟨h1, h2⟩ := mem_candidates hd hc hr
        exact matchLen_total hv (by omega) h1 (by omega))
    exact ⟨_, by simp [hc, best, hb]; rfl⟩

/-- `FindMatch(q)` answers, with no match or one that fits (R98). -/
theorem findMatch_spec {v : View} (hv : v.Exact) {a : CfgRegs} (ha : a.window.toNat = v.window)
    (hdep : 1 ≤ a.chainDepth.toNat) {d₀ : Dict} {f : Finder} (hf : FinderForm v a.chainDepth.toNat d₀ f) {q : Nat}
    (hcs : v.cs ≤ q) (hins : f.ins ≤ q) :
    ∃ f' len off, findMatch v a f q = some (f', len, off) ∧ FinderForm v a.chainDepth.toNat d₀ f' ∧ f'.ins ≤ q ∧
      ((len = 0 ∧ off = 0) ∨ MatchFits v a q len off) := by
  obtain ⟨f', h1, h2, h3, h4, -⟩ := syncDict_form hv hdep q hf
  have hlt : ∀ k, ∀ x ∈ dictLookup f'.dict k, x < q := fun k x hx => by
    have := h2.lookup_lt hx; omega
  obtain ⟨⟨len, off⟩, hs⟩ := searchAt_total hv ha hcs hlt
  exact ⟨f', len, off, by simp [findMatch, h1, hs], h2, by omega, searchAt_spec hlt hs⟩

/-- The choice of a token answers, with one that fits (R99, R100). -/
theorem chooseToken_spec {v : View} (hv : v.Exact) {a : CfgRegs} (ha : a.window.toNat = v.window)
    (hdep : 1 ≤ a.chainDepth.toNat) {d₀ : Dict} {f : Finder} (hf : FinderForm v a.chainDepth.toNat d₀ f) {p : Nat}
    (hcs : v.cs ≤ p) (hp : p < v.ce) (hins : f.ins ≤ p) :
    ∃ f' t, chooseToken v a f p = some (f', t) ∧ FinderForm v a.chainDepth.toNat d₀ f' ∧ f'.ins ≤ p + t.span ∧
      1 ≤ t.span ∧ p + t.span ≤ v.ce ∧ TokenFits v a p t := by
  have hcslo := v.lo_le_cs
  obtain ⟨x, hx⟩ := byteAt_of_range hv (q := p) (by omega) hp
  obtain ⟨f1, len, off, h1, hf1, hins1, hm⟩ := findMatch_spec hv ha hdep hf hcs hins
  by_cases hlen : len = 0
  · refine ⟨f1, .literal x, by simp [chooseToken, h1, hlen, hx], hf1, ?_, Nat.le_refl _, ?_, hx⟩
    · simp only [Token.span]; omega
    · simp only [Token.span]; omega
  · have hfit : MatchFits v a p len off := by
      rcases hm with ⟨h, -⟩ | h
      · exact absurd h hlen
      · exact h
    obtain ⟨f2, dfr, h2, hf2, hins2⟩ : ∃ f2 dfr, deferral v a f1 len p = some (f2, dfr) ∧
        FinderForm v a.chainDepth.toNat d₀ f2 ∧ f2.ins ≤ p + 1 := by
      by_cases hl : a.lazyEn = true ∧ p + 1 < v.ce
      · obtain ⟨f2, len2, off2, h2, hf2, hins2, -⟩ := findMatch_spec hv ha hdep hf1 (q := p + 1) (by omega) (by omega)
        exact ⟨f2, _, by simp [deferral, hl, h2]; rfl, hf2, hins2⟩
      · exact ⟨f1, false, by rw [deferral, if_neg hl], hf1, by omega⟩
    cases dfr with
    | true =>
      refine ⟨f2, .literal x, by simp [chooseToken, h1, hlen, h2, hx], hf2, hins2, Nat.le_refl _, ?_, hx⟩
      simp only [Token.span]; omega
    | false =>
      have hlen8 : (BitVec.ofNat 8 len).toNat = len := by
        rw [BitVec.toNat_ofNat]
        have := a.maxMatch.isLt; have := hfit.lenMax
        exact Nat.mod_eq_of_lt (by omega)
      have hoff16 : (BitVec.ofNat 16 off).toNat = off := by
        rw [BitVec.toNat_ofNat]
        have := a.window.isLt; have := hfit.offWindow
        exact Nat.mod_eq_of_lt (by omega)
      have h3 := hfit.lenLow
      have h4 := hfit.lenChunk
      refine ⟨f2, .matchRef (BitVec.ofNat 16 off) (BitVec.ofNat 8 len), by simp [chooseToken, h1, hlen, h2], hf2, ?_, ?_, ?_, ?_⟩
      · simp only [Token.span, hlen8]; omega
      · simp only [Token.span, hlen8]; omega
      · simp only [Token.span, hlen8]; omega
      · simp only [TokenFits, hlen8, hoff16]
        exact ⟨hfit.offLow, hfit.offWindow, hfit.offPos, hfit.lenLow, hfit.lenMax, hfit.lenChunk, hfit.bytes⟩

end Sys2Proof.Machine
end

