-- ==== Sys2Proof/Laws/Chunk.lean ====
section
/-! SUPPORT. The scan, the trim and the whole chunk end: from a block that meets the invariant a chunk end answers, its
tokens cover the chunk, and nothing but the fields R90 names changes. -/

namespace Sys2Proof.Machine

open Sys2Proof.Config (Params)

/-! ### Tokens -/

@[simp] theorem serialize_nil : serialize [] = [] := rfl

@[simp] theorem serialize_cons (t : Token) (ts : List Token) : serialize (t :: ts) = t.bytes ++ serialize ts := by
  simp [serialize]

/-- Emission of a list of tokens one after another (R101). -/
def Block.emitTokens (b : Block) : List Token → Block
  | [] => b
  | t :: ts => (b.emitToken t).emitTokens ts

/-- What emitting tokens changes: the queue and the two counters, nothing else (R101). -/
theorem emitTokens_eq (b : Block) (ts : List Token) :
    b.emitTokens ts =
      { b with
        outq := b.outq ++ serialize ts
        litCount := b.litCount + BitVec.ofNat 32 (countLiterals ts)
        matchCount := b.matchCount + BitVec.ofNat 32 (countMatches ts) } := by
  induction ts generalizing b with
  | nil => simp [Block.emitTokens, countLiterals, countMatches]
  | cons t ts ih =>
    rw [Block.emitTokens, ih]
    cases t with
    | literal x =>
      simp [Block.emitToken, Block.emitLit, Block.emit, Token.bytes, countLiterals, countMatches, BitVec.add_assoc,
        BitVec.ofNat_add, BitVec.add_comm (1#32)]
    | matchRef off len =>
      simp [Block.emitToken, Block.emitMatch, Block.emit, Token.bytes, countLiterals, countMatches, BitVec.add_assoc,
        BitVec.ofNat_add, BitVec.add_comm (1#32)]

/-! ### The scan (R99) -/

/-- The scan answers; its tokens cover the positions from `p` on, and it changes the dictionary and what the emission of
those tokens changes (R99 to R101, R108). -/
theorem scanLoop_spec {v : View} (hv : v.Exact) {d₀ : Dict} {n : Nat} {b : Block} {ins p : Nat}
    (ha : b.act.window.toNat = v.window) (hdep : 1 ≤ b.act.chainDepth.toNat)
    (hf : FinderForm v b.act.chainDepth.toNat d₀ { dict := b.dict, ins := ins })
    (hcs : v.cs ≤ p) (hp : p ≤ v.ce) (hn : v.ce - p ≤ n) (hins : ins ≤ p) :
    ∃ ts d ins', scanLoop v n b ins p = some ({ b with dict := d }.emitTokens ts, ins') ∧
      FinderForm v b.act.chainDepth.toNat d₀ { dict := d, ins := ins' } ∧ ins' ≤ v.ce ∧
      TokensCover v b.act p ts ∧ ts.length ≤ v.ce - p := by
  induction n generalizing b ins p with
  | zero =>
    have hpe : p = v.ce := by omega
    exact ⟨[], b.dict, ins, rfl, hf, by omega, hpe, Nat.zero_le _⟩
  | succ n ih =>
    by_cases hlt : p < v.ce
    · obtain ⟨f, t, h1, hf1, h2, h3, h4, h5⟩ := chooseToken_spec hv ha hdep hf hcs hlt hins
      obtain ⟨ts, d, ins', h6, h7, h8, h9, h10⟩ := ih (b := { b with dict := f.dict }.emitToken t) (ins := f.ins)
        (p := p + t.span) (by simpa using ha) (by simpa using hdep) (by simpa using hf1) (by omega) h4 (by omega) h2
      have hswap : { { b with dict := f.dict }.emitToken t with dict := d } = { b with dict := d }.emitToken t := by
        cases t <;> rfl
      refine ⟨t :: ts, d, ins', ?_, by simpa using h7, h8, ⟨h5, by simpa using h9⟩, ?_⟩
      · rw [scanLoop, if_pos hlt, h1, Option.bind_some, h6, hswap]
        rfl
      · simp only [List.length_cons]; omega
    · have hpe : p = v.ce := by omega
      exact ⟨[], b.dict, ins, by rw [scanLoop, if_neg hlt]; rfl, hf, by omega, hpe, Nat.zero_le _⟩

/-! ### The trim (R51) -/

theorem range'_filter_ge {a n c : Nat} (h : a ≤ c) (h' : c ≤ a + n) :
    (List.range' a n).filter (fun x => decide (c ≤ x)) = List.range' c (a + n - c) := by
  have hsplit : List.range' a n = List.range' a (c - a) ++ List.range' c (a + n - c) := by
    have h1 : n = (c - a) + (a + n - c) := by omega
    have h2 : a + (c - a) = c := by omega
    conv_lhs => rw [h1]
    rw [← List.range'_append_1, h2]
  rw [hsplit, List.filter_append]
  have h1 : (List.range' a (c - a)).filter (fun x => decide (c ≤ x)) = [] := by
    rw [List.filter_eq_nil_iff]
    intro x hx
    have := (List.mem_range'_1.mp hx).2
    simp only [decide_eq_true_eq]; omega
  have h2 : (List.range' c (a + n - c)).filter (fun x => decide (c ≤ x)) = List.range' c (a + n - c) := by
    rw [List.filter_eq_self]
    intro x hx
    simpa using (List.mem_range'_1.mp hx).1
  rw [h1, h2, List.nil_append]

theorem exact_keys_lt {v : View} (hv : v.Exact) : ∀ e ∈ v.win, e.1 < v.cs := by
  intro e he
  have h : e.1 ∈ v.win.map Prod.fst := List.mem_map_of_mem he
  rw [hv, List.mem_range'_1] at h
  have := v.lo_le_cs
  omega

/-- After the trim the window holds exactly the positions `max(0, ce - aWINDOW) ..< ce` (R51). -/
theorem trimWindow_keys {v : View} (hv : v.Exact) :
    (trimWindow v).map Prod.fst = List.range' (v.ce - v.window) (v.ce - (v.ce - v.window)) := by
  have hlo : v.lo = v.cs - v.window := rfl
  have hcs := v.lo_le_cs
  have hce : v.ce = v.cs + v.chunk.length := rfl
  have h1 : (winWriteAll v.win v.cs v.chunk).map Prod.fst = List.range' v.lo (v.ce - v.lo) := by
    rw [keys_winWriteAll _ (exact_keys_lt hv), hv]
    have h2 : v.cs = v.lo + (v.cs - v.lo) := by omega
    conv_lhs => rw [h2]
    simp only [Nat.add_sub_cancel_left]
    rw [List.range'_append_1]
    congr 1
    omega
  have h3 : (trimWindow v).map Prod.fst =
      ((winWriteAll v.win v.cs v.chunk).map Prod.fst).filter (fun x => decide (v.ce - v.window ≤ x)) := by
    rw [trimWindow, winDropBelow, List.filter_map]
    rfl
  rw [h3, h1, range'_filter_ge (by omega) (by omega)]
  congr 1
  omega

/-- After the trim the window reads as the stream does on the positions it keeps, and has no other byte (R51). -/
theorem read_trimWindow {v : View} (hv : v.Exact) (q : Nat) :
    Memory.read (trimWindow v) q = if v.ce - v.window ≤ q ∧ q < v.ce then v.byteAt q else none := by
  have hlo : v.lo = v.cs - v.window := rfl
  have hce : v.ce = v.cs + v.chunk.length := rfl
  by_cases hq : v.ce - v.window ≤ q ∧ q < v.ce
  · rw [if_pos hq, trimWindow, read_winDropBelow, if_pos hq.1, read_winWriteAll]
    by_cases hc : v.cs ≤ q
    · rw [if_pos ⟨hc, by omega⟩, byteAt_chunk hc]
    · rw [if_neg (by omega), byteAt_window (by omega) (by omega)]
  · rw [if_neg hq]
    cases hr : Memory.read (trimWindow v) q with
    | none => rfl
    | some x =>
      have h : q ∈ (trimWindow v).map Prod.fst := (sparseGet_isSome_iff _ _).mp (by rw [← Memory.read, hr]; rfl)
      rw [trimWindow_keys hv, List.mem_range'_1] at h
      omega

/-! ### The chunk end (R84, R90, R102) -/

/-- What a chunk end needs of a block: part of the invariant, without the capacity of the chunk. -/
structure Block.Encodable (b : Block) : Prop where
  windowExact : b.WindowExact
  dictForm : b.DictForm
  dictKeyed : b.DictKeyed
  depthPos : 1 ≤ b.act.chainDepth.toNat

theorem Block.Inv.encodable {P : Params} {b : Block} (h : b.Inv P) : b.Encodable :=
  ⟨h.windowExact, h.dictForm, h.dictKeyed, h.actLegal.2.2.2.1⟩

theorem Block.Encodable.view_exact {b : Block} (h : b.Encodable) : b.view.Exact := h.windowExact

theorem Block.Encodable.finderForm {b : Block} (h : b.Encodable) :
    FinderForm b.view b.act.chainDepth.toNat b.dict { dict := b.dict, ins := b.view.cs } := by
  have hcs : b.view.cs = b.absPos.toNat := rfl
  have hce := b.view.cs_le_ce
  refine ⟨h.dictForm.1, fun e he => ?_, h.dictKeyed, Nat.le_refl _, by simp only; omega, fun k => ?_⟩
  · obtain ⟨h1, h2, h3, h4, h5⟩ := h.dictForm.2 e he
    exact ⟨h1, h2, h3, h4, fun r hr => ⟨by have := h5 r hr; simp only; omega, by have := h5 r hr; omega⟩⟩
  · have h0 : insertedAt b.view b.view.cs k = [] := by simp [insertedAt]
    simp only [h0, List.nil_append]
    by_cases hne : dictLookup b.dict k = []
    · simp [hne]
    · obtain ⟨r, hr⟩ := List.exists_mem_of_ne_nil _ hne
      rw [List.take_of_length_le (h.dictForm.2 _ (mem_of_dictLookup hr)).2.2.2.1]

/-- `EncodeChunk` answers: its tokens cover the chunk, the dictionary takes the chunk's insertable positions, the window is
trimmed, the position advances, and nothing else changes (R90, R93, R99, R101, R102). -/
theorem encodeChunk_spec {b : Block} (h : b.Encodable) :
    ∃ ts d ins,
      b.encodeChunk = some { b with
        dict := d
        win := trimWindow b.view
        absPos := BitVec.ofNat 64 b.view.ce
        chunk := []
        outq := b.outq ++ serialize ts
        litCount := b.litCount + BitVec.ofNat 32 (countLiterals ts)
        matchCount := b.matchCount + BitVec.ofNat 32 (countMatches ts) } ∧
      TokensCover b.view b.act b.view.cs ts ∧ ts.length ≤ b.chunk.length ∧
      FinderForm b.view b.act.chainDepth.toNat b.dict { dict := d, ins := ins } ∧
      ins = max b.view.cs (b.view.ce - 2) := by
  have hv := h.view_exact
  have hce : b.view.ce - b.view.cs = b.chunk.length := Nat.add_sub_cancel_left _ _
  obtain ⟨ts, d, ins, h1, h2, h3, h4, h5⟩ := scanLoop_spec hv (n := b.chunk.length) (b := b) (ins := b.view.cs)
    (p := b.view.cs) rfl h.depthPos h.finderForm (Nat.le_refl _) b.view.cs_le_ce (by omega) (Nat.le_refl _)
  obtain ⟨⟨d', ins'⟩, h6, h7, h8, h9, h10⟩ := syncDict_form hv h.depthPos b.view.ce h2
  refine ⟨ts, d', ins', ?_, h4, by omega, h7, ?_⟩
  · rw [Block.encodeChunk, h1, Option.bind_some, emitTokens_eq, completeChunk]
    simp only [h6, Option.map_some]
  · have h11 := h7.insLow
    have h12 := h7.insHigh
    simp only at h10 h11 h12
    omega

/-- A chunk end on an empty chunk changes nothing; on another it is `EncodeChunk` (R84). -/
theorem chunkEnd_nil {b : Block} (h : b.chunk = []) : b.chunkEnd = some b := by
  unfold Block.chunkEnd
  rw [h]

theorem chunkEnd_cons {b : Block} (h : b.chunk ≠ []) : b.chunkEnd = b.encodeChunk := by
  unfold Block.chunkEnd
  cases hc : b.chunk with
  | nil => exact absurd hc h
  | cons x xs => rfl

/-- The chunk end answers from every block that meets the invariant (R46, R120: the scan raises no error). -/
theorem chunkEnd_total {b : Block} (h : b.Encodable) : ∃ b', b.chunkEnd = some b' := by
  by_cases hc : b.chunk = []
  · exact ⟨b, chunkEnd_nil hc⟩
  · obtain ⟨ts, d, ins, h1, -⟩ := encodeChunk_spec h
    exact ⟨_, by rw [chunkEnd_cons hc, h1]⟩

/-- After a chunk end the chunk is empty, and the fields R90 does not name are as before. -/
theorem chunkEnd_frame {b b' : Block} (h : b.Encodable) (hb : b.chunkEnd = some b') :
    b'.chunk = [] ∧ b'.state = b.state ∧ b'.cfg = b.cfg ∧ b'.act = b.act ∧ b'.errIllegal = b.errIllegal ∧
      b'.errNotStreaming = b.errNotStreaming ∧ b'.errChunkOvf = b.errChunkOvf ∧ b'.firstErr = b.firstErr := by
  by_cases hc : b.chunk = []
  · rw [chunkEnd_nil hc] at hb
    cases hb
    exact ⟨hc, rfl, rfl, rfl, rfl, rfl, rfl, rfl⟩
  · obtain ⟨ts, d, ins, h1, -⟩ := encodeChunk_spec h
    rw [chunkEnd_cons hc, h1] at hb
    cases hb
    exact ⟨rfl, rfl, rfl, rfl, rfl, rfl, rfl, rfl⟩

/-- A chunk end keeps the block encodable: the window holds the last bytes, the dictionary keeps its form. -/
theorem chunkEnd_encodable {b b' : Block} (h : b.Encodable) (hlim : b.absPos.toNat + b.chunk.length < Config.streamLimit)
    (hb : b.chunkEnd = some b') :
    b'.Encodable ∧ b'.absPos.toNat = b.absPos.toNat + b.chunk.length := by
  by_cases hc : b.chunk = []
  · rw [chunkEnd_nil hc] at hb
    cases hb
    exact ⟨h, by simp [hc]⟩
  · obtain ⟨ts, d, ins, h1, -, -, hf, -⟩ := encodeChunk_spec h
    rw [chunkEnd_cons hc, h1] at hb
    cases hb
    have hce : b.view.ce = b.absPos.toNat + b.chunk.length := rfl
    have hpos : (BitVec.ofNat 64 b.view.ce).toNat = b.view.ce := by
      rw [BitVec.toNat_ofNat]
      exact Nat.mod_eq_of_lt (by rw [hce]; exact hlim)
    refine ⟨⟨?_, ⟨hf.rising, fun e he => ?_⟩, ?_, h.depthPos⟩, by rw [← hce]; exact hpos⟩
    · simp only [Block.WindowExact, Block.winLo, hpos]
      exact trimWindow_keys h.view_exact
    · obtain ⟨h1, h2, h3, h4, h5⟩ := hf.entries e he
      refine ⟨h1, h2, h3, h4, fun r hr => ?_⟩
      simp only [hpos]
      exact (h5 r hr).2
    · intro e he r hr hlo
      have hr3 := ((hf.entries e he).2.2.2.2 r hr).2
      have hv := h.view_exact
      simp only [Block.winLo, hpos] at hlo
      have hlo' : b.view.ce - b.view.window ≤ r := hlo
      have hvlo : b.view.lo = b.view.cs - b.view.window := rfl
      have hce' := b.view.cs_le_ce
      rw [← hf.keyed e he r hr (by omega)]
      refine keyAt_congr fun i hi => ?_
      rw [byteAt_window]
      · exact (read_trimWindow hv (r + i)).trans (if_pos ⟨by omega, by omega⟩)
      · show r + i < (BitVec.ofNat 64 b.view.ce).toNat
        rw [hpos]; omega
      · show (BitVec.ofNat 64 b.view.ce).toNat - _ ≤ r + i
        rw [hpos]
        exact Nat.le_trans hlo' (Nat.le_add_right _ _)

end Sys2Proof.Machine
end

