-- ==== Sys2Proof/Laws/Decode.lean ====
section
/-! SUPPORT. The decoder on words as numbers: each operand field, the opcode map as one chain of tests, its inversion, and
the numbers of the words the encoder writes. -/

namespace Sys2Proof

/-! ### The fields of a word (R61, R65, R67) -/

theorem opField_toNat (w : CmdWord) : (opField w).toNat = w.toNat / 2 ^ 28 := by
  have := w.isLt
  simp [opField, BitVec.extractLsb', Nat.shiftRight_eq_div_pow]
  omega

theorem regField_toNat (w : CmdWord) : (regField w).toNat = w.toNat / 2 ^ 24 % 2 ^ 4 := by
  simp [regField, BitVec.extractLsb', Nat.shiftRight_eq_div_pow]

theorem byteField_toNat (w : CmdWord) : (byteField w).toNat = w.toNat % 2 ^ 8 := by
  simp [byteField, BitVec.extractLsb']

theorem valueField_toNat (w : CmdWord) : (valueField w).toNat = w.toNat % 2 ^ 16 := by
  simp [valueField, BitVec.extractLsb']

theorem lastField_iff (w : CmdWord) : lastField w = true ↔ w.toNat / 2 ^ 8 % 2 = 1 := by
  simp only [lastField, BitVec.getLsbD, Nat.testBit, Nat.shiftRight_eq_div_pow]
  simp

theorem reservedZ_iff (w : CmdWord) : w.extractLsb' 0 28 = 0 ↔ w.toNat % 2 ^ 28 = 0 := by
  rw [← BitVec.toNat_inj]
  simp [BitVec.extractLsb']

theorem reservedD_iff (w : CmdWord) : w.extractLsb' 9 19 = 0 ↔ w.toNat % 2 ^ 28 / 2 ^ 9 = 0 := by
  rw [← BitVec.toNat_inj]
  simp [BitVec.extractLsb', Nat.shiftRight_eq_div_pow]
  omega

theorem reservedC_iff (w : CmdWord) : w.extractLsb' 16 8 = 0 ↔ w.toNat / 2 ^ 16 % 2 ^ 8 = 0 := by
  rw [← BitVec.toNat_inj]
  simp [BitVec.extractLsb', Nat.shiftRight_eq_div_pow]

/-! ### The opcode map (R62, R69) -/

/-- The decoder as one chain of tests on the word's number. -/
theorem decodeCommand_eq (w : CmdWord) : decodeCommand w =
    if w.toNat / 2 ^ 28 = 0 then (if w.toNat % 2 ^ 28 = 0 then .ok .nop else .error .reservedBits)
    else if w.toNat / 2 ^ 28 = 1 then (if w.toNat % 2 ^ 28 = 0 then .ok .start else .error .reservedBits)
    else if w.toNat / 2 ^ 28 = 2 then
      (if w.toNat % 2 ^ 28 / 2 ^ 9 = 0 then .ok (.data (byteField w) (lastField w)) else .error .reservedBits)
    else if w.toNat / 2 ^ 28 = 3 then (if w.toNat % 2 ^ 28 = 0 then .ok .endChunk else .error .reservedBits)
    else if w.toNat / 2 ^ 28 = 4 then
      (if w.toNat / 2 ^ 16 % 2 ^ 8 = 0 then
        (if w.toNat / 2 ^ 24 % 2 ^ 4 ≤ 4 then .ok (.cfgWrite (regField w) (valueField w)) else .error .illegalReg)
      else .error .reservedBits)
    else if w.toNat / 2 ^ 28 = 5 then (if w.toNat % 2 ^ 28 = 0 then .ok .finish else .error .reservedBits)
    else .error .reservedOpcode := by
  unfold decodeCommand decodeZ decodeD decodeC
  rw [opField_toNat]
  simp only [reservedZ_iff, reservedD_iff, reservedC_iff, regField_toNat]
  split <;> simp_all

/-- What a word is that the decoder takes. -/
theorem decodeCommand_inv {w : CmdWord} {i : Instr} (h : decodeCommand w = .ok i) :
    (i = .nop ∧ w = 0x00000000#32) ∨ (i = .start ∧ w = 0x10000000#32) ∨
      (i = .data (byteField w) (lastField w) ∧ w.toNat / 2 ^ 28 = 2 ∧ w.toNat % 2 ^ 28 / 2 ^ 9 = 0) ∨
      (i = .endChunk ∧ w = 0x30000000#32) ∨
      (i = .cfgWrite (regField w) (valueField w) ∧ w.toNat / 2 ^ 28 = 4 ∧ w.toNat / 2 ^ 16 % 2 ^ 8 = 0 ∧
        w.toNat / 2 ^ 24 % 2 ^ 4 ≤ 4) ∨
      (i = .finish ∧ w = 0x50000000#32) := by
  rw [decodeCommand_eq] at h
  split_ifs at h <;> simp at h <;> subst h
  · left
    exact ⟨rfl, by apply BitVec.eq_of_toNat_eq; simp; omega⟩
  · right; left
    exact ⟨rfl, by apply BitVec.eq_of_toNat_eq; simp; omega⟩
  · right; right; left
    exact ⟨rfl, by omega, by omega⟩
  · right; right; right; left
    exact ⟨rfl, by apply BitVec.eq_of_toNat_eq; simp; omega⟩
  · right; right; right; right; left
    exact ⟨rfl, by omega, by omega, by omega⟩
  · right; right; right; right; right
    exact ⟨rfl, by apply BitVec.eq_of_toNat_eq; simp; omega⟩

/-! ### The words the encoder writes (R65, R67) -/

theorem dataWord_toNat (b : Byte) (last : Bool) :
    (dataWord b last).toNat = 0x20000000 + (if last then 2 ^ 8 else 0) + b.toNat := by
  have := b.isLt
  cases last
  · have h : dataWord b false = 0x20000000#32 + b.setWidth 32 := by
      unfold dataWord
      revert b
      decide
    rw [h]; simp; omega
  · have h : dataWord b true = 0x20000100#32 + b.setWidth 32 := by
      unfold dataWord
      revert b
      decide
    rw [h]; simp; omega

theorem cfgWord_toNat (reg : BitVec 4) (v : BitVec 16) :
    (cfgWord reg v).toNat = 0x40000000 + reg.toNat * 2 ^ 24 + v.toNat := by
  have hv := v.isLt
  have hr := reg.isLt
  have e1 : (reg.setWidth 32 <<< 24).toNat = reg.toNat <<< 24 := by
    simp [Nat.shiftLeft_eq]; omega
  have e2 : (v.setWidth 32).toNat = v.toNat := by
    simp; omega
  have e3 : (0x40000000#32).toNat ||| reg.toNat <<< 24 = (0x40 ||| reg.toNat) <<< 24 := by
    rw [Nat.shiftLeft_or_distrib]; rfl
  have e4 : 0x40 ||| reg.toNat = 0x40 + reg.toNat := by
    have := Nat.shiftLeft_add_eq_or_of_lt (show reg.toNat < 2 ^ 6 by omega) 1
    simpa using this.symm
  rw [cfgWord, BitVec.toNat_or, BitVec.toNat_or, e1, e2, e3, e4,
    ← Nat.shiftLeft_add_eq_or_of_lt (show v.toNat < 2 ^ 24 by omega), Nat.shiftLeft_eq]
  omega

end Sys2Proof
end

