-- ==== Sys2Proof/Laws/PerInstr.lean ====
section
/-! SUPPORT. The family TableRow: the bits the encoder writes for an instruction carry the fixed fields of its row of
spec/opcode_table.json, and are no longer than the row. -/

namespace Sys2Proof.Laws.TableRow

/-- A fixed field of a row: bits `hi` down to `lo` hold `value`. -/
structure FixedField where
  hi : Nat
  lo : Nat
  value : Nat
  deriving DecidableEq, Repr

/-- The number holds the field. -/
def FixedField.holds (f : FixedField) (n : Nat) : Prop := n / 2 ^ f.lo % 2 ^ (f.hi + 1 - f.lo) = f.value

/-- The number of bits of the instruction's row. -/
def bits : Instr → Nat
  | .lit _ => 16
  | _ => 32

/-- The "fixed" entries of the instruction's row of spec/opcode_table.json, copied from it. -/
def fixed : Instr → List FixedField
  | .nop => [⟨31, 0, 0⟩]
  | .start => [⟨31, 0, 268435456⟩]
  | .data _ _ => [⟨31, 9, 1048576⟩]
  | .endChunk => [⟨31, 0, 805306368⟩]
  | .cfgWrite _ _ => [⟨23, 16, 0⟩, ⟨31, 28, 4⟩]
  | .finish => [⟨31, 0, 1342177280⟩]
  | .lit _ => [⟨15, 8, 0⟩]
  | .matchRef _ _ => [⟨31, 24, 1⟩]

/-- The bits as the table numbers them: a word as it is, a token with byte 0 of the stream uppermost (log 5). -/
def number : Wire → Nat
  | .command w => w.toNat
  | .token bytes => bytes.foldl (fun n b => n * 256 + b.toNat) 0

/-- The encoded bits fit the row and hold its fixed fields. -/
def Statement (i : Instr) : Prop :=
  i.wellFormed = true → number (encode i) < 2 ^ bits i ∧ ∀ f ∈ fixed i, f.holds (number (encode i))

theorem nop : Statement .nop := by
  intro _
  simp [fixed, bits, number, encode, FixedField.holds]

theorem start : Statement .start := by
  intro _
  simp [fixed, bits, number, encode, FixedField.holds]

theorem data (byte : Byte) (last : Bool) : Statement (.data byte last) := by
  intro _
  have := byte.isLt
  simp only [fixed, bits, number, encode, dataWord_toNat, List.mem_singleton, forall_eq, FixedField.holds]
  constructor <;> split <;> omega

theorem endChunk : Statement .endChunk := by
  intro _
  simp [fixed, bits, number, encode, FixedField.holds]

theorem cfgWrite (reg : BitVec 4) (value : BitVec 16) : Statement (.cfgWrite reg value) := by
  intro h
  have hr : reg.toNat ≤ 4 := by simpa [Instr.wellFormed] using h
  have := value.isLt
  simp only [fixed, bits, number, encode, cfgWord_toNat, List.mem_cons, List.not_mem_nil, or_false, forall_eq_or_imp,
    forall_eq, FixedField.holds]
  omega

theorem finish : Statement .finish := by
  intro _
  simp [fixed, bits, number, encode, FixedField.holds]

theorem lit (b : Byte) : Statement (.lit b) := by
  intro _
  have := b.isLt
  simp only [fixed, bits, number, encode, litBytes, Config.tagLit, List.foldl_cons, List.foldl_nil, List.mem_singleton,
    forall_eq, FixedField.holds]
  simp
  omega

theorem matchRef (off : BitVec 16) (len : Byte) : Statement (.matchRef off len) := by
  intro _
  have h0 := (off.extractLsb' 0 8).isLt
  have h1 := (off.extractLsb' 8 8).isLt
  have h2 := len.isLt
  simp only [fixed, bits, number, encode, matchBytes, List.foldl_cons, List.foldl_nil,
    List.mem_singleton, forall_eq, FixedField.holds]
  have h3 : Config.tagMatch.toNat = 1 := rfl
  omega

end Sys2Proof.Laws.TableRow
end

