-- ==== Sys2Proof/Laws/RefDecoder.lean ====
section
/-! SUPPORT. What the reference decoder does at each beginning of a byte sequence (R111), and how decompression runs through
a list of tokens (R112). -/

namespace Sys2Proof.Machine

@[simp] theorem deserialize_nil : deserialize [] = [] := rfl

@[simp] theorem deserialize_single (b : Byte) : deserialize [b] = [] := rfl

@[simp] theorem deserialize_literal (b : Byte) (rest : List Byte) :
    deserialize (Config.tagLit :: b :: rest) = .literal b :: deserialize rest := by
  conv_lhs => unfold deserialize
  rw [if_pos rfl]

@[simp] theorem deserialize_match (lo hi len : Byte) (rest : List Byte) :
    deserialize (Config.tagMatch :: lo :: hi :: len :: rest) = .matchRef (hi ++ lo) len :: deserialize rest := rfl

theorem deserialize_match_short (bs : List Byte) (h : bs.length < 3) : deserialize (Config.tagMatch :: bs) = [] := by
  match bs with
  | [] => rfl
  | [_] => rfl
  | [_, _] => rfl
  | _ :: _ :: _ :: _ =>
    simp only [List.length_cons] at h
    omega

theorem deserialize_unknown_tag {tag : Byte} (h : tag ≠ Config.tagLit) (h' : tag ≠ Config.tagMatch) (bs : List Byte) :
    deserialize (tag :: bs) = [] := by
  match bs with
  | [] => rfl
  | x :: rest =>
    conv_lhs => unfold deserialize
    rw [if_neg h, if_neg h']

/-- The offset bytes of a token, put together again (R72). -/
theorem offset_bytes_append (off : BitVec 16) : off.extractLsb' 8 8 ++ off.extractLsb' 0 8 = off := by
  have h := off.isLt
  rw [← BitVec.toNat_inj, BitVec.toNat_append, ← Nat.shiftLeft_add_eq_or_of_lt (BitVec.isLt _)]
  simp only [BitVec.extractLsb', BitVec.toNat_ofNat, Nat.shiftRight_eq_div_pow, Nat.shiftLeft_eq]
  omega

/-- The bytes of one token are read back as it, whatever follows (R71, R72, R111). -/
@[simp] theorem deserialize_token_bytes (t : Token) (rest : List Byte) :
    deserialize (t.bytes ++ rest) = t :: deserialize rest := by
  cases t with
  | literal b => exact deserialize_literal b rest
  | matchRef off len =>
    have h := deserialize_match (off.extractLsb' 0 8) (off.extractLsb' 8 8) len rest
    rw [offset_bytes_append] at h
    exact h

@[simp] theorem decompressFrom_nil (out : List Byte) : decompressFrom out [] = .ok out := rfl

theorem decompressFrom_cons {out out' : List Byte} {t : Token} (ts : List Token) (h : applyToken out t = .ok out') :
    decompressFrom out (t :: ts) = decompressFrom out' ts := by
  simp [decompressFrom, h]

/-- Decompression of a concatenation goes on where the first part ended. -/
theorem decompressFrom_append {out out' : List Byte} {ts : List Token} (ts' : List Token)
    (h : decompressFrom out ts = .ok out') : decompressFrom out (ts ++ ts') = decompressFrom out' ts' := by
  induction ts generalizing out with
  | nil =>
    simp only [decompressFrom_nil, Except.ok.injEq] at h
    rw [h, List.nil_append]
  | cons t ts ih =>
    cases ht : applyToken out t with
    | error e => simp [decompressFrom, ht] at h
    | ok o =>
      rw [decompressFrom_cons ts ht] at h
      rw [List.cons_append, decompressFrom_cons (ts ++ ts') ht]
      exact ih h

/-- Copying from `o` places back appends `l` bytes, each equal to the one `o` places before it, overlapping or not (R112). -/
theorem copyBytes_spec {o : Nat} (ho : 1 ≤ o) (l : Nat) {out : List Byte} (h : o ≤ out.length) :
    ∃ copied : List Byte, copyBytes o l out = out ++ copied ∧ copied.length = l ∧
      ∀ j < l, (out ++ copied)[out.length + j]? = (out ++ copied)[out.length + j - o]? := by
  induction l generalizing out with
  | zero => exact ⟨[], by simp [copyBytes], rfl, by simp⟩
  | succ l ih =>
    obtain ⟨x, hx⟩ : ∃ x, out[out.length - o]? = some x := ⟨_, List.getElem?_eq_getElem (by omega)⟩
    obtain ⟨c, h1, h2, h3⟩ := ih (out := out ++ [x]) (by simp; omega)
    refine ⟨x :: c, by simp [copyBytes, hx, h1], by simp [h2], fun j hj => ?_⟩
    have hassoc : out ++ x :: c = (out ++ [x]) ++ c := by simp
    rcases j with _ | j
    · rw [List.getElem?_append_right (by omega), List.getElem?_append_left (by omega)]
      simp [hx]
    · have hj' := h3 j (by omega)
      rw [hassoc]
      simpa [Nat.add_assoc, Nat.add_comm 1 j] using hj'

end Sys2Proof.Machine
end

