-- ==== Sys2Proof/Laws/Step.lean ====
section
/-! SUPPORT. What a command and a step can do, said once: the inversion of `exec` and of `step`, and the frame of a chunk
end from any block. Later proofs cite these and never unfold a meaning. -/

namespace Sys2Proof.Machine

open Sys2Proof.Config (Params)

/-! ### The chunk end from any block (R90) -/

/-- The scan emits tokens and changes the dictionary, and nothing else. -/
theorem scanLoop_frame (v : View) (n : Nat) (b : Block) (ins p : Nat) {r : Block × Nat}
    (h : scanLoop v n b ins p = some r) : ∃ ts d, r.1 = { b with dict := d }.emitTokens ts := by
  induction n generalizing b ins p with
  | zero =>
    simp only [scanLoop, Option.some.injEq] at h
    exact ⟨[], b.dict, by rw [← h]; rfl⟩
  | succ n ih =>
    rw [scanLoop] at h
    split at h
    · simp only [Option.bind_eq_some_iff] at h
      obtain ⟨c, -, h⟩ := h
      obtain ⟨ts, d, hr⟩ := ih _ _ _ h
      refine ⟨c.2 :: ts, d, hr.trans ?_⟩
      cases c.2 <;> rfl
    · cases h
      exact ⟨[], b.dict, rfl⟩

/-- The fields a chunk end writes, whatever the block. -/
theorem encodeChunk_frame {b b' : Block} (h : b.encodeChunk = some b') :
    ∃ ts d, b' = { b with
      dict := d
      win := trimWindow b.view
      absPos := BitVec.ofNat 64 b.view.ce
      chunk := []
      outq := b.outq ++ serialize ts
      litCount := b.litCount + BitVec.ofNat 32 (countLiterals ts)
      matchCount := b.matchCount + BitVec.ofNat 32 (countMatches ts) } := by
  simp only [Block.encodeChunk, Option.bind_eq_some_iff] at h
  obtain ⟨⟨b1, ins⟩, h1, h2⟩ := h
  obtain ⟨ts, d, rfl⟩ := scanLoop_frame _ _ _ _ _ h1
  simp only [completeChunk, Option.map_eq_some_iff] at h2
  obtain ⟨f, -, rfl⟩ := h2
  rw [emitTokens_eq]
  exact ⟨ts, f.dict, rfl⟩

/-- A change of the block that a chunk end neither reads nor makes: it commutes with a change of the dictionary, of the
emitted tokens and of the fields the completion writes. -/
structure Block.Unread (f : Block → Block) : Prop where
  act : ∀ b, (f b).act = b.act
  dict : ∀ b, (f b).dict = b.dict
  chunk : ∀ b, (f b).chunk = b.chunk
  view : ∀ b, (f b).view = b.view
  setDict : ∀ b d, { f b with dict := d } = f { b with dict := d }
  emit : ∀ b t, (f b).emitToken t = f (b.emitToken t)
  complete : ∀ b d w p, { f b with dict := d, win := w, absPos := p, chunk := [] } =
    f { b with dict := d, win := w, absPos := p, chunk := [] }

theorem scanLoop_unread {f : Block → Block} (hf : Block.Unread f) (v : View) (n : Nat) (b : Block) (ins p : Nat) :
    scanLoop v n (f b) ins p = (scanLoop v n b ins p).map fun r => (f r.1, r.2) := by
  induction n generalizing b ins p with
  | zero => rfl
  | succ n ih =>
    have hc : chooseToken v (f b).act { dict := (f b).dict, ins := ins } p =
        chooseToken v b.act { dict := b.dict, ins := ins } p := by rw [hf.act, hf.dict]
    rw [scanLoop, scanLoop, hc]
    split
    · cases chooseToken v b.act { dict := b.dict, ins := ins } p with
      | none => rfl
      | some r =>
        rw [Option.bind_some, Option.bind_some, hf.setDict, hf.emit, ih]
    · rfl

/-- A chunk end commutes with such a change. -/
theorem encodeChunk_unread {f : Block → Block} (hf : Block.Unread f) (b : Block) :
    (f b).encodeChunk = b.encodeChunk.map f := by
  rw [Block.encodeChunk, Block.encodeChunk, hf.view, hf.chunk, scanLoop_unread hf]
  cases scanLoop b.view b.chunk.length b b.view.cs b.view.cs with
  | none => rfl
  | some r =>
    have hc : syncDict b.view (f r.1).act.chainDepth.toNat b.view.ce { dict := (f r.1).dict, ins := r.2 } =
        syncDict b.view r.1.act.chainDepth.toNat b.view.ce { dict := r.1.dict, ins := r.2 } := by rw [hf.act, hf.dict]
    rw [Option.map_some, Option.bind_some, Option.bind_some, completeChunk, completeChunk, hc]
    cases syncDict b.view r.1.act.chainDepth.toNat b.view.ce { dict := r.1.dict, ins := r.2 } with
    | none => rfl
    | some g => exact congrArg some (hf.complete _ _ _ _)

theorem chunkEnd_unread {f : Block → Block} (hf : Block.Unread f) (b : Block) : (f b).chunkEnd = b.chunkEnd.map f := by
  by_cases h : b.chunk = []
  · rw [chunkEnd_nil h, chunkEnd_nil (by rw [hf.chunk, h])]
    rfl
  · rw [chunkEnd_cons h, chunkEnd_cons (by rwa [hf.chunk]), encodeChunk_unread hf]

/-- The queue's head, the configuration registers and the error fields are not read by a chunk end (R90, R105, R107). -/
theorem unread_queue_head (x : Byte) : Block.Unread fun b => { b with outq := x :: b.outq } where
  act _ := rfl
  dict _ := rfl
  chunk _ := rfl
  view _ := rfl
  setDict _ _ := rfl
  emit _ t := by cases t <;> rfl
  complete _ _ _ _ := rfl

theorem unread_cfg (c : CfgRegs) : Block.Unread fun b => { b with cfg := c } where
  act _ := rfl
  dict _ := rfl
  chunk _ := rfl
  view _ := rfl
  setDict _ _ := rfl
  emit _ t := by cases t <;> rfl
  complete _ _ _ _ := rfl

theorem unread_raiseErr (c : ErrCode) : Block.Unread fun b => b.raiseErr c where
  act _ := by cases c <;> rfl
  dict _ := by cases c <;> rfl
  chunk _ := by cases c <;> rfl
  view _ := by cases c <;> rfl
  setDict _ _ := by cases c <;> rfl
  emit _ t := by cases c <;> cases t <;> rfl
  complete _ _ _ _ := by cases c <;> rfl

/-- A byte appended to the chunk keeps the block encodable. -/
theorem appendByte_encodable {b : Block} (h : b.Encodable) (x : Byte) : (b.appendByte x).Encodable := by
  refine ⟨h.windowExact, h.dictForm, ?_, h.depthPos⟩
  intro e he r hr hlo
  rw [← h.dictKeyed e he r hr hlo]
  have h3 := (h.dictForm.2 e he).2.2.2.2 r hr
  refine keyAt_congr fun i hi => ?_
  have hc : r + i < b.absPos.toNat := by omega
  have hlo' : b.absPos.toNat - b.act.window.toNat ≤ r := hlo
  rw [byteAt_window, byteAt_window]
  · rfl
  · exact hc
  · show b.absPos.toNat - b.act.window.toNat ≤ r + i
    omega
  · exact hc
  · show b.absPos.toNat - b.act.window.toNat ≤ r + i
    omega

/-! ### The commands -/

/-- The errors a command can raise, and when (R123 to R125). -/
inductive ErrCase (s : State) : Instr → ErrCode → Prop
  | illegal {reg v} (h : 5 ≤ reg.toNat) : ErrCase s (.cfgWrite reg v) .illegal
  | dataOutside {x last} (h : s.blk.state ≠ .streaming) : ErrCase s (.data x last) .notStreaming
  | endOutside (h : s.blk.state ≠ .streaming) : ErrCase s .endChunk .notStreaming
  | finishOutside (h : s.blk.state ≠ .streaming) : ErrCase s .finish .notStreaming
  | full {x last} (h : s.blk.state = .streaming) (hf : s.blk.chunk.length = s.params.chunkMax) :
      ErrCase s (.data x last) .chunkOvf

/-- What `exec` can do to the block, guards included. -/
inductive ExecCase (s : State) : Instr → Block → Prop
  | nop : ExecCase s .nop s.blk
  | start : ExecCase s .start s.blk.startStream
  | err {i c} (h : ErrCase s i c) : ExecCase s i (s.blk.raiseErr c)
  | cfg {reg v} (h : reg.toNat ≤ 4) :
      ExecCase s (.cfgWrite reg v) { s.blk with cfg := s.blk.cfg.write s.params reg v }
  | data {x} (h : s.blk.state = .streaming) (hf : s.blk.chunk.length ≠ s.params.chunkMax)
      (hl : s.blk.reachesStreamLimit = false) : ExecCase s (.data x false) (s.blk.appendByte x)
  | dataLast {x b} (h : s.blk.state = .streaming) (hf : s.blk.chunk.length ≠ s.params.chunkMax)
      (hl : s.blk.reachesStreamLimit = false) (hb : (s.blk.appendByte x).encodeChunk = some b) :
      ExecCase s (.data x true) b
  | endEmpty (h : s.blk.state = .streaming) (hc : s.blk.chunk = []) : ExecCase s .endChunk s.blk
  | endChunk {b} (h : s.blk.state = .streaming) (hc : s.blk.chunk ≠ []) (hb : s.blk.encodeChunk = some b) :
      ExecCase s .endChunk b
  | finishEmpty (h : s.blk.state = .streaming) (hc : s.blk.chunk = []) : ExecCase s .finish s.blk.finishStream
  | finish {b} (h : s.blk.state = .streaming) (hc : s.blk.chunk ≠ []) (hb : s.blk.encodeChunk = some b) :
      ExecCase s .finish b.finishStream
  | lit {x} : ExecCase s (.lit x) (s.blk.emitLit x)
  | matchRef {off len} : ExecCase s (.matchRef off len) (s.blk.emitMatch off len)

/-- Whenever a command gives a next state, only the block changed, in one of the listed ways. -/
theorem exec_cases {s t : State} {i : Instr} (h : exec i s = .next t) : ∃ b, t = s.withBlk b ∧ ExecCase s i b := by
  cases i with
  | nop => cases h; exact ⟨s.blk, rfl, .nop⟩
  | start => cases h; exact ⟨_, rfl, .start⟩
  | lit b => cases h; exact ⟨_, rfl, .lit⟩
  | matchRef off len => cases h; exact ⟨_, rfl, .matchRef⟩
  | cfgWrite reg v =>
    simp only [exec, execCfgWrite] at h
    split at h
    · cases h; exact ⟨_, rfl, .cfg (by assumption)⟩
    · cases h; exact ⟨_, rfl, .err (.illegal (by omega))⟩
  | data x last =>
    simp only [exec, execData] at h
    split at h
    · cases h; exact ⟨_, rfl, .err (.dataOutside (by assumption))⟩
    · rename_i h1
      have h1 := not_not.mp h1
      split at h
      · cases h; exact ⟨_, rfl, .err (.full h1 (by assumption))⟩
      · rename_i h2
        split at h
        · cases h
        · rename_i h3
          have h3 : s.blk.reachesStreamLimit = false := by simpa using h3
          cases last with
          | true =>
            simp only [if_true] at h
            obtain ⟨b, hb, rfl⟩ := State.nextBlk_eq_next h
            rw [chunkEnd_cons (by simp)] at hb
            exact ⟨b, rfl, .dataLast h1 h2 h3 hb⟩
          | false => cases h; exact ⟨_, rfl, .data h1 h2 h3⟩
  | endChunk =>
    simp only [exec, execEndChunk] at h
    split at h
    · rename_i h1
      obtain ⟨b, hb, rfl⟩ := State.nextBlk_eq_next h
      by_cases hc : s.blk.chunk = []
      · rw [chunkEnd_nil hc] at hb; cases hb; exact ⟨_, rfl, .endEmpty h1 hc⟩
      · rw [chunkEnd_cons hc] at hb; exact ⟨_, rfl, .endChunk h1 hc hb⟩
    · cases h; exact ⟨_, rfl, .err (.endOutside (by assumption))⟩
  | finish =>
    simp only [exec, execFinish] at h
    split at h
    · rename_i h1
      obtain ⟨b, hb, rfl⟩ := State.nextBlk_eq_next h
      by_cases hc : s.blk.chunk = []
      · rw [chunkEnd_nil hc] at hb; cases hb; exact ⟨_, rfl, .finishEmpty h1 hc⟩
      · rw [chunkEnd_cons hc] at hb
        simp only [Option.map_eq_some_iff] at hb
        obtain ⟨b, hb, rfl⟩ := hb
        exact ⟨_, rfl, .finish h1 hc hb⟩
    · cases h; exact ⟨_, rfl, .err (.finishOutside (by assumption))⟩

/-- A change of the block that no command but START and CFG_WRITE reads or makes. -/
structure Block.Untouched (f : Block → Block) : Prop extends Block.Unread f where
  state : ∀ b, (f b).state = b.state
  limit : ∀ b, (f b).reachesStreamLimit = b.reachesStreamLimit
  append : ∀ b x, (f b).appendByte x = f (b.appendByte x)
  finish : ∀ b, (f b).finishStream = f b.finishStream
  emitLit : ∀ b x, (f b).emitLit x = f (b.emitLit x)
  emitMatch : ∀ b off len, (f b).emitMatch off len = f (b.emitMatch off len)
  raise : ∀ b c, (f b).raiseErr c = f (b.raiseErr c)

/-- Such a change, made before a command, is as if made after it. -/
theorem exec_untouched {f : Block → Block} (hf : Block.Untouched f) (s : State) {i : Instr} (h1 : i ≠ .start)
    (h2 : ∀ reg v, i ≠ .cfgWrite reg v) :
    exec i (s.withBlk (f s.blk)) =
      match exec i s with
      | .next t => .next (t.withBlk (f t.blk))
      | .fault e => .fault e
      | .refused e => .refused e := by
  have hu := hf.toUnread
  cases i with
  | nop => rfl
  | start => exact absurd rfl h1
  | cfgWrite reg v => exact absurd rfl (h2 reg v)
  | lit b => simp [exec, execLit, hf.emitLit, State.withBlk]
  | matchRef off len => simp [exec, execMatchRef, hf.emitMatch, State.withBlk]
  | data x last =>
    simp only [exec, execData, State.withBlk_blk, State.withBlk_params, hf.state, hu.chunk, hf.limit]
    by_cases hs : s.blk.state = .streaming
    · by_cases hc : s.blk.chunk.length = s.params.chunkMax
      · simp [hs, hc, hf.raise, State.withBlk]
      · cases hl : s.blk.reachesStreamLimit
        · cases last
          · simp [hs, hc, hf.append, State.withBlk]
          · simp only [hs, hc, hf.append, chunkEnd_unread hu, ne_eq, not_true_eq_false, if_false, if_true,
              Bool.false_eq_true]
            cases (s.blk.appendByte x).chunkEnd <;> rfl
        · simp [hs, hc]
    · simp [hs, hf.raise, State.withBlk]
  | endChunk =>
    simp only [exec, execEndChunk, State.withBlk_blk, hf.state, chunkEnd_unread hu]
    by_cases hs : s.blk.state = .streaming
    · simp only [hs, if_true]
      cases s.blk.chunkEnd <;> rfl
    · simp [hs, hf.raise, State.withBlk]
  | finish =>
    simp only [exec, execFinish, State.withBlk_blk, hf.state, chunkEnd_unread hu]
    by_cases hs : s.blk.state = .streaming
    · simp only [hs, if_true]
      cases s.blk.chunkEnd with
      | none => rfl
      | some b => simp [hf.finish, State.withBlk]
    · simp [hs, hf.raise, State.withBlk]

theorem untouched_queue_head (x : Byte) : Block.Untouched fun b => { b with outq := x :: b.outq } :=
  { unread_queue_head x with
    state := fun _ => rfl
    limit := fun _ => rfl
    append := fun _ _ => rfl
    finish := fun _ => rfl
    emitLit := fun _ _ => rfl
    emitMatch := fun _ _ _ => rfl
    raise := fun _ c => by cases c <;> rfl }

theorem untouched_cfg (c : CfgRegs) : Block.Untouched fun b => { b with cfg := c } :=
  { unread_cfg c with
    state := fun _ => rfl
    limit := fun _ => rfl
    append := fun _ _ => rfl
    finish := fun _ => rfl
    emitLit := fun _ _ => rfl
    emitMatch := fun _ _ _ => rfl
    raise := fun _ c => by cases c <;> rfl }

/-! ### The step -/

/-- What a step can do, by what stands at the head of the host's list. -/
inductive StepCase (s : State) : State → Prop
  | token {tok t} (hm : s.microOp = some tok) (h : exec tok.toInstr { s with microOp := none } = .next t) : StepCase s t
  | idle (hm : s.microOp = none) (hp : s.pending = []) : StepCase s s
  | command {w rest i t} (hm : s.microOp = none) (hp : s.pending = .command w :: rest) (hd : decodeCommand w = .ok i)
      (h : exec i s.popAction = .next t) : StepCase s t
  | illegal {w rest e} (hm : s.microOp = none) (hp : s.pending = .command w :: rest) (hd : decodeCommand w = .error e) :
      StepCase s (s.popAction.withBlk (s.blk.raiseErr .illegal))
  | transfer {rest} (hm : s.microOp = none) (hp : s.pending = .transfer :: rest) : StepCase s (hostTransfer s)
  | readback {i rest} (hm : s.microOp = none) (hp : s.pending = .readback i :: rest) : StepCase s (hostReadback i s)
  | reset {rest} (hm : s.microOp = none) (hp : s.pending = .reset :: rest) : StepCase s (hostReset s)

theorem step_cases {s t : State} (h : step s = .next t) : StepCase s t := by
  unfold step at h
  split at h
  · exact .token (by assumption) h
  · rename_i hm
    split at h
    · cases h; exact .idle hm (by assumption)
    · rename_i a rest hp
      cases a with
      | command w =>
        simp only [hostAct, acceptCommand] at h
        split at h
        · exact .command hm hp (by assumption) h
        · cases h; exact .illegal hm hp (by assumption)
      | transfer => cases h; exact .transfer hm hp
      | readback i => cases h; exact .readback hm hp
      | reset => cases h; exact .reset hm hp

/-- The transfer, by the queue (R88). -/
theorem hostTransfer_nil {s : State} (h : s.blk.outq = []) : hostTransfer s = s := by
  unfold hostTransfer
  rw [h]

theorem hostTransfer_cons {s : State} {x : Byte} {q : List Byte} (h : s.blk.outq = x :: q) :
    hostTransfer s = { s with
      blk := { s.blk with outq := q }, pending := s.pending.tail, delivered := s.delivered ++ [x] } := by
  unfold hostTransfer
  rw [h]
  rfl

end Sys2Proof.Machine
end

