-- ==== Sys2Proof/Tests/Slice0.lean ====
section
/-! SUPPORT. Tests of the model, and for every obligation with hypotheses a state and operands that meet them together.
Expected results come from spec/95_test_vectors.md (vectors T, V, K, X, RD, P; each test names its own) or from the text of
the rule it names. -/

namespace Sys2Proof.Machine.Tests

open Sys2Proof.Config (Params)

/-! ### Small states -/

/-- The next state of an outcome, none for a stop. -/
def nextOf : Host.Outcome State Fault Refusal → Option State
  | .next s => some s
  | .fault _ => none
  | .refused _ => none

/-- The instruction of an answer of the decoder, none for a rejection. -/
def okOf : Except DecodeError Instr → Option Instr
  | .ok i => some i
  | .error _ => none

/-- Reset, then START, then DATA for the given bytes, with `CHUNK_MAX` as given. -/
def openWith (chunkMax : Nat) (chunk : List Byte) : State :=
  { State.resetWith { Params.default with chunkMax := chunkMax } with
    blk := { Block.reset Params.default with state := .streaming, chunk := chunk } }

/-- A stream of window 1 that has `n` bytes behind it, the last one `a`; the dictionary lists position 0, which has left
the window, under the key of `aaa`. -/
def deepAt (n : Nat) (chunk : List Byte) : State :=
  { State.reset with
    blk := { Block.reset Params.default with
      state := .streaming
      cfg := { CfgRegs.reset Params.default with window := 1#16 }
      act := { CfgRegs.reset Params.default with window := 1#16 }
      absPos := BitVec.ofNat 64 n
      win := [(n - 1, 0x61#8)]
      dict := [(0x616161, [0])]
      chunk := chunk } }

/-- A finished stream with bytes behind it. -/
def finished : State :=
  { deepAt 6 [] with blk := { (deepAt 6 []).blk with state := .done, litCount := 6#32 } }

/-- A state no run reaches: a dictionary entry inside the window, and no byte in the window. -/
def brokenWindow : State :=
  { deepAt 6 [0x61#8, 0x61#8, 0x61#8] with
    blk := { (deepAt 6 [0x61#8, 0x61#8, 0x61#8]).blk with win := [], dict := [(0x616161, [5])] } }

/-- A state with the host's next actions. -/
def withPending (s : State) (as : List HostAction) : State := { s with pending := as }

/-- A state with both an error recorded and a byte queued. -/
def erred : State :=
  { State.reset with blk := { Block.reset Params.default with
      errIllegal := true, firstErr := some .illegal, outq := [0x00#8, 0x41#8] } }

/-! ### Syntax and encodings -/

/-- R67: the one operand check, and it refuses the ill-formed term. -/
theorem smoke_wellFormed_refuses_reg5 : (Instr.cfgWrite 5#4 0#16).wellFormed = false := by decide

theorem smoke_wellFormed_refuses_reg15 : (Instr.cfgWrite 15#4 0#16).wellFormed = false := by decide

theorem smoke_wellFormed_takes_reg4 : (Instr.cfgWrite 4#4 0xFFFF#16).wellFormed = true := by decide

/-- R114: neither START nor FINISH nor a token stands inside a stream. -/
theorem smoke_inStream : Instr.start.inStream = false ∧ Instr.finish.inStream = false ∧
    (Instr.lit 0#8).inStream = false ∧ (Instr.cfgWrite 5#4 0#16).inStream = false ∧ Instr.endChunk.inStream = true := by
  decide

/-- R63, K1. -/
theorem test_decode_nop : okOf (decodeCommand 0b00000000000000000000000000000000#32) = some .nop := by decide

/-- R64, K2. -/
theorem test_decode_start : okOf (decodeCommand 0b00010000000000000000000000000000#32) = some .start := by decide

/-- R65, X4: `DATA.L 'e'` is 20000165. -/
theorem test_decode_data : okOf (decodeCommand 0b00100000000000000000000101100101#32) = some (.data 0x65#8 true) := by decide

/-- R66, K5. -/
theorem test_decode_endChunk : okOf (decodeCommand 0b00110000000000000000000000000000#32) = some .endChunk := by decide

/-- R67, K9: `CFG MAX_MATCH, 300` is 4100012C. -/
theorem test_decode_cfgWrite : okOf (decodeCommand 0b01000001000000000000000100101100#32) = some (.cfgWrite 1#4 300#16) := by
  decide

/-- R68, K7. -/
theorem test_decode_finish : okOf (decodeCommand 0b01010000000000000000000000000000#32) = some .finish := by decide

/-- R71, T2. -/
theorem test_decode_lit : okOf (decodeToken [0b00000000#8, 0b11111111#8]) = some (.lit 0xFF#8) := by decide

/-- R72, T4: the offset 256 is `00 01`, low byte first. -/
theorem test_decode_match :
    okOf (decodeToken [0b00000001#8, 0b00000000#8, 0b00000001#8, 0b00000100#8]) = some (.matchRef 256#16 4#8) := by decide

/-- R69, X1: every word of the vector is illegal. -/
theorem test_decode_illegal :
    ([0x00000001#32, 0x10000001#32, 0x2000FE00#32, 0x45000000#32, 0x48000000#32, 0x40010000#32, 0x30000100#32].map
      fun w => okOf (decodeCommand w)) = List.replicate 7 none := by decide

/-- R75, RD1, RD2, RD3: no token. -/
theorem test_decode_bad_tokens : decodeToken [0x07#8, 0x00#8] = .error .unknownTag ∧
    decodeToken [0x01#8, 0x01#8, 0x00#8] = .error .truncatedToken ∧ decodeToken [0x00#8] = .error .truncatedToken := by
  refine ⟨rfl, rfl, rfl⟩

/-- T1, T3, T5, T6. -/
theorem test_encode_tokens : (Token.literal 0#8).bytes = [0#8, 0#8] ∧
    (Token.matchRef 1#16 3#8).bytes = [0x01#8, 0x01#8, 0x00#8, 0x03#8] ∧
    (Token.matchRef 258#16 255#8).bytes = [0x01#8, 0x02#8, 0x01#8, 0xFF#8] ∧
    (Token.matchRef 65535#16 255#8).bytes = [0x01#8, 0xFF#8, 0xFF#8, 0xFF#8] := by decide

/-- K8, K3: the encoder's words. -/
theorem test_encode_commands : encode (.cfgWrite 4#4 0xFFFF#16) = .command 0x4400FFFF#32 ∧
    encode (.data 0x61#8 false) = .command 0x20000061#32 ∧ encode (.data 0x41#8 true) = .command 0x20000141#32 := by decide

/-- The opcode table's numbering of the token rows (log 5) and of the command rows. -/
theorem test_tableWord : decodeTableWord 16 0x0041 = some (.lit 0x41#8) ∧
    decodeTableWord 32 0x01020104 = some (.matchRef 258#16 4#8) ∧ decodeTableWord 32 0x10000000 = some .start ∧
    decodeTableWord 32 0x00000000 = some .nop ∧ decodeTableWord 32 0x60000000 = none := by decide

/-! ### The commands, one step each -/

/-- R81, K1. -/
theorem test_nop : nextOf (step (State.reset.withFetchWord 32 0x00000000)) = some State.reset := by decide

/-- R82, K2: STATUS 0x00001001. -/
theorem test_start_status : (nextOf (step (State.reset.withFetchWord 32 0x10000000))).map
    (fun s => s.blk.read s.params 0x8#4) = some 0x00001001#32 := by decide

/-- R82, K10: the open chunk is discarded and the errors are cleared; the queue stays (K11). -/
theorem test_start_clears : (nextOf (exec .start erred)).map
    (fun s => (s.blk.chunk, s.blk.errIllegal, s.blk.firstErr, s.blk.outq)) = some ([], false, none, [0x00#8, 0x41#8]) := by
  decide

/-- R83, K3. -/
theorem test_data_appends : (nextOf (exec (.data 0x61#8 false) (openWith 65536 []))).map
    (fun s => (s.blk.chunk, s.blk.outq)) = some ([0x61#8], []) := by decide

/-- R83, K4: `DATA.L 'A'`. -/
theorem test_data_last : (nextOf (exec (.data 0x41#8 true) (openWith 65536 []))).map
    (fun s => (s.blk.outq, s.blk.absPos, s.blk.litCount, s.blk.read s.params 0x8#4)) =
      some ([0x00#8, 0x41#8], 1#64, 1#32, 0x00000001#32) := by decide

/-- R85, V5: `aaaa` is LIT a, MATCH 1, 3. -/
theorem test_endChunk_tokens : (nextOf (exec .endChunk (openWith 65536 [0x61#8, 0x61#8, 0x61#8, 0x61#8]))).map
    (fun s => (s.blk.outq, s.blk.absPos, s.blk.litCount, s.blk.matchCount)) =
      some ([0x00#8, 0x61#8, 0x01#8, 0x01#8, 0x00#8, 0x03#8], 4#64, 1#32, 1#32) := by decide

/-- R85, K5: an empty chunk changes nothing. -/
theorem test_endChunk_empty : nextOf (exec .endChunk (openWith 65536 [])) = some (openWith 65536 []) := by decide

/-- R86, K7: STATUS 0x00001002. -/
theorem test_finish : (nextOf (exec .finish (openWith 65536 []))).map (fun s => s.blk.read s.params 0x8#4) =
    some 0x00001002#32 := by decide

/-- R86, X2: FINISH outside STREAMING is NOT_STREAMING, STATUS 0x00001220. -/
theorem test_finish_idle : (nextOf (exec .finish State.reset)).map (fun s => s.blk.read s.params 0x8#4) =
    some 0x00001220#32 := by decide

/-- R87, K8: `CFG MAX_MATCH, 2` stores 3. -/
theorem test_cfgWrite_clamps_up : (nextOf (step (State.reset.withFetchWord 32 0x41000002))).map
    (fun s => s.blk.read s.params 0x1#4) = some 3#32 := by decide

/-- R87, K9: `CFG MAX_MATCH, 300` stores 0xFF. -/
theorem test_cfgWrite_clamps_down : (nextOf (step (State.reset.withFetchWord 32 0x4100012C))).map
    (fun s => s.blk.read s.params 0x1#4) = some 0xFF#32 := by decide

/-- R101, T2. -/
theorem test_lit : (nextOf (step (State.reset.withFetchWord 16 0x00FF))).map (fun s => (s.blk.outq, s.blk.litCount)) =
    some ([0x00#8, 0xFF#8], 1#32) := by decide

/-- R101, T5. -/
theorem test_match : (nextOf (step (State.reset.withFetchWord 32 0x010201FF))).map
    (fun s => (s.blk.outq, s.blk.matchCount)) = some ([0x01#8, 0x02#8, 0x01#8, 0xFF#8], 1#32) := by decide

/-- R125, X3: a full chunk of `CHUNK_MAX` = 4, STATUS 0x00001341, CHUNK_FILL 4. -/
theorem test_error_chunkOvf : (nextOf (exec (.data 0x65#8 false) (openWith 4 [0x61#8, 0x62#8, 0x63#8, 0x64#8]))).map
    (fun s => (s.blk.read s.params 0x8#4, s.blk.read s.params 0x9#4)) = some (0x00001341#32, 4#32) := by decide

/-- R123, X1: STATUS 0x00001110. -/
theorem test_error_illegal : (nextOf (acceptCommand 0x45000000#32 State.reset)).map (fun s => s.blk.read s.params 0x8#4) =
    some 0x00001110#32 := by decide

/-- R88, R43: a transfer and a readback. -/
theorem test_transfer : (nextOf (step (withPending erred [.transfer]))).map (fun s => (s.delivered, s.blk.outq)) =
    some ([0x00#8], [0x41#8]) := by decide

theorem test_readback : (nextOf (step (withPending State.reset [.readback 0xE#4]))).map (fun s => s.reads) =
    some [(0xE#4, 65536#32)] := by decide

/-- R51, P4: with a window of 1 only the last position stays. -/
theorem test_trim : (nextOf (exec .endChunk (deepAt 6 [0x61#8, 0x62#8]))).map (fun s => s.blk.win) =
    some [(7, 0x62#8)] := by decide

/-! ### The reference decoder and the notation -/

/-- RD1, RD2. -/
theorem test_deserialize : deserialize [0x00#8, 0x41#8, 0x07#8, 0x00#8, 0x42#8] = [.literal 0x41#8] ∧
    deserialize [0x00#8, 0x41#8, 0x01#8, 0x01#8, 0x00#8] = [.literal 0x41#8] := by decide

/-- RD4 to RD8. -/
theorem test_decompress : decompress [.literal 0x7A#8, .matchRef 1#16 10#8] = .ok (List.replicate 11 0x7A#8) ∧
    decompress [.literal 0x41#8, .matchRef 1#16 0#8] = .ok [0x41#8] ∧
    decompress [.literal 0x41#8, .matchRef 0#16 1#8] = .error .offsetZero ∧
    decompress [.matchRef 1#16 1#8] = .error .offsetBeyondOutput := by refine ⟨rfl, rfl, rfl, rfl⟩

/-- R77, R78: the words of K3, K9, P2, and `SEND.L` of the empty string. -/
theorem test_assembler : parseLine "DATA 'a' ; K3".toList = some [.data 0x61#8] ∧
    parseLine "CFG WINDOW_SIZE, 16".toList = some [.cfg .windowSize 16#16] ∧
    asmWords Params.default [.cfg .windowSize 16#16, .sendL [0x63#8, 0x61#8], .sendL []] =
      [0x40000010#32, 0x20000063#32, 0x20000161#32, 0x30000000#32] := by decide

/-! ### Witnesses: for each obligation with hypotheses, a state and operands that meet them together -/

/-- The invariant of the small states. -/
theorem inv_reset : State.reset.Inv :=
  ⟨by decide, ⟨by decide, by decide, by decide, by decide, by decide, by decide, by decide, by decide, by decide⟩⟩

theorem inv_openWith : (openWith 4 [0x61#8, 0x62#8, 0x63#8]).Inv :=
  ⟨by decide, ⟨by decide, by decide, by decide, by decide, by decide, by decide, by decide, by decide, by decide⟩⟩

theorem inv_openFull : (openWith 4 [0x61#8, 0x61#8, 0x61#8, 0x61#8]).Inv :=
  ⟨by decide, ⟨by decide, by decide, by decide, by decide, by decide, by decide, by decide, by decide, by decide⟩⟩

theorem inv_openEmpty : (openWith 4 []).Inv :=
  ⟨by decide, ⟨by decide, by decide, by decide, by decide, by decide, by decide, by decide, by decide, by decide⟩⟩

theorem inv_deep : (deepAt 6 [0x61#8, 0x61#8, 0x61#8]).Inv :=
  ⟨by decide, ⟨by decide, by decide, by decide, by decide, by decide, by decide, by decide, by decide, by decide⟩⟩

theorem inv_deepShort : (deepAt 6 [0x61#8]).Inv ∧ (deepAt 6 [0x61#8, 0x61#8]).Inv :=
  ⟨⟨by decide, ⟨by decide, by decide, by decide, by decide, by decide, by decide, by decide, by decide, by decide⟩⟩,
    ⟨by decide, ⟨by decide, by decide, by decide, by decide, by decide, by decide, by decide, by decide, by decide⟩⟩⟩

theorem inv_deepLast : (deepAt (2 ^ 64 - 1) []).Inv :=
  ⟨by decide, ⟨by decide, by decide, by decide, by decide, by decide, by decide, by decide, by decide, by decide⟩⟩

theorem inv_deepLastButOne : (deepAt (2 ^ 64 - 2) []).Inv :=
  ⟨by decide, ⟨by decide, by decide, by decide, by decide, by decide, by decide, by decide, by decide, by decide⟩⟩

theorem inv_erred : erred.Inv :=
  ⟨by decide, ⟨by decide, by decide, by decide, by decide, by decide, by decide, by decide, by decide, by decide⟩⟩

/-- The largest and the smallest legal parameters. -/
theorem witness_params : Params.Legal { windowMax := 1, chunkMax := 1, probeCapMax := 32, chainDepthMax := 64 } ∧
    Params.Legal { windowMax := 65535, chunkMax := 2 ^ 32 - 1, probeCapMax := 65535, chainDepthMax := 65535 } := by decide

theorem witness_EncodedInstructionsDecodeBack : (Instr.cfgWrite 4#4 0xFFFF#16).wellFormed = true ∧
    (Instr.matchRef 0xFFFF#16 0xFF#8).wellFormed = true := by decide

theorem witness_LegalWordsReencodeToThemselves : decodeCommand 0x200001FF#32 = .ok (.data 0xFF#8 true) ∧
    decodeCommand 0x4400FFFF#32 = .ok (.cfgWrite 4#4 0xFFFF#16) := ⟨rfl, rfl⟩

/-- One word at a boundary of each case of R69, and the legal neighbours. -/
theorem witness_WordsAreIllegalExactlyAsListed :
    IllegalWord 0x60000000#32 ∧ IllegalWord 0xFFFFFFFF#32 ∧ IllegalWord 0x00000001#32 ∧ IllegalWord 0x5FFFFFFF#32 ∧
      IllegalWord 0x20000200#32 ∧ IllegalWord 0x40010000#32 ∧ IllegalWord 0x45000000#32 ∧ IllegalWord 0x4F00FFFF#32 ∧
      ¬ IllegalWord 0x50000000#32 ∧ ¬ IllegalWord 0x200001FF#32 ∧ ¬ IllegalWord 0x4400FFFF#32 := by
  simp [IllegalWord]

theorem witness_DataWordsFollowFormatD : decodeCommand 0x20000100#32 = .ok (.data 0#8 true) ∧
    decodeCommand 0x200000FF#32 = .ok (.data 0xFF#8 false) := ⟨rfl, rfl⟩

theorem witness_CfgWriteWordsFollowFormatC : decodeCommand 0x44000001#32 = .ok (.cfgWrite 4#4 1#16) ∧
    (4#4 : BitVec 4).toNat ≤ 4 ∧ (0x45000000#32).toNat / 2 ^ 28 = 4 ∧ 5 ≤ (0x45000000#32).toNat / 2 ^ 24 % 2 ^ 4 :=
  ⟨rfl, by decide, by decide, by decide⟩

theorem witness_DeserializeReadsTokensAndStopsCleanly : ([0x01#8, 0x00#8] : List Byte).length < 3 ∧
    2 ≤ (0x02#8 : Byte).toNat ∧ 2 ≤ (0xFF#8 : Byte).toNat := by decide

/-- Each clause of R112 at its boundary: length 0 with offset 0, length 1 and 255 with an offset equal to the output, offset
0, and an offset one beyond the output. -/
theorem witness_DecompressCopiesOneByteAtATime :
    (∃ o, applyToken [] (.matchRef 0#16 0#8) = .ok o) ∧ (∃ o, applyToken [0x41#8] (.matchRef 1#16 1#8) = .ok o) ∧
      (∃ e, applyToken [] (.matchRef 1#16 1#8) = .error e) ∧ 1 ≤ (255#8 : Byte).toNat ∧ (2#16 : BitVec 16).toNat ≤ [0x41#8, 0x42#8].length ∧ (0#16 : BitVec 16).toNat = 0 ∧
      [0x41#8].length < (2#16 : BitVec 16).toNat :=
  ⟨⟨_, rfl⟩, ⟨_, rfl⟩, ⟨_, rfl⟩, by decide, by decide, by decide, by decide⟩

theorem witness_ResetLeavesEveryFieldAsListed : Params.default.Legal := by decide

theorem witness_ResetActionRestoresTheResetBlock :
    (withPending erred [.reset, .transfer]).microOp = none ∧ (withPending erred [.reset, .transfer]).pending = .reset :: [.transfer] := by
  decide

/-- The clauses of R83 and R125: IDLE, the chunk full at `CHUNK_MAX`, and the last byte the stream can take. -/
theorem witness_DataAppendsItsByte : State.reset.blk.state ≠ .streaming ∧
    (openWith 1 [0x61#8]).blk.chunk.length = (openWith 1 [0x61#8]).params.chunkMax ∧
    (deepAt (2 ^ 64 - 2) []).blk.state = .streaming ∧
    (deepAt (2 ^ 64 - 2) []).blk.chunk.length ≠ (deepAt (2 ^ 64 - 2) []).params.chunkMax ∧
    (deepAt (2 ^ 64 - 2) []).blk.absPos.toNat + (deepAt (2 ^ 64 - 2) []).blk.chunk.length + 1 < 2 ^ 64 ∧
    (deepAt (2 ^ 64 - 2) []).Inv := ⟨by decide, by decide, by decide, by decide, by decide, inv_deepLastButOne⟩

theorem witness_EndChunkEncodesTheOpenChunk : (openWith 4 []).blk.chunk = [] ∧ (openWith 4 []).blk.state = .streaming ∧
    (deepAt 6 [0x61#8]).blk.chunk ≠ [] ∧ (deepAt 6 [0x61#8]).blk.state = .streaming ∧ (deepAt 6 [0x61#8]).Inv ∧
    State.reset.blk.state ≠ .streaming := ⟨by decide, by decide, by decide, by decide, inv_deepShort.1, by decide⟩

theorem witness_FinishEndsTheStream : (openWith 4 []).blk.chunk = [] ∧ (openWith 4 []).blk.state = .streaming ∧
    (deepAt 6 [0x61#8]).blk.chunk ≠ [] ∧ (deepAt 6 [0x61#8]).blk.state = .streaming ∧ (deepAt 6 [0x61#8]).Inv ∧
    State.reset.blk.state ≠ .streaming ∧ finished.blk.state = .done ∧
    (∃ t, step (withPending finished [.readback 0xA#4]) = .next t) ∧
    (∃ t, step (withPending finished [.command 0x20000061#32]) = .next t) ∧
    (withPending finished [.command 0x20000061#32]).pending.head? ≠ some .reset ∧
    (withPending finished [.command 0x20000061#32]).pending.head? ≠ some (.command 0x10000000#32) :=
  ⟨by decide, by decide, by decide, by decide, inv_deepShort.1, by decide, by decide, ⟨_, rfl⟩, ⟨_, rfl⟩, by decide, by decide⟩

/-- REG at 4 and at 5, and the two kinds of illegal CFG_WRITE word. -/
theorem witness_CfgWriteStoresTheLegalValue : State.reset.params.Legal ∧ (4#4 : BitVec 4).toNat ≤ 4 ∧
    5 ≤ (5#4 : BitVec 4).toNat ∧ (0x45000000#32).toNat / 2 ^ 28 = 4 ∧ 5 ≤ (0x45000000#32).toNat / 2 ^ 24 % 2 ^ 4 ∧
    (0x40010000#32).toNat / 2 ^ 28 = 4 ∧ (0x40010000#32).toNat / 2 ^ 16 % 2 ^ 8 ≠ 0 := by decide

theorem witness_StreamCommandsOutsideStreamingAreErrors : State.reset.blk.state = .idle ∧
    { State.reset.blk with state := .done }.state = .done := by decide

theorem witness_DataReachingTwoToThe64IsRefused : (deepAt (2 ^ 64 - 1) []).Inv ∧
    exec (.data 0#8 false) (deepAt (2 ^ 64 - 1) []) = .refused .streamOf2Pow64Bytes ∧
    (∃ t, exec (.data 0#8 false) (deepAt (2 ^ 64 - 2) []) = .next t) := ⟨inv_deepLast, rfl, ⟨_, rfl⟩⟩

theorem witness_AcceptFollowsTheOpcode : IllegalWord 0x60000000#32 ∧ ¬ IllegalWord 0x00000000#32 ∧
    ¬ IllegalWord 0x10000000#32 ∧ ¬ IllegalWord 0x200001FF#32 ∧ ¬ IllegalWord 0x30000000#32 ∧
    ¬ IllegalWord 0x4400FFFF#32 ∧ ¬ IllegalWord 0x50000000#32 ∧ State.reset.blk.state ≠ .streaming ∧
    (openWith 1 [0x61#8]).blk.state = .streaming ∧
    (openWith 1 [0x61#8]).blk.chunk.length = (openWith 1 [0x61#8]).params.chunkMax := by
  simp [IllegalWord]
  decide

theorem witness_ErrorsFollowTheirPriority : IllegalWord 0x20000200#32 ∧
    decodeCommand 0x20000165#32 = .ok (.data 0x65#8 true) ∧ decodeCommand 0x30000000#32 = .ok .endChunk ∧
    decodeCommand 0x50000000#32 = .ok .finish ∧ State.reset.blk.state ≠ .streaming ∧
    (openWith 1 [0x61#8]).blk.state = .streaming ∧
    (openWith 1 [0x61#8]).blk.chunk.length = (openWith 1 [0x61#8]).params.chunkMax ∧
    (∃ t, acceptCommand 0x20000165#32 State.reset = .next t) ∧ State.reset.blk.errOut = false := by
  refine ⟨?_, rfl, rfl, rfl, by decide, by decide, by decide, ⟨_, rfl⟩, by decide⟩
  simp [IllegalWord]

theorem witness_ErrorActionSetsOneBitAndTheFirstCode : State.reset.blk.firstErr = none ∧ erred.blk.firstErr ≠ none := by decide

/-- A START, a reset and a readback, each with an error recorded before it. -/
theorem witness_OnlyStartAndResetClearErrors : (∃ t, exec .finish (openWith 4 []) = .next t) ∧ erred.blk.errIllegal = true ∧ erred.blk.firstErr = some .illegal ∧
    (∃ t, step (withPending erred [.command 0x10000000#32]) = .next t) ∧
    (∃ t, step (withPending erred [.reset]) = .next t) ∧
    (∃ t, step (withPending erred [.readback 0x8#4]) = .next t) :=
  ⟨⟨_, rfl⟩, by decide, by decide, ⟨_, rfl⟩, ⟨_, rfl⟩, ⟨_, rfl⟩⟩

theorem witness_StepRunsTheDecodedInstruction :
    (withPending State.reset [.command 0x10000000#32]).microOp = none ∧
      (withPending State.reset [.command 0x10000000#32]).pending = .command 0x10000000#32 :: [] ∧
      decode (.command 0x10000000#32) = .ok .start ∧ decode (.command 0x60000000#32) = .error .reservedOpcode ∧
      (State.reset.withFetchWord 16 0x0041).microOp = some (.literal 0x41#8) ∧
      (State.reset.withFetchWord 32 0x01020104).microOp = some (.matchRef 258#16 4#8) ∧ State.reset.pending = [] :=
  ⟨rfl, rfl, rfl, rfl, rfl, rfl, rfl⟩

theorem witness_OutputTransferDeliversTheHead : (withPending erred [.transfer]).pending = .transfer :: [] ∧
    erred.blk.outq = 0x00#8 :: [0x41#8] ∧ State.reset.blk.outq = [] := by decide

theorem witness_ReadbackChangesNoState : (withPending erred [.readback 0xF#4]).pending = .readback 0xF#4 :: [] ∧
    (withPending erred [.readback 0xF#4]).microOp = none := by decide

theorem witness_StreamReadbacks : (openWith 4 [0x61#8, 0x62#8, 0x63#8]).Inv ∧
    (∃ t, step (withPending (openWith 4 [0x61#8, 0x62#8, 0x63#8]) [.readback 0xA#4]) = .next t) ∧
    (∃ t, exec (.cfgWrite 0#4 0xFFFF#16) (openWith 4 [0x61#8, 0x62#8, 0x63#8]) = .next t) ∧
    (∃ t, exec (.cfgWrite 2#4 0xFFFF#16) (openWith 4 [0x61#8, 0x62#8, 0x63#8]) = .next t) ∧
    (∃ t, exec (.cfgWrite 3#4 0xFFFF#16) (openWith 4 [0x61#8, 0x62#8, 0x63#8]) = .next t) :=
  ⟨inv_openWith, ⟨_, rfl⟩, ⟨_, rfl⟩, ⟨_, rfl⟩, ⟨_, rfl⟩⟩

theorem witness_ErrOutputIsTheOrOfTheStickyBits : erred.blk.errOut = true ∧
    (∃ t, step (withPending erred [.command 0x10000000#32]) = .next t ∧ t.blk.errOut = false) := ⟨by decide, ⟨_, rfl, rfl⟩⟩

theorem witness_BytesAreReadableExactlyInTheWindowAndChunk : (deepAt 6 [0x61#8, 0x61#8, 0x61#8]).blk.Inv Params.default ∧
    (deepAt 6 [0x61#8, 0x61#8, 0x61#8]).blk.chunk ≠ [] ∧ brokenWindow.blk.state = .streaming ∧
    brokenWindow.blk.chunk ≠ [] ∧ brokenWindow.blk.encodeChunk = none := ⟨inv_deep.blk, by decide, by decide, by decide, by decide⟩

theorem witness_DictInsertPutsThePositionInFront :
    (∃ d, dictInsert (deepAt 6 [0x61#8, 0x61#8, 0x61#8]).blk.view 64 6 [(0x616161, [0])] = some d) ∧
      (dictLookup [(0x616161, [0])] 0x616161).Pairwise (· > ·) ∧ (∀ r ∈ dictLookup [(0x616161, [0])] 0x616161, r < 6) :=
  ⟨⟨_, rfl⟩, by decide, by decide⟩

theorem witness_TrimKeepsTheLastWindowBytes : (deepAt 6 [0x61#8]).blk.Inv Params.default ∧
    (deepAt 6 [0x61#8]).blk.chunk ≠ [] ∧ (∃ b, (deepAt 6 [0x61#8]).blk.encodeChunk = some b) :=
  ⟨inv_deepShort.1.blk, by decide, ⟨_, rfl⟩⟩

/-- A search that finds a match, and one with 2 bytes left. -/
theorem witness_SearchesStayWithinTheLimit :
    (∃ f, findMatch (deepAt 6 [0x61#8, 0x61#8, 0x61#8]).blk.view (deepAt 6 []).blk.act { dict := [(0x616161, [5])], ins := 6 } 6 =
      some (f, 3, 1)) ∧
    min (deepAt 6 []).blk.act.maxMatch.toNat ((deepAt 6 [0x61#8, 0x61#8]).blk.view.ce - 6) < 3 ∧
    (∃ f, syncDict (deepAt 6 [0x61#8, 0x61#8]).blk.view 64 6 { dict := [], ins := 6 } = some f) :=
  ⟨⟨_, rfl⟩, by decide, ⟨_, rfl⟩⟩

/-- One candidate at distance 1, the window's last, and one out of it. -/
theorem witness_HashCandidatesAreTheRecentSameKeyPositions :
    (deepAt 6 [0x61#8, 0x61#8, 0x61#8]).blk.view.keyAt 6 = some 0x616161 ∧
      (dictLookup [(0x616161, [5, 0])] 0x616161).Pairwise (· > ·) ∧
      (∀ r ∈ dictLookup [(0x616161, [5, 0])] 0x616161, r < 6 ∧ (6 - r ≤ (deepAt 6 []).blk.act.window.toNat →
        (deepAt 6 [0x61#8, 0x61#8, 0x61#8]).blk.view.keyAt r = some 0x616161)) ∧
      candHash (deepAt 6 [0x61#8, 0x61#8, 0x61#8]).blk.view (deepAt 6 []).blk.act [(0x616161, [5, 0])] 6 = some [5] := by decide

theorem witness_MatchLenCountsEqualBytes :
    matchLen (deepAt 6 [0x61#8, 0x61#8, 0x62#8]).blk.view 5 6 3 = some 2 ∧
      matchLen (deepAt 6 [0x61#8, 0x61#8, 0x61#8]).blk.view 5 6 3 = some 3 := by decide

theorem witness_BestIsTheFirstLongestCandidate :
    best (deepAt 6 [0x61#8, 0x61#8, 0x61#8]).blk.view [5] 6 3 = some (3, 1) ∧
      best (deepAt 6 [0x61#8, 0x61#8, 0x61#8]).blk.view [] 6 3 = some (0, 0) := by decide

/-- `abc` three times, as V8, in one chunk. -/
def viewV8 : View :=
  (openWith 99 [0x61#8, 0x62#8, 0x63#8, 0x61#8, 0x62#8, 0x63#8, 0x61#8, 0x62#8, 0x63#8]).blk.view

/-- The configuration after reset, in exhaustive mode. -/
def exhCfg : CfgRegs := { CfgRegs.reset Params.default with exhaustive := true }

/-- Limit 2 and limit 3, both search modes, a best length of 3 or more and one below; then the search that is repeated. -/
theorem witness_FindMatchTwiceGivesTheSameAnswer :
    (∃ f, syncDict viewV8 64 7 { dict := [], ins := 0 } = some f) ∧ min exhCfg.maxMatch.toNat (viewV8.ce - 7) < 3 ∧
    (∃ f, syncDict viewV8 64 6 { dict := [], ins := 0 } = some f ∧
      3 ≤ min exhCfg.maxMatch.toNat (viewV8.ce - 6) ∧ exhCfg.exhaustive = true ∧
      best viewV8 (candExh exhCfg 6) 6 (min exhCfg.maxMatch.toNat (viewV8.ce - 6)) = some (3, 3) ∧
      (CfgRegs.reset Params.default).exhaustive = false ∧
      candHash viewV8 (CfgRegs.reset Params.default) f.dict 6 = some [3, 0] ∧ best viewV8 [3, 0] 6 3 = some (3, 3)) ∧
    candHash viewV8 (CfgRegs.reset Params.default) [] 0 = some [] ∧ best viewV8 [] 0 9 = some (0, 0) ∧
    (∃ f, findMatch viewV8 (CfgRegs.reset Params.default) { dict := [], ins := 0 } 3 = some (f, 6, 3)) :=
  ⟨⟨_, rfl⟩, by decide, ⟨_, rfl, by decide, rfl, by decide, rfl, by decide, by decide⟩, by decide, by decide, ⟨_, rfl⟩⟩

/-- `abcbcdefabcdef`: at position 8 the match has length 3, at 9 one of length 5. -/
def viewDefer : View :=
  (openWith 99 [0x61#8, 0x62#8, 0x63#8, 0x62#8, 0x63#8, 0x64#8, 0x65#8, 0x66#8, 0x61#8, 0x62#8, 0x63#8, 0x64#8, 0x65#8,
    0x66#8]).blk.view

/-- Each clause: no match at the first and at the last position, a match without lazy evaluation, the deferral of V11 in
small, a match of the greatest length; then a turn of the scan, its end, and a chunk end. -/
theorem witness_LazyEvaluationDefersOnlyForALongerMatch :
    (∃ f, findMatch viewDefer (CfgRegs.reset Params.default) { dict := [], ins := 0 } 0 = some (f, 0, 0) ∧
      viewDefer.byteAt 0 = some 0x61#8) ∧
    (∃ f, findMatch viewDefer (CfgRegs.reset Params.default) { dict := [], ins := 0 } 13 = some (f, 0, 0) ∧
      viewDefer.byteAt 13 = some 0x66#8 ∧ viewDefer.ce ≤ 13 + 1) ∧
    (∃ f, findMatch viewDefer { CfgRegs.reset Params.default with lazyEn := false } { dict := [], ins := 0 } 8 = some (f, 3, 8) ∧
      viewDefer.byteAt 8 = some 0x61#8) ∧
    (∃ f1 f2, findMatch viewDefer (CfgRegs.reset Params.default) { dict := [], ins := 0 } 8 = some (f1, 3, 8) ∧
      findMatch viewDefer (CfgRegs.reset Params.default) f1 9 = some (f2, 5, 6) ∧ viewDefer.byteAt 8 = some 0x61#8 ∧
      (CfgRegs.reset Params.default).lazyEn = true) ∧
    (∃ f1 f2, findMatch viewDefer { CfgRegs.reset Params.default with maxMatch := 3#8 } { dict := [], ins := 0 } 8 =
        some (f1, 3, 8) ∧
      findMatch viewDefer { CfgRegs.reset Params.default with maxMatch := 3#8 } f1 9 = some (f2, 3, 6)) ∧
    (∃ g t, chooseToken (openWith 9 [0x61#8]).blk.view (CfgRegs.reset Params.default) { dict := [], ins := 0 } 0 = some (g, t)) ∧
    (openWith 9 [0x61#8]).blk.view.ce ≤ 1 ∧ (∃ b, (openWith 9 [0x61#8]).blk.encodeChunk = some b) :=
  ⟨⟨_, rfl, rfl⟩, ⟨_, rfl, rfl, by decide⟩, ⟨_, rfl, rfl⟩, ⟨_, _, rfl, rfl, rfl, rfl⟩, ⟨_, _, rfl, rfl⟩, ⟨_, _, rfl⟩,
    by decide, ⟨_, rfl⟩⟩

theorem witness_ChunkTokensStandForTheChunk : (openWith 4 [0x61#8, 0x61#8, 0x61#8, 0x61#8]).blk.Inv
      (openWith 4 [0x61#8, 0x61#8, 0x61#8, 0x61#8]).params ∧ (openWith 4 [0x61#8, 0x61#8, 0x61#8, 0x61#8]).blk.chunk ≠ [] :=
  ⟨inv_openFull.blk, by decide⟩

theorem witness_ChunkEndInsertsEveryInsertablePosition : (deepAt 6 [0x61#8, 0x61#8, 0x61#8]).blk.Inv Params.default ∧
    (deepAt 6 [0x61#8, 0x61#8, 0x61#8]).blk.chunk ≠ [] ∧
    (∃ b, (deepAt 6 [0x61#8, 0x61#8, 0x61#8]).blk.encodeChunk = some b ∧ dictLookup b.dict 0x616161 = [6, 0]) ∧
    (deepAt 6 [0x61#8, 0x61#8, 0x61#8]).blk.absPos.toNat ≤ 6 ∧
    (∃ f, syncDict (deepAt 6 [0x61#8, 0x61#8, 0x61#8]).blk.view 64 6 { dict := [(0x616161, [0])], ins := 6 } = some f ∧
      dictLookup f.dict 0x616161 = [0]) ∧
    (∃ f, syncDict (deepAt 6 [0x61#8, 0x61#8, 0x61#8]).blk.view 64 7 { dict := [(0x616161, [0])], ins := 6 } = some f ∧
      dictLookup f.dict 0x616161 = [6, 0]) :=
  ⟨inv_deep.blk, by decide, ⟨_, rfl, by decide⟩, by decide, ⟨_, rfl, by decide⟩, ⟨_, rfl, by decide⟩⟩

theorem witness_ChunkEndWritesOnlyItsFields : ∃ b, (deepAt 6 [0x61#8]).blk.encodeChunk = some b := ⟨_, rfl⟩

theorem witness_ShortChunksAreAllLiterals : (deepAt 6 [0x61#8]).blk.Inv Params.default ∧
    (deepAt 6 [0x61#8]).blk.chunk.length = 1 ∧ (deepAt 6 [0x61#8, 0x61#8]).blk.Inv Params.default ∧
    (deepAt 6 [0x61#8, 0x61#8]).blk.chunk.length = 2 := ⟨inv_deepShort.1.blk, rfl, inv_deepShort.2.blk, rfl⟩

/-- A block whose dictionary has an entry that left the window. -/
theorem witness_PurgingStaleEntriesChangesNoToken : (deepAt 6 [0x61#8, 0x61#8, 0x61#8]).blk.Inv Params.default ∧
    (deepAt 6 [0x61#8, 0x61#8, 0x61#8]).blk.purgeStale.dict = [] ∧
    (deepAt 6 [0x61#8, 0x61#8, 0x61#8]).blk.dict ≠ [] := ⟨inv_deep.blk, by decide, by decide⟩

theorem witness_FrameOfCommandsThatEndNoChunk : (∃ t, exec .nop (openWith 4 []) = .next t) ∧
    (∃ t, exec .start (openWith 4 []) = .next t) ∧ (∃ t, exec (.cfgWrite 4#4 0#16) (openWith 4 []) = .next t) ∧
    (∃ t, exec (.cfgWrite 5#4 0#16) (openWith 4 []) = .next t) ∧
    (∃ t, exec (.data 0#8 false) (openWith 4 []) = .next t) := ⟨⟨_, rfl⟩, ⟨_, rfl⟩, ⟨_, rfl⟩, ⟨_, rfl⟩, ⟨_, rfl⟩⟩

theorem witness_FrameOfCommandsThatEndAChunk : (∃ t, exec (.data 0#8 true) (deepAt 6 []) = .next t) ∧
    (∃ t, exec .endChunk (deepAt 6 [0x61#8]) = .next t) ∧ (∃ t, exec .finish (deepAt 6 [0x61#8]) = .next t) ∧
    (∃ t, exec .finish State.reset = .next t) := ⟨⟨_, rfl⟩, ⟨_, rfl⟩, ⟨_, rfl⟩, ⟨_, rfl⟩⟩

theorem witness_InvariantHoldsAtReset : Params.default.Legal := by decide

theorem witness_EveryStepKeepsTheInvariant : (deepAt 6 [0x61#8, 0x61#8, 0x61#8]).Inv ∧
    (∃ t, step ((deepAt 6 [0x61#8, 0x61#8, 0x61#8]).withFetchWord 32 0x30000000) = .next t) := ⟨inv_deep, ⟨_, rfl⟩⟩

/-- The one stop a state with the invariant can meet. -/
theorem witness_NoStepFaultsFromTheInvariant : (deepAt (2 ^ 64 - 1) []).Inv ∧
    step ((deepAt (2 ^ 64 - 1) []).withFetchWord 32 0x20000000) = .refused .streamOf2Pow64Bytes := ⟨inv_deepLast, rfl⟩

theorem witness_EveryStepKeepsTheCanonicalForms : Memory.wf (deepAt 6 [0x61#8]).blk.win = true ∧
    Dict.wf (deepAt 6 [0x61#8]).blk.dict = true ∧
    (∃ t, step ((deepAt 6 [0x61#8]).withFetchWord 32 0x30000000) = .next t) := ⟨by decide, by decide, ⟨_, rfl⟩⟩

theorem witness_ProducedBytesOnlyGrow : (∃ t, step (withPending erred [.reset]) = .next t) ∧
    (∃ t, step ((deepAt 6 [0x61#8]).withFetchWord 32 0x30000000) = .next t ∧ t.produced = [0x00#8, 0x61#8]) :=
  ⟨⟨_, rfl⟩, ⟨_, rfl, by decide⟩⟩

theorem witness_OutputTransfersCommuteWithCommands : erred.blk.outq = 0x00#8 :: [0x41#8] ∧
    (∃ t, exec .nop erred = .next t) := ⟨rfl, ⟨_, rfl⟩⟩

theorem witness_OpenStreamsIgnoreConfigurationWrites : Instr.endChunk ≠ .start ∧ (∀ r v, Instr.endChunk ≠ .cfgWrite r v) ∧
    (∃ t, exec .endChunk (deepAt 6 [0x61#8]) = .next t) := ⟨by decide, by simp, ⟨_, rfl⟩⟩

/-- A stream of two chunks with a configuration write inside it. -/
theorem witness_EveryStreamRoundTrips : State.reset.Inv ∧
    (∀ i ∈ [Instr.data 0x61#8 true, .cfgWrite 0#4 1#16, .data 0x62#8 false, .endChunk], i.inStream = true) ∧
    (∃ t, execAll (.start :: [Instr.data 0x61#8 true, .cfgWrite 0#4 1#16, .data 0x62#8 false, .endChunk] ++ [.finish]) State.reset =
      .next t ∧ t.blk.errOut = false) := ⟨inv_reset, by decide, ⟨_, rfl, rfl⟩⟩

theorem witness_EmittedBytesDecodeToTheCompletedChunks : State.reset.Inv ∧
    (∀ i ∈ [Instr.data 0x61#8 true, .data 0x62#8 false], i.inStream = true) ∧
    (∃ t, execAll (.start :: [Instr.data 0x61#8 true, .data 0x62#8 false]) State.reset = .next t ∧ t.blk.errOut = false) :=
  ⟨inv_reset, by decide, ⟨_, rfl, rfl⟩⟩

/-- An empty buffer, and one that fills the chunk exactly. -/
theorem witness_WholeBufferEncodingCompletesAndRoundTrips : (openWith 4 []).Inv ∧
    ([] : List Byte).length ≤ (openWith 4 []).params.chunkMax ∧
    [0x61#8, 0x61#8, 0x61#8, 0x61#8].length ≤ (openWith 4 []).params.chunkMax := ⟨inv_openEmpty, by decide, by decide⟩

end Sys2Proof.Machine.Tests
end

section
/-! SUPPORT. The proofs of the family 10_state: what a step can do to the block, the invariant and the canonical forms over
every step, and the readbacks. -/

namespace Sys2Proof.Machine

open Sys2Proof.Config (Params)

/-! ### What a step can do to the block -/

/-- A step keeps the parameters, and changes the block by a reset, by its output queue alone, by the error action, or by one
of the cases of `exec`. -/
theorem step_blk_cases {s t : State} (h : step s = .next t) :
    t.params = s.params ∧
      (t.blk = Block.reset s.params ∨ (∃ q, t.blk = { s.blk with outq := q }) ∨ (∃ c, t.blk = s.blk.raiseErr c) ∨
        ∃ u i, u.blk = s.blk ∧ u.params = s.params ∧ ExecCase u i t.blk) := by
  cases step_cases h with
  | token hm he =>
    obtain ⟨b, rfl, hb⟩ := exec_cases he
    exact ⟨rfl, .inr (.inr (.inr ⟨{ s with microOp := none }, _, rfl, rfl, hb⟩))⟩
  | command hm hp hd he =>
    obtain ⟨b, rfl, hb⟩ := exec_cases he
    exact ⟨rfl, .inr (.inr (.inr ⟨s.popAction, _, rfl, rfl, hb⟩))⟩
  | idle hm hp => exact ⟨rfl, .inr (.inl ⟨s.blk.outq, rfl⟩)⟩
  | illegal hm hp hd => exact ⟨rfl, .inr (.inr (.inl ⟨.illegal, rfl⟩))⟩
  | readback hm hp => exact ⟨rfl, .inr (.inl ⟨s.blk.outq, rfl⟩)⟩
  | reset hm hp => exact ⟨rfl, .inl rfl⟩
  | transfer hm hp =>
    cases hq : s.blk.outq with
    | nil => rw [hostTransfer_nil hq]; exact ⟨rfl, .inr (.inl ⟨s.blk.outq, rfl⟩)⟩
    | cons x q => rw [hostTransfer_cons hq]; exact ⟨rfl, .inr (.inl ⟨q, rfl⟩)⟩

/-! ### Legal configuration values (R24 to R28, R87) -/

theorem clampNat_le {v lo hi : Nat} : clampNat v lo hi ≤ hi := Nat.min_le_right _ _

theorem le_clampNat {v lo hi : Nat} (h : lo ≤ hi) : lo ≤ clampNat v lo hi :=
  Nat.le_min.mpr ⟨Nat.le_max_right _ _, h⟩

/-- A value at or above the upper bound is clamped to it: how the host learns the maxima (R42). -/
theorem clampNat_of_ge {v lo hi : Nat} (h : hi ≤ v) : clampNat v lo hi = hi :=
  Nat.min_eq_right (h.trans (Nat.le_max_left _ _))

theorem toNat_ofNat_clampNat {w v lo hi : Nat} (h : hi < 2 ^ w) :
    (BitVec.ofNat w (clampNat v lo hi)).toNat = clampNat v lo hi := by
  rw [BitVec.toNat_ofNat, Nat.mod_eq_of_lt (clampNat_le.trans_lt h)]

theorem legalWindow_toNat {P : Params} (hP : P.Legal) (v : BitVec 16) :
    (legalWindow P v).toNat = clampNat v.toNat 1 P.windowMax :=
  toNat_ofNat_clampNat (hP.1.2.trans_lt (by decide))

theorem legalMaxMatch_toNat (v : BitVec 16) : (legalMaxMatch v).toNat = clampNat v.toNat 3 255 :=
  toNat_ofNat_clampNat (by decide)

theorem legalProbeCap_toNat {P : Params} (hP : P.Legal) (v : BitVec 16) :
    (legalProbeCap P v).toNat = clampNat v.toNat 1 P.probeCapMax :=
  toNat_ofNat_clampNat (by omega)

theorem legalChainDepth_toNat {P : Params} (hP : P.Legal) (v : BitVec 16) :
    (legalChainDepth P v).toNat = clampNat v.toNat 1 P.chainDepthMax :=
  toNat_ofNat_clampNat (by omega)

/-- The registers after reset are legal (R24 to R27, R141). -/
theorem CfgRegs.legal_reset {P : Params} (hP : P.Legal) : (CfgRegs.reset P).Legal P := by
  obtain ⟨hwin, -, hprobe, hdepth⟩ := hP
  simp only [CfgRegs.Legal, CfgRegs.reset, BitVec.toNat_ofNat, Config.offCap, Config.lenCap, Config.probeCapReset,
    Config.chainDepthReset] at *
  omega

/-- CFG_WRITE keeps the registers legal (R87). -/
theorem CfgRegs.Legal.write {P : Params} {c : CfgRegs} (hP : P.Legal) (hc : c.Legal P) (reg : BitVec 4) (v : BitVec 16) :
    (c.write P reg v).Legal P := by
  obtain ⟨hwin, hmatch, hprobe, hdepth⟩ := hc
  have hP1 : 1 ≤ P.windowMax := hP.1.1
  unfold CfgRegs.write
  split
  · exact ⟨by simpa only [legalWindow_toNat hP] using ⟨le_clampNat hP1, clampNat_le⟩, hmatch, hprobe, hdepth⟩
  · exact ⟨hwin, by simpa only [legalMaxMatch_toNat] using le_clampNat (by decide), hprobe, hdepth⟩
  · exact ⟨hwin, hmatch, by simpa only [legalProbeCap_toNat hP] using ⟨le_clampNat (by omega), clampNat_le⟩, hdepth⟩
  · exact ⟨hwin, hmatch, hprobe, by simpa only [legalChainDepth_toNat hP] using ⟨le_clampNat (by omega), clampNat_le⟩⟩
  · exact ⟨hwin, hmatch, hprobe, hdepth⟩
  · exact ⟨hwin, hmatch, hprobe, hdepth⟩

/-! ### The canonical forms of window and dictionary (log 12)

Every piece of the match finder changes the dictionary by `DictInsert` alone (R50, R93), from any state. -/

theorem dictInsert_wf {v : View} {depth q : Nat} {d d' : Dict} (h : dictInsert v depth q d = some d')
    (hd : Dict.wf d = true) : Dict.wf d' = true := by
  obtain ⟨k, -, rfl⟩ := Option.map_eq_some_iff.mp h
  exact dictPut_wf hd k _

theorem syncLoop_wf {v : View} {depth q n : Nat} {f f' : Finder} (h : syncLoop v depth q n f = some f')
    (hf : Dict.wf f.dict = true) : Dict.wf f'.dict = true := by
  induction n generalizing f with
  | zero => cases h; exact hf
  | succ n ih =>
    rw [syncLoop] at h
    split at h
    · obtain ⟨d, hd, h⟩ := Option.bind_eq_some_iff.mp h
      exact ih h (dictInsert_wf hd hf)
    · cases h; exact hf

theorem syncDict_wf {v : View} {depth q : Nat} {f f' : Finder} (h : syncDict v depth q f = some f')
    (hf : Dict.wf f.dict = true) : Dict.wf f'.dict = true := syncLoop_wf h hf

theorem findMatch_wf {v : View} {a : CfgRegs} {f : Finder} {q : Nat} {r : Finder × Nat × Nat}
    (h : findMatch v a f q = some r) (hf : Dict.wf f.dict = true) : Dict.wf r.1.dict = true := by
  obtain ⟨f', hsync, h⟩ := Option.bind_eq_some_iff.mp h
  obtain ⟨lo, -, rfl⟩ := Option.map_eq_some_iff.mp h
  exact syncDict_wf hsync hf

theorem deferral_wf {v : View} {a : CfgRegs} {f : Finder} {len p : Nat} {r : Finder × Bool}
    (h : deferral v a f len p = some r) (hf : Dict.wf f.dict = true) : Dict.wf r.1.dict = true := by
  unfold deferral at h
  split at h
  · obtain ⟨m, hm, rfl⟩ := Option.map_eq_some_iff.mp h
    exact findMatch_wf hm hf
  · cases h; exact hf

theorem chooseToken_wf {v : View} {a : CfgRegs} {f : Finder} {p : Nat} {r : Finder × Token}
    (h : chooseToken v a f p = some r) (hf : Dict.wf f.dict = true) : Dict.wf r.1.dict = true := by
  obtain ⟨m, hm, h⟩ := Option.bind_eq_some_iff.mp h
  have hm := findMatch_wf hm hf
  split at h
  · obtain ⟨x, -, rfl⟩ := Option.map_eq_some_iff.mp h
    exact hm
  · obtain ⟨d, hd, h⟩ := Option.bind_eq_some_iff.mp h
    have hd := deferral_wf hd hm
    split at h
    · obtain ⟨x, -, rfl⟩ := Option.map_eq_some_iff.mp h
      exact hd
    · cases h; exact hd

theorem scanLoop_wf {v : View} {n : Nat} {b : Block} {ins p : Nat} {r : Block × Nat}
    (h : scanLoop v n b ins p = some r) (hb : Dict.wf b.dict = true) : Dict.wf r.1.dict = true := by
  induction n generalizing b ins p with
  | zero => cases h; exact hb
  | succ n ih =>
    rw [scanLoop] at h
    split at h
    · obtain ⟨c, hc, h⟩ := Option.bind_eq_some_iff.mp h
      exact ih h (by simpa using chooseToken_wf hc hb)
    · cases h; exact hb

theorem encodeChunk_dict_wf {b b' : Block} (h : b.encodeChunk = some b') (hb : Dict.wf b.dict = true) :
    Dict.wf b'.dict = true := by
  obtain ⟨r, hscan, h⟩ := Option.bind_eq_some_iff.mp h
  obtain ⟨f, hsync, rfl⟩ := Option.map_eq_some_iff.mp h
  exact syncDict_wf hsync (scanLoop_wf hscan hb)

theorem trimWindow_wf {v : View} (h : Memory.wf v.win = true) : Memory.wf (trimWindow v) = true :=
  winDropBelow_wf (winWriteAll_wf h _ _) _

/-- From `b` to `b'` the window and the dictionary stay in canonical form if they are. -/
structure Block.KeepsForms (b b' : Block) : Prop where
  window : Memory.wf b.win = true → Memory.wf b'.win = true
  dict : Dict.wf b.dict = true → Dict.wf b'.dict = true

section KeepsForms

variable {b b' : Block}

theorem Block.KeepsForms.of_eq (hwin : b'.win = b.win) (hdict : b'.dict = b.dict) : b.KeepsForms b' :=
  ⟨fun h => by rwa [hwin], fun h => by rwa [hdict]⟩

theorem Block.KeepsForms.of_empty (hwin : b'.win = []) (hdict : b'.dict = []) : b.KeepsForms b' :=
  ⟨fun _ => by rw [hwin]; rfl, fun _ => by rw [hdict]; rfl⟩

theorem Block.KeepsForms.encodeChunk (h : b.encodeChunk = some b') : b.KeepsForms b' := by
  refine ⟨fun hwin => ?_, encodeChunk_dict_wf h⟩
  obtain ⟨ts, d, rfl⟩ := encodeChunk_frame h
  exact trimWindow_wf hwin

end KeepsForms

/-- Every command keeps the canonical forms, from any state. -/
theorem ExecCase.keepsForms {s : State} {i : Instr} {b : Block} (h : ExecCase s i b) : s.blk.KeepsForms b := by
  cases h with
  | start => exact .of_empty rfl rfl
  | err _ => exact .of_eq (by simp) (by simp)
  | dataLast _ _ _ he => exact { Block.KeepsForms.encodeChunk he with }
  | endChunk _ _ he => exact .encodeChunk he
  | finish _ _ he => exact { Block.KeepsForms.encodeChunk he with }
  | nop => exact .of_eq rfl rfl
  | cfg _ => exact .of_eq rfl rfl
  | data _ _ _ => exact .of_eq rfl rfl
  | endEmpty _ _ => exact .of_eq rfl rfl
  | finishEmpty _ _ => exact .of_eq rfl rfl
  | lit => exact .of_eq rfl rfl
  | matchRef => exact .of_eq rfl rfl

theorem step_keepsForms {s t : State} (h : step s = .next t) : s.blk.KeepsForms t.blk := by
  obtain ⟨-, hreset | ⟨q, hq⟩ | ⟨c, hc⟩ | ⟨u, i, hub, -, hexec⟩⟩ := step_blk_cases h
  · exact hreset ▸ .of_empty rfl rfl
  · exact hq ▸ .of_eq rfl rfl
  · exact hc ▸ .of_eq (by simp) (by simp)
  · exact hub ▸ hexec.keepsForms

/-! ### The invariant after each change of the block -/

section Invariant

variable {P : Params} {b : Block}

/-- A block right at the start of a stream, or without one: nothing read, nothing kept, no error recorded. -/
theorem Block.Inv.of_empty (hcfg : b.cfg.Legal P) (hact : b.act.Legal P) (hpos : b.absPos = 0#64) (hwin : b.win = [])
    (hdict : b.dict = []) (hchunk : b.chunk = []) (herr : b.errOut = false) (hfirst : b.firstErr = none) : b.Inv P where
  cfgLegal := hcfg
  actLegal := hact
  chunkFits := by simp [hchunk]
  chunkClosed _ := hchunk
  belowLimit := by simp [hpos, hchunk, Config.streamLimit]
  windowExact := by simp [Block.WindowExact, Block.winLo, hpos, hwin]
  dictForm := by simp [Block.DictForm, KeysRising, hdict]
  dictKeyed := by simp [Block.DictKeyed, hdict]
  errForm := by simp [Block.ErrForm, herr, hfirst]

theorem Block.reset_inv (hP : P.Legal) : (Block.reset P).Inv P :=
  .of_empty (CfgRegs.legal_reset hP) (CfgRegs.legal_reset hP) rfl rfl rfl rfl rfl rfl

theorem Block.Inv.startStream (h : b.Inv P) : b.startStream.Inv P :=
  .of_empty h.cfgLegal h.cfgLegal rfl rfl rfl rfl rfl rfl

/-- The invariant says nothing of the output queue and the token counters (R35, R37). -/
theorem Block.Inv.output (h : b.Inv P) (q : List Byte) (l m : BitVec 32) :
    { b with outq := q, litCount := l, matchCount := m }.Inv P := { h with }

theorem Block.Inv.withCfg (h : b.Inv P) {c : CfgRegs} (hc : c.Legal P) : { b with cfg := c }.Inv P :=
  { h with cfgLegal := hc }

/-- The error action keeps the error fields in agreement (R122). -/
theorem Block.ErrForm.raiseErr (h : b.ErrForm) (c : ErrCode) : (b.raiseErr c).ErrForm := by
  obtain ⟨hnone, hillegal, hnot, hovf⟩ := h
  have herr : (b.raiseErr c).errOut = true := by cases c <;> simp [Block.errOut]
  refine ⟨by simp [herr], ?_⟩
  simp only [Block.raiseErr_firstErr, Option.some.injEq, Block.raiseErr_errIllegal, Block.raiseErr_errNotStreaming,
    Block.raiseErr_errChunkOvf, Bool.or_eq_true, decide_eq_true_eq]
  cases hf : b.firstErr with
  | none => exact ⟨.inr, .inr, .inr⟩
  | some d =>
    simp only [hf, Option.some.injEq] at hillegal hnot hovf
    exact ⟨fun hd => .inl (hillegal hd), fun hd => .inl (hnot hd), fun hd => .inl (hovf hd)⟩

theorem Block.Inv.raiseErr (h : b.Inv P) (c : ErrCode) : (b.raiseErr c).Inv P := by
  have he := h.errForm.raiseErr c
  cases c <;> exact { h with errForm := he }

theorem Block.Inv.appendByte (h : b.Inv P) (hs : b.state = .streaming) (hfull : b.chunk.length ≠ P.chunkMax)
    (hlim : b.reachesStreamLimit = false) (x : Byte) : (b.appendByte x).Inv P :=
  have hfits := h.chunkFits
  { h with
    chunkFits := by simp only [Block.appendByte_chunk, List.length_append, List.length_singleton]; omega
    chunkClosed := fun hn => absurd hs hn
    belowLimit := by
      simp only [Block.reachesStreamLimit, decide_eq_false_iff_not] at hlim
      simp only [Block.appendByte_chunk, Block.appendByte_absPos, List.length_append, List.length_singleton]
      omega
    dictKeyed := (appendByte_encodable h.encodable x).dictKeyed }

/-- A chunk end keeps the invariant and leaves the chunk empty (R84, R90). -/
theorem Block.Inv.chunkEnd (h : b.Inv P) {b' : Block} (hb : b.chunkEnd = some b') : b'.Inv P ∧ b'.chunk = [] := by
  obtain ⟨hchunk, -, hcfg, hact, hillegal, hnot, hovf, hfirst⟩ := chunkEnd_frame h.encodable hb
  obtain ⟨henc, hpos⟩ := chunkEnd_encodable h.encodable h.belowLimit hb
  exact ⟨{
    cfgLegal := hcfg ▸ h.cfgLegal
    actLegal := hact ▸ h.actLegal
    chunkFits := by simp [hchunk]
    chunkClosed := fun _ => hchunk
    belowLimit := by simpa [hchunk, hpos] using h.belowLimit
    windowExact := henc.windowExact
    dictForm := henc.dictForm
    dictKeyed := henc.dictKeyed
    errForm := by simpa only [Block.ErrForm, Block.errOut, hillegal, hnot, hovf, hfirst] using h.errForm }, hchunk⟩

theorem Block.Inv.encodeChunk (h : b.Inv P) (hc : b.chunk ≠ []) {b' : Block} (hb : b.encodeChunk = some b') :
    b'.Inv P ∧ b'.chunk = [] :=
  h.chunkEnd ((chunkEnd_cons hc).trans hb)

/-- FINISH leaves STREAMING, so it needs the chunk ended (R86). -/
theorem Block.Inv.finishStream (h : b.Inv P) (hc : b.chunk = []) : b.finishStream.Inv P :=
  { h with chunkClosed := fun _ => hc }

end Invariant

/-- Every command keeps the invariant of the block. -/
theorem ExecCase.inv {s : State} {i : Instr} {b : Block} (h : ExecCase s i b) (hs : s.Inv) : b.Inv s.params := by
  obtain ⟨hP, hb⟩ := hs
  cases h with
  | nop => exact hb
  | start => exact hb.startStream
  | err _ => exact hb.raiseErr _
  | cfg _ => exact hb.withCfg (hb.cfgLegal.write hP _ _)
  | data hstream hfull hlim => exact hb.appendByte hstream hfull hlim _
  | dataLast hstream hfull hlim he => exact ((hb.appendByte hstream hfull hlim _).encodeChunk (by simp) he).1
  | endEmpty _ _ => exact hb
  | endChunk _ hc he => exact (hb.encodeChunk hc he).1
  | finishEmpty _ hc => exact hb.finishStream hc
  | finish _ hc he =>
    obtain ⟨hinv, hchunk⟩ := hb.encodeChunk hc he
    exact hinv.finishStream hchunk
  | lit => exact hb.output _ _ _
  | matchRef => exact hb.output _ _ _

/-! ### Readbacks (R24 to R28, R38 to R43) -/

/-- An append as a number: the lower word, and the upper one shifted past it. -/
theorem toNat_append_eq {m n : Nat} (x : BitVec m) (y : BitVec n) : (x ++ y).toNat = x.toNat * 2 ^ n + y.toNat := by
  rw [BitVec.toNat_append, ← Nat.shiftLeft_add_eq_or_of_lt y.isLt, Nat.shiftLeft_eq]

section Readbacks

variable (b : Block) (P : Params)

/-- STATUS as a number: each field at its place (R38). -/
theorem Block.statusWord_toNat : b.statusWord.toNat =
    b.state.code.toNat + 2 ^ 4 * b.errIllegal.toNat + 2 ^ 5 * b.errNotStreaming.toNat + 2 ^ 6 * b.errChunkOvf.toNat +
      2 ^ 8 * b.firstErrCode.toNat + 2 ^ 12 * b.outEmpty.toNat := by
  simp only [Block.statusWord, toNat_append_eq, busyBit, BitVec.toNat_ofBool, BitVec.toNat_ofNat]
  omega

/-- STATUS.STATE is the code of the stream state (R38). -/
theorem Block.statusWord_state : b.statusWord.toNat % 4 = b.state.code.toNat := by
  have := b.statusWord_toNat
  have := b.state.code.isLt
  omega

/-- STATUS.FIRST_ERR is the code of the first error, and nothing stands above OUT_EMPTY (R38). -/
theorem Block.statusWord_firstErr :
    b.statusWord.toNat / 2 ^ 8 % 2 ^ 4 = b.firstErrCode.toNat ∧ b.statusWord.toNat / 2 ^ 13 = 0 := by
  have := b.statusWord_toNat
  have := b.state.code.isLt
  have := b.firstErrCode.isLt
  have := b.errIllegal.toNat_le
  have := b.errNotStreaming.toNat_le
  have := b.errChunkOvf.toNat_le
  have := b.outEmpty.toNat_le
  omega

theorem Block.outEmpty_eq : b.outEmpty = decide (b.outq = []) := by
  unfold Block.outEmpty
  cases b.outq <;> rfl

theorem Block.read_window_toNat : (b.read P 0x0#4).toNat = b.cfg.window.toNat :=
  BitVec.toNat_setWidth_of_le (by decide)

theorem Block.read_maxMatch_toNat : (b.read P 0x1#4).toNat = b.cfg.maxMatch.toNat :=
  BitVec.toNat_setWidth_of_le (by decide)

theorem Block.read_probeCap_toNat : (b.read P 0x2#4).toNat = b.cfg.probeCap.toNat :=
  BitVec.toNat_setWidth_of_le (by decide)

theorem Block.read_chainDepth_toNat : (b.read P 0x3#4).toNat = b.cfg.chainDepth.toNat :=
  BitVec.toNat_setWidth_of_le (by decide)

/-- MODE as a number: LAZY_EN in bit 0, EXHAUSTIVE in bit 1 (R28). -/
theorem CfgRegs.modeWord_toNat (c : CfgRegs) : c.modeWord.toNat = c.lazyEn.toNat + 2 * c.exhaustive.toNat := by
  simp only [CfgRegs.modeWord, toNat_append_eq, BitVec.toNat_ofBool, BitVec.toNat_ofNat]
  omega

/-- The bits of STATUS that are not part of a code (R38). -/
theorem Block.statusWord_bits : b.statusWord.getLsbD 2 = false ∧ b.statusWord.getLsbD 3 = false ∧
    b.statusWord.getLsbD 4 = b.errIllegal ∧ b.statusWord.getLsbD 5 = b.errNotStreaming ∧
    b.statusWord.getLsbD 6 = b.errChunkOvf ∧ b.statusWord.getLsbD 7 = false ∧
    b.statusWord.getLsbD 12 = b.outEmpty := by
  simp only [Block.statusWord, busyBit, BitVec.getLsbD_append, BitVec.getLsbD_ofBool]
  simp

end Readbacks

/-- A CFG_WRITE of a legal register leaves the written registers (R87). -/
theorem exec_cfgWrite_cfg {reg : BitVec 4} {v : BitVec 16} {s t : State} (hreg : reg.toNat ≤ 4)
    (h : exec (.cfgWrite reg v) s = .next t) : t.blk.cfg = s.blk.cfg.write s.params reg v := by
  simp only [exec, execCfgWrite, if_pos hreg, Host.Outcome.next.injEq] at h
  exact h ▸ rfl

/-! ### The statements of 10_state.md -/

/-- Settles O52: each way a step can change the block keeps the invariant. -/
theorem everyStepKeepsTheInvariant : Obligations.EveryStepKeepsTheInvariant := by
  intro s t hs hstep
  obtain ⟨hparams, hblk⟩ := step_blk_cases hstep
  refine ⟨hparams ▸ hs.paramsLegal, ?_⟩
  rw [hparams]
  rcases hblk with hreset | ⟨q, hq⟩ | ⟨c, hc⟩ | ⟨u, i, hub, hup, hexec⟩
  · exact hreset ▸ Block.reset_inv hs.paramsLegal
  · exact hq ▸ hs.blk.output q _ _
  · exact hc ▸ hs.blk.raiseErr c
  · have hu : u.Inv := ⟨hup ▸ hs.paramsLegal, by rw [hub, hup]; exact hs.blk⟩
    exact hup ▸ hexec.inv hu

/-- Settles O54: only a chunk end writes window or dictionary without emptying them, and it writes by `WinWrite` and
`DictInsert` (R47, R50). -/
theorem everyStepKeepsTheCanonicalForms : Obligations.EveryStepKeepsTheCanonicalForms := by
  intro s t h
  obtain ⟨hwin, hdict⟩ := step_keepsForms h
  exact ⟨hwin, hdict⟩

/-- Settles O29. -/
theorem readbackChangesNoState : Obligations.ReadbackChangesNoState := by
  intro s i rest hm hp
  simp only [step, hm, hp, hostAct, hostReadback, State.popAction, List.tail_cons]

/-- Settles O30: the codes from the word as a number, the single bits from the word as bits. -/
theorem statusWordBitByBit : Obligations.StatusWordBitByBit := by
  refine ⟨fun b P => ?_, fun P => BitVec.eq_of_toNat_eq (Block.reset P).statusWord_toNat⟩
  have hread : b.read P 0x8#4 = b.statusWord := rfl
  obtain ⟨hb2, hb3, hb4, hb5, hb6, hb7, hb12⟩ := b.statusWord_bits
  obtain ⟨hfirst, hhigh⟩ := b.statusWord_firstErr
  rw [hread]
  refine ⟨b.statusWord_state.trans ?_, hb2, hb3, hb4, hb5, hb6, hb7, hfirst.trans ?_, hb12.trans b.outEmpty_eq, hhigh⟩
  · cases b.state <;> rfl
  · unfold Block.firstErrCode
    rcases b.firstErr with _ | _ | _ | _ <;> rfl

/-- Settles O31. -/
theorem configurationReadbacks : Obligations.ConfigurationReadbacks := by
  intro b P
  have hmode : (b.read P 0x4#4).toNat = b.cfg.lazyEn.toNat + 2 * b.cfg.exhaustive.toNat := b.cfg.modeWord_toNat
  refine ⟨b.read_window_toNat P, b.read_maxMatch_toNat P, b.read_probeCap_toNat P, b.read_chainDepth_toNat P, ?_⟩
  rw [hmode]
  cases b.cfg.lazyEn <;> cases b.cfg.exhaustive <;> rfl

/-- Settles O32: the capacity, the chunk's length and the maxima fit their fields by the invariant. -/
theorem streamReadbacks : Obligations.StreamReadbacks := by
  intro s hs b P
  have hP : P.Legal := hs.paramsLegal
  obtain ⟨⟨-, hwin⟩, ⟨-, hchunk⟩, ⟨-, hprobe⟩, -, hdepth⟩ : P.Legal := hs.paramsLegal
  have hfits : b.chunk.length ≤ P.chunkMax := hs.blk.chunkFits
  refine ⟨?_, ?_, ?_, rfl, rfl, ?_, rfl, rfl, rfl, rfl, ?_, ?_, ?_, ?_, rfl, rfl, BitVec.extractLsb'_zero, rfl, rfl⟩
  · exact (BitVec.toNat_ofNat _ _).trans (Nat.mod_eq_of_lt (hfits.trans_lt hchunk))
  · exact BitVec.extractLsb'_toNat ..
  · have hread : (b.read P 0xB#4).toNat = b.absPos.toNat >>> 32 % 2 ^ 32 := BitVec.extractLsb'_toNat ..
    rw [hread, Nat.shiftRight_eq_div_pow, Nat.mod_eq_of_lt (by have := b.absPos.isLt; omega)]
  · exact (BitVec.toNat_ofNat _ _).trans (Nat.mod_eq_of_lt hchunk)
  · intro i rest t hm hp hstep
    rw [readbackChangesNoState s i rest hm hp] at hstep
    cases hstep
    exact ⟨rfl, rfl⟩
  · intro t ht
    rw [Block.read_window_toNat, exec_cfgWrite_cfg (by decide) ht]
    exact (legalWindow_toNat hP _).trans (clampNat_of_ge hwin)
  · intro t ht
    rw [Block.read_probeCap_toNat, exec_cfgWrite_cfg (by decide) ht]
    exact (legalProbeCap_toNat hP _).trans (clampNat_of_ge hprobe)
  · intro t ht
    rw [Block.read_chainDepth_toNat, exec_cfgWrite_cfg (by decide) ht]
    exact (legalChainDepth_toNat hP _).trans (clampNat_of_ge hdepth)

end Sys2Proof.Machine
end

section
/-! SUPPORT. The proofs of the family 20_memory: what a chunk end reads and keeps, the dictionary's insertions, that
stale entries play no part in a search, when a step stops, and how the bytes produced grow. -/

namespace Sys2Proof.Machine

open Sys2Proof.Config (Params)

/-! ### Filtering lists and sparse maps -/

/-- In a decreasing list the entries from `c` on come first, so cutting and filtering commute. -/
theorem filter_ge_take {l : List Nat} (hl : l.Pairwise (· > ·)) (c n : Nat) :
    (l.take n).filter (fun r => decide (c ≤ r)) = (l.filter fun r => decide (c ≤ r)).take n := by
  induction l generalizing n with
  | nil => simp
  | cons r rs ih =>
    obtain ⟨hr, hrs⟩ := List.pairwise_cons.mp hl
    cases n with
    | zero => simp
    | succ n =>
      by_cases hc : c ≤ r
      · simp [hc, ih hrs]
      · have hbelow : rs.filter (fun x => decide (c ≤ x)) = [] := by
          rw [List.filter_eq_nil_iff]
          intro x hx
          have := hr x hx
          simp only [decide_eq_true_eq]; omega
        simp [hc, ih hrs, hbelow]

/-- Filtering from `c` on sees only the entries from a lower `lo` on. -/
theorem filter_ge_filter_ge (l : List Nat) {lo c : Nat} (h : lo ≤ c) :
    (l.filter fun r => decide (lo ≤ r)).filter (fun r => decide (c ≤ r)) = l.filter fun r => decide (c ≤ r) := by
  rw [List.filter_filter]
  refine List.filter_congr fun r _ => ?_
  rw [← Bool.decide_and]
  exact decide_eq_decide.mpr ⟨And.left, fun hc => ⟨hc, h.trans hc⟩⟩

/-! ### The purged dictionary (R52) -/

/-- The dictionary with every position below `lo` taken out, and the lists that become empty with them. -/
def Dict.purge (lo : Nat) (d : Dict) : Dict :=
  (d.map fun e => (e.1, e.2.filter fun r => decide (lo ≤ r))).filter fun e => decide (e.2 ≠ [])

theorem Block.purgeStale_eq (b : Block) : b.purgeStale = { b with dict := b.dict.purge b.winLo } := rfl

theorem Dict.keys_purge_sublist (lo : Nat) (d : Dict) : ((d.purge lo).map Prod.fst).Sublist (d.map Prod.fst) := by
  have h : (d.map fun e => (e.1, e.2.filter fun r => decide (lo ≤ r))).map Prod.fst = d.map Prod.fst := by
    rw [List.map_map]; rfl
  exact h ▸ List.filter_sublist.map Prod.fst

/-- An entry left after the purge is an old one, cut to its positions from `lo` on. -/
theorem Dict.mem_purge {lo : Nat} {d : Dict} {e : Nat × List Nat} (h : e ∈ d.purge lo) :
    e.2 ≠ [] ∧ ∃ e₀ ∈ d, e.1 = e₀.1 ∧ e.2 = e₀.2.filter fun r => decide (lo ≤ r) := by
  obtain ⟨hmap, hne⟩ := List.mem_filter.mp h
  obtain ⟨e₀, he₀, rfl⟩ := List.mem_map.mp hmap
  exact ⟨by simpa using hne, e₀, he₀, rfl, rfl⟩

theorem dictLookup_cons (k : Nat) (l : List Nat) (d : Dict) (a : Nat) :
    dictLookup ((k, l) :: d) a = if a = k then l else dictLookup d a := by
  unfold dictLookup
  rw [sparseGet_cons]
  split <;> rfl

theorem dictLookup_eq_nil {d : Dict} {a : Nat} (h : a ∉ d.map Prod.fst) : dictLookup d a = [] := by
  have hnone : sparseGet d a = none := by
    rw [← Option.not_isSome_iff_eq_none, sparseGet_isSome_iff]
    exact h
  rw [dictLookup, hnone]; rfl

/-- A lookup after the purge is the old one's positions from `lo` on. -/
theorem dictLookup_purge {lo : Nat} {d : Dict} (hd : KeysRising d) (a : Nat) :
    dictLookup (d.purge lo) a = (dictLookup d a).filter fun r => decide (lo ≤ r) := by
  induction d with
  | nil => rfl
  | cons e d ih =>
    obtain ⟨k, l⟩ := e
    obtain ⟨hk, hd⟩ := List.pairwise_cons.mp hd
    have ih := ih hd
    rw [dictLookup_cons]
    by_cases hl : (l.filter fun r => decide (lo ≤ r)) = []
    · have hpurge : Dict.purge lo ((k, l) :: d) = Dict.purge lo d := by simp [Dict.purge, hl]
      rw [hpurge]
      split
      · next hak =>
        subst hak
        rw [hl]
        exact dictLookup_eq_nil fun hmem => Nat.lt_irrefl _ (hk _ ((Dict.keys_purge_sublist lo d).subset hmem))
      · exact ih
    · have hpurge : Dict.purge lo ((k, l) :: d) = (k, l.filter fun r => decide (lo ≤ r)) :: Dict.purge lo d := by
        simp [Dict.purge, hl]
      rw [hpurge, dictLookup_cons, ih]
      split <;> rfl

/-- A chunk end needs no stale entry: the purged block is as encodable. -/
theorem Block.Encodable.purgeStale {b : Block} (h : b.Encodable) : b.purgeStale.Encodable := by
  obtain ⟨hrising, hentries⟩ := h.dictForm
  refine ⟨h.windowExact, ⟨hrising.sublist (Dict.keys_purge_sublist _ _), fun e he => ?_⟩, fun e he r hr hlo => ?_,
    h.depthPos⟩
  · obtain ⟨hne, e₀, he₀, hkey, hlist⟩ := Dict.mem_purge he
    obtain ⟨h24, -, hdec, hlen, hpos⟩ := hentries e₀ he₀
    have hsub : e.2.Sublist e₀.2 := hlist ▸ List.filter_sublist
    exact ⟨hkey ▸ h24, hne, hdec.sublist hsub, hsub.length_le.trans hlen, fun r hr => hpos r (hsub.subset hr)⟩
  · obtain ⟨-, e₀, he₀, hkey, hlist⟩ := Dict.mem_purge he
    exact hkey ▸ h.dictKeyed e₀ he₀ r (List.mem_of_mem_filter (hlist ▸ hr)) hlo

/-! ### Searches that differ in stale entries only (R52, R94) -/

/-- The lists of two dictionaries agree from `lo` on. -/
def Dict.AgreeFrom (lo : Nat) (d d' : Dict) : Prop :=
  ∀ k, (dictLookup d k).filter (fun r => decide (lo ≤ r)) = (dictLookup d' k).filter fun r => decide (lo ≤ r)

theorem Dict.agreeFrom_purge {d : Dict} (hd : KeysRising d) (lo : Nat) : Dict.AgreeFrom lo d (d.purge lo) := fun k => by
  rw [dictLookup_purge hd, filter_ge_filter_ge _ (Nat.le_refl lo)]

theorem FinderForm.lookup_decreasing {v : View} {depth : Nat} {d₀ : Dict} {f : Finder} (hf : FinderForm v depth d₀ f)
    (k : Nat) : (dictLookup f.dict k).Pairwise (· > ·) := by
  by_cases hne : dictLookup f.dict k = []
  · simp [hne]
  · obtain ⟨r, hr⟩ := List.exists_mem_of_ne_nil _ hne
    obtain ⟨-, -, hdec, -⟩ := hf.entries _ (mem_of_dictLookup hr)
    exact hdec

theorem insertedAt_decreasing (v : View) (ins k : Nat) : (insertedAt v ins k).Pairwise (· > ·) :=
  List.pairwise_reverse.mpr ((List.pairwise_lt_range' (s := v.cs)).sublist List.filter_sublist)

theorem le_of_mem_insertedAt {v : View} {ins k r : Nat} (h : r ∈ insertedAt v ins k) : v.cs ≤ r :=
  (List.mem_range'_1.mp (List.mem_of_mem_filter (List.mem_reverse.mp h))).1

/-- Two dictionaries one chunk can begin with, that differ at most in positions below the window. -/
structure SameInWindow (v : View) (depth : Nat) (d₀ d₁ : Dict) : Prop where
  left : FinderForm v depth d₀ { dict := d₀, ins := v.cs }
  right : FinderForm v depth d₁ { dict := d₁, ins := v.cs }
  agree : Dict.AgreeFrom v.lo d₀ d₁

/-- The chunk's insertions in front of the list the chunk began with decrease, before the cut to the chain's depth. -/
theorem FinderForm.history_decreasing {v : View} {depth : Nat} {d : Dict}
    (hd : FinderForm v depth d { dict := d, ins := v.cs }) (ins k : Nat) :
    (insertedAt v ins k ++ dictLookup d k).Pairwise (· > ·) :=
  List.pairwise_append.mpr ⟨insertedAt_decreasing v ins k, hd.lookup_decreasing k,
    fun _ hx _ hy => (hd.lookup_lt hy).trans_le (le_of_mem_insertedAt hx)⟩

/-- Two searches at the same point of one chunk, begun from dictionaries `d₀` and `d₁`. -/
structure FinderPair (v : View) (depth : Nat) (d₀ d₁ : Dict) (f g : Finder) : Prop where
  left : FinderForm v depth d₀ f
  right : FinderForm v depth d₁ g
  ins : g.ins = f.ins

section Simulation

variable {v : View} {a : CfgRegs} {d₀ d₁ : Dict} {f g : Finder} {p q : Nat}

/-- What the two dictionaries agree on at the chunk's start they agree on throughout it: both take the same insertions
in front, and the cut to the chain's depth drops the oldest. -/
theorem FinderPair.agree {depth : Nat} (hs : SameInWindow v depth d₀ d₁) (hp : FinderPair v depth d₀ d₁ f g) :
    Dict.AgreeFrom v.lo f.dict g.dict := fun k => by
  rw [hp.left.history, hp.right.history, hp.ins, filter_ge_take (hs.left.history_decreasing _ _),
    filter_ge_take (hs.right.history_decreasing _ _), List.filter_append, List.filter_append, hs.agree]

/-- A candidate lies within the window of `q`, so stale entries never are candidates (R94). -/
theorem FinderPair.candHash_eq {depth : Nat} (hs : SameInWindow v depth d₀ d₁) (hp : FinderPair v depth d₀ d₁ f g)
    (ha : a.window.toNat = v.window) (hq : v.cs ≤ q) : candHash v a g.dict q = candHash v a f.dict q := by
  have hnear : (fun r => decide (q - r ≤ a.maxDist)) = fun r => decide (q - v.window ≤ r) := by
    funext r
    simp only [CfgRegs.maxDist, ha]
    exact decide_eq_decide.mpr (by omega)
  have hlo : v.lo ≤ q - v.window := Nat.sub_le_sub_right hq _
  unfold candHash
  congr 1
  funext k
  rw [hnear, filter_ge_take (hp.right.lookup_decreasing k), filter_ge_take (hp.left.lookup_decreasing k),
    ← filter_ge_filter_ge (dictLookup g.dict k) hlo, ← hp.agree hs k, filter_ge_filter_ge _ hlo]

theorem FinderPair.searchAt_eq {depth : Nat} (hs : SameInWindow v depth d₀ d₁) (hp : FinderPair v depth d₀ d₁ f g)
    (ha : a.window.toNat = v.window) (hq : v.cs ≤ q) : searchAt v a g.dict q = searchAt v a f.dict q := by
  have hcands : candidates v a g.dict q = candidates v a f.dict q := by
    unfold candidates
    rw [hp.candHash_eq hs ha hq]
  unfold searchAt
  rw [hcands]

/-- `SyncDict(q)` leaves its cursor at a place that the dictionary has no part in (R93). -/
theorem syncDict_ins {depth : Nat} (hv : v.Exact) (hd : 1 ≤ depth) (hf : FinderForm v depth d₀ f) (hq : v.cs ≤ q)
    (hins : f.ins ≤ q) :
    ∃ f', syncDict v depth q f = some f' ∧ FinderForm v depth d₀ f' ∧ f'.ins = max v.cs (min q (v.ce - 2)) := by
  obtain ⟨f', hsync, hf', hge, hle, hreach⟩ := syncDict_form hv hd q hf
  have hlow := hf'.insLow
  have hhigh := hf'.insHigh
  exact ⟨f', hsync, hf', by omega⟩

/-- Two searches stay a pair over `SyncDict`. -/
theorem FinderPair.syncDict {depth : Nat} (hv : v.Exact) (hd : 1 ≤ depth) (hp : FinderPair v depth d₀ d₁ f g)
    (hq : v.cs ≤ q) (hins : f.ins ≤ q) :
    ∃ f' g', syncDict v depth q f = some f' ∧ syncDict v depth q g = some g' ∧ FinderPair v depth d₀ d₁ f' g' ∧
      f'.ins ≤ q := by
  obtain ⟨f', hf, hf', hfi⟩ := syncDict_ins hv hd hp.left hq hins
  obtain ⟨g', hg, hg', hgi⟩ := syncDict_ins hv hd hp.right hq (hp.ins.trans_le hins)
  exact ⟨f', g', hf, hg, ⟨hf', hg', hgi.trans hfi.symm⟩, by omega⟩

section

variable (hv : v.Exact) (ha : a.window.toNat = v.window) (hd : 1 ≤ a.chainDepth.toNat)
  (hs : SameInWindow v a.chainDepth.toNat d₀ d₁)

include hv ha hd hs

/-- The two searches at `q` find the same match. -/
theorem FinderPair.findMatch (hp : FinderPair v a.chainDepth.toNat d₀ d₁ f g) (hq : v.cs ≤ q) (hins : f.ins ≤ q) :
    ∃ f' g' m, findMatch v a f q = some (f', m) ∧ findMatch v a g q = some (g', m) ∧
      FinderPair v a.chainDepth.toNat d₀ d₁ f' g' ∧ f'.ins ≤ q := by
  obtain ⟨f', g', hf, hg, hp', hins'⟩ := hp.syncDict hv hd hq hins
  obtain ⟨m, hm⟩ := searchAt_total hv ha (d := f'.dict) hq fun k x hx => (hp'.left.lookup_lt hx).trans_le hins'
  have hm' := (hp'.searchAt_eq hs ha hq).trans hm
  exact ⟨f', g', m, by rw [Machine.findMatch, hf, Option.bind_some, hm]; rfl,
    by rw [Machine.findMatch, hg, Option.bind_some, hm']; rfl, hp', hins'⟩

/-- The two look-ahead searches decide alike (R100). -/
theorem FinderPair.deferral (hp : FinderPair v a.chainDepth.toNat d₀ d₁ f g) (len : Nat) (hcs : v.cs ≤ p)
    (hins : f.ins ≤ p) :
    ∃ f' g' put, deferral v a f len p = some (f', put) ∧ deferral v a g len p = some (g', put) ∧
      FinderPair v a.chainDepth.toNat d₀ d₁ f' g' := by
  unfold Machine.deferral
  split
  · obtain ⟨f', g', m, hf, hg, hp', -⟩ := hp.findMatch hv ha hd hs (q := p + 1) (by omega) (by omega)
    exact ⟨f', g', _, by rw [hf]; rfl, by rw [hg]; rfl, hp'⟩
  · exact ⟨f, g, false, rfl, rfl, hp⟩

/-- The two searches choose the same token (R99). -/
theorem FinderPair.chooseToken (hp : FinderPair v a.chainDepth.toNat d₀ d₁ f g) (hcs : v.cs ≤ p) (hlt : p < v.ce)
    (hins : f.ins ≤ p) :
    ∃ f' g' t, chooseToken v a f p = some (f', t) ∧ chooseToken v a g p = some (g', t) ∧
      FinderPair v a.chainDepth.toNat d₀ d₁ f' g' := by
  obtain ⟨x, hx⟩ := byteAt_of_range hv (v.lo_le_cs.trans hcs) hlt
  obtain ⟨f₁, g₁, m, hf₁, hg₁, hp₁, hins₁⟩ := hp.findMatch hv ha hd hs hcs hins
  obtain ⟨f₂, g₂, put, hf₂, hg₂, hp₂⟩ := hp₁.deferral hv ha hd hs m.1 hcs hins₁
  unfold Machine.chooseToken
  simp only [hf₁, hg₁, hf₂, hg₂, hx, Option.bind_some, Option.map_some]
  split
  · exact ⟨f₁, g₁, _, rfl, rfl, hp₁⟩
  · split
    · exact ⟨f₂, g₂, _, rfl, rfl, hp₂⟩
    · exact ⟨f₂, g₂, _, rfl, rfl, hp₂⟩

end

/-- The two scans emit the same tokens (R99, R101). -/
theorem scanLoop_pair (hv : v.Exact) {b : Block} (ha : b.act.window.toNat = v.window)
    (hd : 1 ≤ b.act.chainDepth.toNat) (hs : SameInWindow v b.act.chainDepth.toNat d₀ d₁) {d : Dict} {n ins : Nat}
    (hp : FinderPair v b.act.chainDepth.toNat d₀ d₁ { dict := b.dict, ins := ins } { dict := d, ins := ins })
    (hcs : v.cs ≤ p) (hce : p ≤ v.ce) (hins : ins ≤ p) :
    ∃ b' d' ins', scanLoop v n b ins p = some (b', ins') ∧
      scanLoop v n { b with dict := d } ins p = some ({ b' with dict := d' }, ins') ∧ b'.act = b.act ∧ ins' ≤ v.ce ∧
      FinderPair v b.act.chainDepth.toNat d₀ d₁ { dict := b'.dict, ins := ins' } { dict := d', ins := ins' } := by
  induction n generalizing b d ins p with
  | zero => exact ⟨b, d, ins, rfl, rfl, rfl, hins.trans hce, hp⟩
  | succ n ih =>
    by_cases hlt : p < v.ce
    · obtain ⟨f, g, t, hf, hg, hp'⟩ := hp.chooseToken hv ha hd hs hcs hlt hins
      obtain ⟨f', t', hf', -, hins', -, hce', -⟩ := chooseToken_spec hv ha hd hp.left hcs hlt hins
      obtain ⟨rfl, rfl⟩ : f = f' ∧ t = t' := by simpa [hf] using hf'
      have hact : ({ b with dict := f.dict }.emitToken t).act = b.act := Block.emitToken_act _ t
      have hdict : ({ b with dict := f.dict }.emitToken t).dict = f.dict := by cases t <;> rfl
      have hswap : { b with dict := g.dict }.emitToken t =
          { { b with dict := f.dict }.emitToken t with dict := g.dict } := by cases t <;> rfl
      have hgi : ({ dict := g.dict, ins := f.ins } : Finder) = g := by rw [← hp'.ins]
      obtain ⟨b', d', ins', hb, hb', hact', hle, hpair⟩ := ih (b := { b with dict := f.dict }.emitToken t) (d := g.dict)
        (ins := f.ins) (p := p + t.span) (by rwa [hact]) (by rwa [hact]) (by rwa [hact])
        (by rw [hact, hdict, hgi]; exact hp') (by omega) hce' hins'
      refine ⟨b', d', ins', ?_, ?_, hact'.trans hact, hle, hact ▸ hpair⟩
      · rw [scanLoop, if_pos hlt, hf]; exact hb
      · rw [scanLoop, if_pos hlt, hg, Option.bind_some, hp'.ins]
        exact hswap ▸ hb'
    · refine ⟨b, d, ins, ?_, ?_, rfl, hins.trans hce, hp⟩
      · rw [scanLoop, if_neg hlt]
      · rw [scanLoop, if_neg hlt]

end Simulation

/-- Two chunk ends of one block, under dictionaries that differ in stale entries only, differ in the dictionary only. -/
theorem encodeChunk_sameInWindow {b : Block} {d : Dict} (hv : b.view.Exact) (hd : 1 ≤ b.act.chainDepth.toNat)
    (hs : SameInWindow b.view b.act.chainDepth.toNat b.dict d) :
    ∃ b' d', b.encodeChunk = some b' ∧ { b with dict := d }.encodeChunk = some { b' with dict := d' } := by
  obtain ⟨c, d', ins, hb, hb', hact, hins, hp⟩ := scanLoop_pair hv (b := b) (n := b.chunk.length) rfl hd hs
    ⟨hs.left, hs.right, rfl⟩ (Nat.le_refl _) b.view.cs_le_ce (Nat.le_refl _)
  obtain ⟨f, g, hf, hg, -, -⟩ := hp.syncDict hv hd b.view.cs_le_ce hins
  refine ⟨{ c with dict := f.dict, win := trimWindow b.view, absPos := BitVec.ofNat 64 b.view.ce, chunk := [] }, g.dict,
    Option.bind_eq_some_iff.mpr ⟨_, hb, ?_⟩, Option.bind_eq_some_iff.mpr ⟨_, hb', ?_⟩⟩
  · exact Option.map_eq_some_iff.mpr ⟨f, by rw [hact, hf], rfl⟩
  · exact Option.map_eq_some_iff.mpr ⟨g, by simp only [hact]; exact hg, rfl⟩

/-- The purge of a block the invariant allows leaves its dictionary the same within the window. -/
theorem Block.Encodable.sameInWindow_purge {b : Block} (h : b.Encodable) :
    SameInWindow b.view b.act.chainDepth.toNat b.dict b.purgeStale.dict :=
  ⟨h.finderForm, h.purgeStale.finderForm, Dict.agreeFrom_purge h.dictForm.1 b.winLo⟩

/-- Settles O48: a stale entry is never a candidate, and the lists agree on all others to the end of the chunk. -/
theorem purgingStaleEntriesChangesNoToken : Obligations.PurgingStaleEntriesChangesNoToken := by
  intro P b hb _
  have h := hb.encodable
  obtain ⟨b', d', hb', hpurge⟩ := encodeChunk_sameInWindow h.view_exact h.depthPos h.sameInWindow_purge
  exact ⟨b', { b' with dict := d' }, hb', hpurge, rfl⟩

/-! ### What a chunk end reads and keeps (R46, R51) -/

/-- A chunk end that would read outside the readable range faults (R46). -/
theorem exec_chunkEnd_fault {s : State} (hs : s.blk.state = .streaming) (h : s.blk.chunkEnd = none) :
    exec .endChunk s = .fault .byteOutsideRange ∧ exec .finish s = .fault .byteOutsideRange := by
  simp [exec, execEndChunk, execFinish, hs, h]

/-- Settles O34: the window of the invariant is exact, so every position of the range reads a byte. -/
theorem bytesAreReadableExactlyInTheWindowAndChunk : Obligations.BytesAreReadableExactlyInTheWindowAndChunk := by
  intro P b hb _
  have hv : b.view.Exact := hb.windowExact
  obtain ⟨ts, d, ins, henc, -⟩ := encodeChunk_spec hb.encodable
  refine ⟨byteAt_isSome_iff hv, fun q hlo hcs => byteAt_window hcs hlo, fun q hcs => byteAt_chunk hcs, ⟨_, henc⟩, ?_⟩
  intro s hs hc hnone
  exact exec_chunkEnd_fault hs ((chunkEnd_cons hc).trans hnone)

/-- Settles O36: a chunk end leaves the trimmed window (R90, R51). -/
theorem trimKeepsTheLastWindowBytes : Obligations.TrimKeepsTheLastWindowBytes := by
  intro P b b' hb _ henc
  have hv : b.view.Exact := hb.windowExact
  obtain ⟨ts, d, rfl⟩ := encodeChunk_frame henc
  exact ⟨trimWindow_keys hv, read_trimWindow hv⟩

/-! ### The dictionary's insertion (R49, R50) -/

/-- A decreasing list of earlier positions takes `q` in front, and any cut of it decreases. -/
theorem cons_take_decreasing {l : List Nat} {q : Nat} (hl : l.Pairwise (· > ·)) (hq : ∀ r ∈ l, r < q) (n : Nat) :
    ((q :: l).take n).Pairwise (· > ·) :=
  (List.pairwise_cons.mpr ⟨hq, hl⟩).sublist (List.take_sublist _ _)

/-- Settles O35: the lookups after the one `dictPut` that an insertion makes. -/
theorem dictInsertPutsThePositionInFront : Obligations.DictInsertPutsThePositionInFront := by
  intro v depth q d d' h
  obtain ⟨k, hk, rfl⟩ := Option.map_eq_some_iff.mp h
  refine ⟨k, hk, dictLookup_put_self _ _ _, fun k' hne => dictLookup_put_other _ _ hne,
    fun hd => keysRising_dictPut hd _ _, fun hdec hlt => ?_⟩
  rw [dictLookup_put_self]
  exact cons_take_decreasing hdec hlt depth

/-! ### When a step stops (R46, R106, R120) -/

theorem nextBlk_chunkEnd {b : Block} (h : b.Encodable) (s : State) : ∃ t, s.nextBlk b.chunkEnd = .next t := by
  obtain ⟨b', hb'⟩ := chunkEnd_total h
  exact ⟨s.withBlk b', by rw [hb']; rfl⟩

/-- The DATA that the invariant and R106 refuse is the one that makes the stream 2^64 bytes long. -/
theorem Block.Inv.reachesStreamLimit {P : Params} {b : Block} (h : b.Inv P) (hl : b.reachesStreamLimit = true) :
    b.absPos.toNat + b.chunk.length + 1 = 2 ^ 64 := by
  have hbelow : _ < 2 ^ 64 := h.belowLimit
  have hreach : 2 ^ 64 ≤ _ := of_decide_eq_true hl
  omega

/-- From the invariant a command gives a next state, or is the DATA that R106 refuses. -/
theorem exec_of_inv {s : State} (hs : s.Inv) (i : Instr) :
    (∃ t, exec i s = .next t) ∨
      ((∃ x l, i = .data x l) ∧ exec i s = .refused .streamOf2Pow64Bytes ∧
        s.blk.absPos.toNat + s.blk.chunk.length + 1 = 2 ^ 64) := by
  have he : s.blk.Encodable := hs.blk.encodable
  cases i with
  | nop => exact .inl ⟨_, rfl⟩
  | start => exact .inl ⟨_, rfl⟩
  | lit x => exact .inl ⟨_, rfl⟩
  | matchRef off len => exact .inl ⟨_, rfl⟩
  | cfgWrite reg v =>
    left
    simp only [exec, execCfgWrite]
    split
    · exact ⟨_, rfl⟩
    · exact ⟨_, rfl⟩
  | endChunk =>
    left
    simp only [exec, execEndChunk]
    split
    · exact nextBlk_chunkEnd he s
    · exact ⟨_, rfl⟩
  | finish =>
    left
    simp only [exec, execFinish]
    split
    · obtain ⟨b', hb'⟩ := chunkEnd_total he
      exact ⟨_, by rw [hb']; rfl⟩
    · exact ⟨_, rfl⟩
  | data x last =>
    simp only [exec, execData]
    split
    · exact .inl ⟨_, rfl⟩
    · split
      · exact .inl ⟨_, rfl⟩
      · split
        · next hl => exact .inr ⟨⟨x, last, rfl⟩, rfl, hs.blk.reachesStreamLimit hl⟩
        · left
          split
          · exact nextBlk_chunkEnd (appendByte_encodable he x) s
          · exact ⟨_, rfl⟩

/-- From the invariant a command word gives a next state, or is the DATA that R106 refuses. -/
theorem acceptCommand_of_inv {s : State} (hs : s.Inv) (w : CmdWord) :
    (∃ t, acceptCommand w s = .next t) ∨
      (acceptCommand w s = .refused .streamOf2Pow64Bytes ∧ (∃ x l, decodeCommand w = .ok (.data x l)) ∧
        s.blk.absPos.toNat + s.blk.chunk.length + 1 = 2 ^ 64) := by
  unfold acceptCommand
  cases hd : decodeCommand w with
  | error e => exact .inl ⟨_, rfl⟩
  | ok i =>
    rcases exec_of_inv hs i with hnext | ⟨⟨x, l, rfl⟩, href, hlen⟩
    · exact .inl hnext
    · exact .inr ⟨href, ⟨x, l, rfl⟩, hlen⟩

/-- A token placed on its own always gives a next state (R101). -/
theorem exec_token (tok : Token) (s : State) : exec tok.toInstr s = .next (s.withBlk (s.blk.emitToken tok)) := by
  cases tok <;> rfl

/-- From the invariant a step gives a next state, or its command is the DATA that R106 refuses. -/
theorem step_of_inv {s : State} (hs : s.Inv) :
    (∃ t, step s = .next t) ∨
      (step s = .refused .streamOf2Pow64Bytes ∧ s.microOp = none ∧
        (∃ w rest x l, s.pending = .command w :: rest ∧ decodeCommand w = .ok (.data x l)) ∧
        s.blk.absPos.toNat + s.blk.chunk.length + 1 = 2 ^ 64) := by
  unfold step
  cases hm : s.microOp with
  | some tok => exact .inl ⟨_, exec_token tok _⟩
  | none =>
    cases hp : s.pending with
    | nil => exact .inl ⟨_, rfl⟩
    | cons a rest =>
      cases a with
      | transfer => exact .inl ⟨_, rfl⟩
      | readback i => exact .inl ⟨_, rfl⟩
      | reset => exact .inl ⟨_, rfl⟩
      | command w =>
        have hpop : s.popAction.Inv := ⟨hs.paramsLegal, hs.blk⟩
        exact (acceptCommand_of_inv hpop w).imp_right fun ⟨href, ⟨x, l, hd⟩, hlen⟩ =>
          ⟨href, rfl, ⟨w, rest, x, l, rfl, hd⟩, hlen⟩

/-- Settles O53: a step that gives no next state is the refused DATA. -/
theorem noStepFaultsFromTheInvariant : Obligations.NoStepFaultsFromTheInvariant := by
  intro s hs
  rcases step_of_inv hs with ⟨t, ht⟩ | ⟨href, hm, hword, hlen⟩
  · simp [ht]
  · refine ⟨by simp [href], fun r hr => ⟨?_, hm, hword, hlen⟩⟩
    rw [href] at hr
    cases hr
    rfl

/-! ### The bytes produced (R53, R140) -/

/-- The commands that can end a chunk: DATA with LAST, END_CHUNK, FINISH (R84). -/
def EndsChunk (i : Instr) : Prop := (∃ x, i = .data x true) ∨ i = .endChunk ∨ i = .finish

theorem encodeChunk_outq {b b' : Block} (h : b.encodeChunk = some b') : ∃ ts, b'.outq = b.outq ++ serialize ts := by
  obtain ⟨ts, d, rfl⟩ := encodeChunk_frame h
  exact ⟨ts, rfl⟩

/-- From `s` to `t` the bytes produced grow by the serialization of some tokens, and by none unless `p` holds. -/
def State.Grows (s t : State) (p : Prop) : Prop :=
  ∃ ts, t.produced = s.produced ++ serialize ts ∧ (ts ≠ [] → p)

theorem State.Grows.of_produced_eq {s t : State} {p : Prop} (h : t.produced = s.produced) : s.Grows t p :=
  ⟨[], by simpa using h, fun hne => absurd rfl hne⟩

theorem State.Grows.withBlk {s : State} {b : Block} {p : Prop} (h : ∃ ts, b.outq = s.blk.outq ++ serialize ts)
    (hp : p) : s.Grows (s.withBlk b) p := by
  obtain ⟨ts, hts⟩ := h
  exact ⟨ts, by simp [State.produced, hts], fun _ => hp⟩

theorem State.Grows.withBlk_outq_eq {s : State} {b : Block} {p : Prop} (h : b.outq = s.blk.outq) :
    s.Grows (s.withBlk b) p :=
  .of_produced_eq (by simp [State.produced, h])

/-- A command of the command port adds bytes only where it ends a chunk (R53). -/
theorem exec_grows {s t : State} {w : CmdWord} {i : Instr} (hd : decodeCommand w = .ok i) (h : exec i s = .next t) :
    s.Grows t (EndsChunk i) := by
  obtain ⟨b, rfl, hb⟩ := exec_cases h
  cases hb with
  | dataLast _ _ _ he => exact .withBlk (b := b) (encodeChunk_outq he :) (.inl ⟨_, rfl⟩)
  | endChunk _ _ he => exact .withBlk (encodeChunk_outq he) (.inr (.inl rfl))
  | finish _ _ he => exact .withBlk (encodeChunk_outq he :) (.inr (.inr rfl))
  | err _ => exact .withBlk_outq_eq (by simp)
  | nop => exact .withBlk_outq_eq rfl
  | start => exact .withBlk_outq_eq rfl
  | cfg _ => exact .withBlk_outq_eq rfl
  | data _ _ _ => exact .withBlk_outq_eq rfl
  | endEmpty _ _ => exact .withBlk_outq_eq rfl
  | finishEmpty _ _ => exact .withBlk_outq_eq rfl
  | lit => simpa using decodeCommand_inv hd
  | matchRef => simpa using decodeCommand_inv hd

/-- A transfer moves the queue's head to the delivered bytes (R88). -/
theorem hostTransfer_produced (s : State) : (hostTransfer s).produced = s.produced := by
  cases hq : s.blk.outq with
  | nil => rw [hostTransfer_nil hq]
  | cons x q => rw [hostTransfer_cons hq]; simp [State.produced, hq]

/-- A step other than a reset adds whole tokens to the bytes produced, at a chunk end or for a token placed on its own. -/
theorem step_grows {s t : State} (h : step s = .next t) (hr : ¬ (s.microOp = none ∧ s.pending.head? = some .reset)) :
    s.Grows t (s.microOp ≠ none ∨
      ∃ w i, s.pending.head? = some (.command w) ∧ decodeCommand w = .ok i ∧ EndsChunk i) := by
  cases step_cases h with
  | @token tok _ hm he =>
    rw [exec_token] at he
    cases he
    exact ⟨[tok], by simp [State.produced], fun _ => .inl (by simp [hm])⟩
  | command hm hp hd he =>
    obtain ⟨ts, hts, hend⟩ := exec_grows hd he
    exact ⟨ts, hts, fun hne => .inr ⟨_, _, by rw [hp]; rfl, hd, hend hne⟩⟩
  | illegal hm hp hd => exact .of_produced_eq (by simp [State.produced])
  | idle hm hp => exact .of_produced_eq rfl
  | readback hm hp => exact .of_produced_eq rfl
  | transfer hm hp => exact .of_produced_eq (hostTransfer_produced s)
  | reset hm hp => exact absurd ⟨hm, by rw [hp]; rfl⟩ hr

/-- A step at whose turn the host resets the block is the reset (R140). -/
theorem step_reset {s : State} (hm : s.microOp = none) (hp : s.pending.head? = some .reset) :
    step s = .next (hostReset s) := by
  obtain ⟨rest, hp⟩ := List.head?_eq_some_iff.mp hp
  simp [step, hm, hp, hostAct]

/-- Settles O55: the reset by its step, every other step by the tokens it adds. -/
theorem producedBytesOnlyGrow : Obligations.ProducedBytesOnlyGrow := by
  intro s t h
  refine ⟨fun ⟨hm, hp⟩ => ?_, fun hr => ?_⟩
  · rw [step_reset hm hp] at h
    cases h
    exact ⟨rfl, rfl⟩
  · obtain ⟨ts, hts, hwhy⟩ := step_grows h hr
    refine ⟨ts, hts, fun hne => (hwhy hne).imp_right ?_⟩
    rintro ⟨w, i, hw, hd, ⟨x, rfl⟩ | rfl | rfl⟩
    · exact ⟨w, hw, .inl ⟨x, hd⟩⟩
    · exact ⟨w, hw, .inr (.inl hd)⟩
    · exact ⟨w, hw, .inr (.inr hd)⟩

end Sys2Proof.Machine
end

section
/-! SUPPORT. The proofs of the family 30_encoding: each operand format in both directions, the masks of R65 and R67 as
tests on fields, the decoder and the encoder as inverses, the words R69 rejects, and the bytes of tokens. -/

namespace Sys2Proof

/-! ### The masks of the match patterns (R65, R67) -/

/-- A mask of `len` ones at bit `lo` leaves the field that stands there. -/
theorem and_fieldMask (n lo len : Nat) : n &&& (2 ^ len - 1) <<< lo = (n / 2 ^ lo % 2 ^ len) <<< lo := by
  rw [← Nat.shiftRight_eq_div_pow]
  refine Nat.eq_of_testBit_eq fun i => ?_
  by_cases hi : lo ≤ i <;> simp [hi, Bool.and_comm]

/-- The mask of DATA tests bits [31:9] (R65). -/
theorem dataPattern_iff (w : CmdWord) : w &&& 0xFFFFFE00#32 = 0x20000000#32 ↔ w.toNat / 2 ^ 9 = 2 ^ 20 := by
  have hw := w.isLt
  have hmask : (0xFFFFFE00#32).toNat = (2 ^ 23 - 1) <<< 9 := rfl
  rw [← BitVec.toNat_inj, BitVec.toNat_and, hmask, and_fieldMask, BitVec.toNat_ofNat, Nat.shiftLeft_eq]
  omega

/-- The mask of CFG_WRITE tests the opcode and bits [23:16] (R67). -/
theorem cfgPattern_iff (w : CmdWord) :
    w &&& 0xF0FF0000#32 = 0x40000000#32 ↔ w.toNat / 2 ^ 28 = 4 ∧ w.toNat / 2 ^ 16 % 2 ^ 8 = 0 := by
  have hw := w.isLt
  have hmask : (0xF0FF0000#32).toNat = (2 ^ 4 - 1) <<< 28 ||| (2 ^ 8 - 1) <<< 16 := rfl
  have hlow : (w.toNat / 2 ^ 16 % 2 ^ 8) <<< 16 < 2 ^ 28 := by
    rw [Nat.shiftLeft_eq]
    omega
  rw [← BitVec.toNat_inj, BitVec.toNat_and, hmask, Nat.and_or_distrib_left, and_fieldMask, and_fieldMask,
    ← Nat.shiftLeft_add_eq_or_of_lt hlow, BitVec.toNat_ofNat, Nat.shiftLeft_eq, Nat.shiftLeft_eq]
  omega

/-! ### The fields of the words the encoder writes -/

@[simp] theorem byteField_dataWord (b : Byte) (l : Bool) : byteField (dataWord b l) = b := by
  have := b.isLt
  apply BitVec.eq_of_toNat_eq
  rw [byteField_toNat, dataWord_toNat]
  split <;> omega

@[simp] theorem lastField_dataWord (b : Byte) (l : Bool) : lastField (dataWord b l) = l := by
  have := b.isLt
  rw [Bool.eq_iff_iff, lastField_iff, dataWord_toNat]
  cases l <;> simp <;> omega

@[simp] theorem regField_cfgWord (r : BitVec 4) (v : BitVec 16) : regField (cfgWord r v) = r := by
  have := r.isLt
  have := v.isLt
  apply BitVec.eq_of_toNat_eq
  rw [regField_toNat, cfgWord_toNat]
  omega

@[simp] theorem valueField_cfgWord (r : BitVec 4) (v : BitVec 16) : valueField (cfgWord r v) = v := by
  have := v.isLt
  apply BitVec.eq_of_toNat_eq
  rw [valueField_toNat, cfgWord_toNat]
  omega

/-! ### Each command's words, in both directions (R63 to R68) -/

theorem decodeCommand_nop_iff (w : CmdWord) : decodeCommand w = .ok .nop ↔ w = 0x00000000#32 :=
  ⟨fun h => by simpa using decodeCommand_inv h, by rintro rfl; rfl⟩

theorem decodeCommand_start_iff (w : CmdWord) : decodeCommand w = .ok .start ↔ w = 0x10000000#32 :=
  ⟨fun h => by simpa using decodeCommand_inv h, by rintro rfl; rfl⟩

theorem decodeCommand_endChunk_iff (w : CmdWord) : decodeCommand w = .ok .endChunk ↔ w = 0x30000000#32 :=
  ⟨fun h => by simpa using decodeCommand_inv h, by rintro rfl; rfl⟩

theorem decodeCommand_finish_iff (w : CmdWord) : decodeCommand w = .ok .finish ↔ w = 0x50000000#32 :=
  ⟨fun h => by simpa using decodeCommand_inv h, by rintro rfl; rfl⟩

theorem decodeCommand_data_iff (w : CmdWord) (b : Byte) (l : Bool) : decodeCommand w = .ok (.data b l) ↔
    w.toNat / 2 ^ 9 = 2 ^ 20 ∧ b = byteField w ∧ l = lastField w := by
  constructor
  · intro h
    have hinv := decodeCommand_inv h
    simp only [reduceCtorEq, false_and, false_or, or_false, Instr.data.injEq] at hinv
    obtain ⟨hfields, hop, hres⟩ := hinv
    exact ⟨by omega, hfields⟩
  · rintro ⟨hw, rfl, rfl⟩
    rw [decodeCommand_eq, if_neg (by omega), if_neg (by omega), if_pos (by omega), if_pos (by omega)]

theorem decodeCommand_cfgWrite_iff (w : CmdWord) (r : BitVec 4) (v : BitVec 16) :
    decodeCommand w = .ok (.cfgWrite r v) ↔ (w.toNat / 2 ^ 28 = 4 ∧ w.toNat / 2 ^ 16 % 2 ^ 8 = 0) ∧
      w.toNat / 2 ^ 24 % 2 ^ 4 ≤ 4 ∧ r = regField w ∧ v = valueField w := by
  constructor
  · intro h
    have hinv := decodeCommand_inv h
    simp only [reduceCtorEq, false_and, false_or, or_false, Instr.cfgWrite.injEq] at hinv
    obtain ⟨hfields, hop, hres, hreg⟩ := hinv
    exact ⟨⟨hop, hres⟩, hreg, hfields⟩
  · rintro ⟨⟨hop, hres⟩, hreg, rfl, rfl⟩
    rw [decodeCommand_eq, if_neg (by omega), if_neg (by omega), if_neg (by omega), if_neg (by omega), if_pos hop,
      if_pos hres, if_pos hreg]

@[simp] theorem decodeCommand_dataWord (b : Byte) (l : Bool) : decodeCommand (dataWord b l) = .ok (.data b l) := by
  have := b.isLt
  rw [decodeCommand_data_iff, byteField_dataWord, lastField_dataWord, dataWord_toNat]
  exact ⟨by split <;> omega, rfl, rfl⟩

theorem decodeCommand_cfgWord {r : BitVec 4} (hr : r.toNat ≤ 4) (v : BitVec 16) :
    decodeCommand (cfgWord r v) = .ok (.cfgWrite r v) := by
  have := v.isLt
  rw [decodeCommand_cfgWrite_iff, regField_cfgWord, valueField_cfgWord, cfgWord_toNat]
  exact ⟨by omega, by omega, rfl, rfl⟩

/-- A DATA word is its two fields written out (R65). -/
theorem dataWord_fields {w : CmdWord} (hw : w.toNat / 2 ^ 9 = 2 ^ 20) : dataWord (byteField w) (lastField w) = w := by
  apply BitVec.eq_of_toNat_eq
  simp only [dataWord_toNat, byteField_toNat, lastField_iff]
  split <;> omega

/-- A CFG_WRITE word is its two fields written out (R67). -/
theorem cfgWord_fields {w : CmdWord} (hop : w.toNat / 2 ^ 28 = 4) (hres : w.toNat / 2 ^ 16 % 2 ^ 8 = 0) :
    cfgWord (regField w) (valueField w) = w := by
  apply BitVec.eq_of_toNat_eq
  rw [cfgWord_toNat, regField_toNat, valueField_toNat]
  omega

/-! ### Decoder and encoder as inverses (R69, R71, R72) -/

/-- The command port's decoder reads `i` from exactly the word the encoder writes for it, if the formats admit `i`. -/
theorem decodeCommand_ok_iff (w : CmdWord) (i : Instr) :
    decodeCommand w = .ok i ↔ i.wellFormed = true ∧ encode i = .command w := by
  cases i with
  | nop => simp [decodeCommand_nop_iff, Instr.wellFormed, encode, @eq_comm _ w]
  | start => simp [decodeCommand_start_iff, Instr.wellFormed, encode, @eq_comm _ w]
  | endChunk => simp [decodeCommand_endChunk_iff, Instr.wellFormed, encode, @eq_comm _ w]
  | finish => simp [decodeCommand_finish_iff, Instr.wellFormed, encode, @eq_comm _ w]
  | lit b => exact ⟨fun h => by simpa using decodeCommand_inv h, by simp [encode]⟩
  | matchRef off len => exact ⟨fun h => by simpa using decodeCommand_inv h, by simp [encode]⟩
  | data b l =>
    simp only [Instr.wellFormed, encode, Wire.command.injEq, true_and]
    constructor
    · intro h
      obtain ⟨hw, rfl, rfl⟩ := (decodeCommand_data_iff w b l).mp h
      exact dataWord_fields hw
    · rintro rfl
      exact decodeCommand_dataWord b l
  | cfgWrite r v =>
    simp only [Instr.wellFormed, encode, Wire.command.injEq, decide_eq_true_eq]
    constructor
    · intro h
      obtain ⟨⟨hop, hres⟩, hreg, rfl, rfl⟩ := (decodeCommand_cfgWrite_iff w r v).mp h
      exact ⟨by rwa [regField_toNat], cfgWord_fields hop hres⟩
    · rintro ⟨hr, rfl⟩
      exact decodeCommand_cfgWord hr v

/-- What the encoder sends to the command port is a command, not a token (R62). -/
theorem isCommand_of_encode {i : Instr} {w : CmdWord} (h : encode i = .command w) : i.isCommand = true := by
  cases i with
  | lit b => cases h
  | matchRef off len => cases h
  | _ => rfl

theorem decodeToken_litBytes (b : Byte) : decodeToken (litBytes b) = .ok (.lit b) := rfl

theorem decodeToken_matchBytes (off : BitVec 16) (len : Byte) :
    decodeToken (matchBytes off len) = .ok (.matchRef off len) := by
  have h : decodeToken (matchBytes off len) = .ok (.matchRef (off.extractLsb' 8 8 ++ off.extractLsb' 0 8) len) := rfl
  rw [h, Machine.offset_bytes_append]

/-! ### The words R69 rejects -/

/-- Each leaf of the opcode chain takes its word or rejects it; the tests that lead to the leaf settle R69's cases. -/
theorem decodeCommand_error_iff (w : CmdWord) : (∃ e, decodeCommand w = .error e) ↔ Machine.IllegalWord w := by
  have hw := w.isLt
  unfold Machine.IllegalWord
  rw [decodeCommand_eq]
  split_ifs <;> simp only [exists_false, Except.error.injEq, exists_eq', true_iff, false_iff] <;> omega

theorem decodeCommand_ok_iff_not_illegal (w : CmdWord) :
    (∃ i, decodeCommand w = .ok i) ↔ ¬ Machine.IllegalWord w := by
  rw [← decodeCommand_error_iff]
  cases decodeCommand w <;> simp

end Sys2Proof

namespace Sys2Proof.Machine

/-- An illegal word is dropped with the error action of ILLEGAL, in every state (R80, R123). -/
theorem acceptCommand_illegal {w : CmdWord} (h : IllegalWord w) (s : State) :
    acceptCommand w s = s.raiseErr .illegal := by
  obtain ⟨e, he⟩ := (decodeCommand_error_iff w).mpr h
  simp [acceptCommand, he]

/-! ### Token sequences (R71 to R73) -/

/-- The low byte of an offset (R54, R72). -/
theorem lowByte_eq (off : BitVec 16) : off.extractLsb' 0 8 = BitVec.ofNat 8 (off.toNat % 256) := by
  apply BitVec.eq_of_toNat_eq
  simp [BitVec.extractLsb']

/-- The high byte of an offset (R54, R72). -/
theorem highByte_eq (off : BitVec 16) : off.extractLsb' 8 8 = BitVec.ofNat 8 (off.toNat / 256) := by
  simp [BitVec.extractLsb', Nat.shiftRight_eq_div_pow]

/-! ### The statements of 30_encoding.md -/

/-- Settles O1: commands by the inverse of the command decoder, tokens by their bytes. -/
theorem encodedInstructionsDecodeBack : Obligations.EncodedInstructionsDecodeBack := by
  intro i hi
  cases i with
  | lit b => exact decodeToken_litBytes b
  | matchRef off len => exact decodeToken_matchBytes off len
  | _ => exact (decodeCommand_ok_iff _ _).mpr ⟨hi, rfl⟩

/-- Settles O2: the other direction of the same inverse. -/
theorem legalWordsReencodeToThemselves : Obligations.LegalWordsReencodeToThemselves := by
  intro w i h
  obtain ⟨hwf, henc⟩ := (decodeCommand_ok_iff w i).mp h
  exact ⟨hwf, isCommand_of_encode henc, henc⟩

/-- Settles O3: the opcode chain rejects exactly R69's cases, and the rejection is the error action of ILLEGAL. -/
theorem wordsAreIllegalExactlyAsListed : Obligations.WordsAreIllegalExactlyAsListed := fun w =>
  ⟨decodeCommand_error_iff w, decodeCommand_ok_iff_not_illegal w, fun h s => acceptCommand_illegal h s⟩

/-- Settles O5: the mask tests bits [31:9], which are all of a DATA word but its two fields. -/
theorem dataWordsFollowFormatD : Obligations.DataWordsFollowFormatD := by
  refine ⟨fun w => ?_, fun w b l h => ?_, fun b l => ⟨_, rfl, decodeCommand_dataWord b l, dataWord_toNat b l⟩⟩
  · simp [decodeCommand_data_iff, dataPattern_iff]
  · obtain ⟨-, rfl, rfl⟩ := (decodeCommand_data_iff w b l).mp h
    exact ⟨byteField_toNat w, lastField_iff w⟩

/-- Settles O6: the mask tests the opcode and the reserved byte, and REG is tested on its own. -/
theorem cfgWriteWordsFollowFormatC : Obligations.CfgWriteWordsFollowFormatC := by
  refine ⟨fun w => ?_, fun w r v h => ?_,
    fun r v hr => ⟨_, rfl, decodeCommand_cfgWord hr v, cfgWord_toNat r v⟩, fun w hop hreg => ?_,
    fun c P v => ⟨rfl, rfl, rfl, rfl, rfl⟩⟩
  · simp [decodeCommand_cfgWrite_iff, cfgPattern_iff]
  · obtain ⟨-, -, rfl, rfl⟩ := (decodeCommand_cfgWrite_iff w r v).mp h
    exact ⟨regField_toNat w, valueField_toNat w⟩
  · exact (decodeCommand_error_iff w).mpr (.inr (.inr (.inr (.inr ⟨hop, hreg⟩))))

/-- Settles O10: token by token, each read back before the bytes that follow it. -/
theorem deserializeInvertsSerialize : Obligations.DeserializeInvertsSerialize := by
  intro ts rest
  induction ts with
  | nil => rfl
  | cons t ts ih => rw [serialize_cons, List.append_assoc, deserialize_token_bytes, ih, List.cons_append]

/-- Settles O4: each command of format Z by its own word. -/
theorem formatZCommandsAreOneWordEach : Obligations.FormatZCommandsAreOneWordEach := fun w =>
  ⟨decodeCommand_nop_iff w, decodeCommand_start_iff w, decodeCommand_endChunk_iff w, decodeCommand_finish_iff w⟩

/-- Settles O7: a literal by its definition, a match by the two bytes of its offset. -/
theorem tokenBytesFollowTheWireFormat : Obligations.TokenBytesFollowTheWireFormat := by
  refine ⟨fun b => rfl, fun off len => ?_, rfl, rfl⟩
  rw [← lowByte_eq, ← highByte_eq]
  rfl

/-- Settles O8: the decoder runs on each word. -/
theorem sampleWordsDecode : Obligations.SampleWordsDecode :=
  ⟨rfl, rfl, rfl, rfl, rfl, rfl, rfl, rfl, rfl, rfl, rfl, rfl⟩

end Sys2Proof.Machine
end

section
/-! SUPPORT. The proofs of the family 40_commands: one equation per case of a command's meaning, the command each legal
word runs, the step by what the host does next, and the frames of the commands. -/

namespace Sys2Proof

/-! ### The command of a legal word (R62, R80) -/

section LegalWords

variable {w : CmdWord}

/-- A legal word of format Z has no bit but its opcode's (R63, R64, R66, R68). -/
theorem formatZ_word_eq (h : ¬ Machine.IllegalWord w) {op : Nat} (hop : w.toNat / 2 ^ 28 = op)
    (hz : op = 0 ∨ op = 1 ∨ op = 3 ∨ op = 5) : w = BitVec.ofNat 32 (op * 2 ^ 28) := by
  unfold Machine.IllegalWord at h
  apply BitVec.eq_of_toNat_eq
  rw [BitVec.toNat_ofNat]
  omega

/-- The command of each opcode, with its operands cut out of the word as a number. -/
theorem decodeCommand_legal (h : ¬ Machine.IllegalWord w) :
    (w.toNat / 2 ^ 28 = 0 → decodeCommand w = .ok .nop) ∧
      (w.toNat / 2 ^ 28 = 1 → decodeCommand w = .ok .start) ∧
      (w.toNat / 2 ^ 28 = 2 → decodeCommand w = .ok (.data (BitVec.ofNat 8 w.toNat) (w.getLsbD 8))) ∧
      (w.toNat / 2 ^ 28 = 3 → decodeCommand w = .ok .endChunk) ∧
      (w.toNat / 2 ^ 28 = 4 →
        decodeCommand w = .ok (.cfgWrite (BitVec.ofNat 4 (w.toNat / 2 ^ 24)) (BitVec.ofNat 16 w.toNat))) ∧
      (w.toNat / 2 ^ 28 = 5 → decodeCommand w = .ok .finish) ∧ w.toNat / 2 ^ 28 ≤ 5 := by
  have hcases := h
  unfold Machine.IllegalWord at hcases
  refine ⟨fun hop => ?_, fun hop => ?_, fun hop => ?_, fun hop => ?_, fun hop => ?_, fun hop => ?_, by omega⟩
  · exact (decodeCommand_nop_iff w).mpr (formatZ_word_eq h hop (by decide))
  · exact (decodeCommand_start_iff w).mpr (formatZ_word_eq h hop (by decide))
  · exact (decodeCommand_data_iff w _ _).mpr ⟨by omega, rfl, rfl⟩
  · exact (decodeCommand_endChunk_iff w).mpr (formatZ_word_eq h hop (by decide))
  · refine (decodeCommand_cfgWrite_iff w _ _).mpr ⟨⟨hop, by omega⟩, by omega, BitVec.eq_of_toNat_eq ?_, rfl⟩
    rw [regField_toNat, BitVec.toNat_ofNat]
  · exact (decodeCommand_finish_iff w).mpr (formatZ_word_eq h hop (by decide))

end LegalWords

end Sys2Proof

namespace Sys2Proof.Machine

open Sys2Proof.Config (Params)

/-- A word the decoder takes runs the command it reads (R80). -/
theorem acceptCommand_of_decode {w : CmdWord} {i : Instr} (h : decodeCommand w = .ok i) (s : State) :
    acceptCommand w s = exec i s := by
  simp only [acceptCommand, h]

/-! ### The stream commands, case by case (R83 to R86, R124, R125) -/

theorem encodeChunk_total {b : Block} (h : b.Encodable) : ∃ b', b.encodeChunk = some b' := by
  obtain ⟨ts, d, ins, henc, -⟩ := encodeChunk_spec h
  exact ⟨_, henc⟩

section StreamCommands

variable {s : State}

/-- Outside STREAMING each of DATA, END_CHUNK and FINISH is NOT_STREAMING (R124). -/
theorem exec_outsideStreaming (hs : s.blk.state ≠ .streaming) {i : Instr}
    (hi : (∃ x l, i = .data x l) ∨ i = .endChunk ∨ i = .finish) : exec i s = s.raiseErr .notStreaming := by
  rcases hi with ⟨x, l, rfl⟩ | rfl | rfl
  · exact if_pos hs
  · exact if_neg hs
  · exact if_neg hs

/-- A DATA into a full chunk is CHUNK_OVF, whatever LAST is (R125). -/
theorem exec_data_full (hs : s.blk.state = .streaming) (hfull : s.blk.chunk.length = s.params.chunkMax) (x : Byte)
    (last : Bool) : exec (.data x last) s = s.raiseErr .chunkOvf := by
  simp only [exec, execData, hs, hfull, ne_eq, not_true_eq_false, if_false, if_true]

/-- A DATA with room in the chunk appends its byte, and with LAST ends the chunk (R83). -/
theorem exec_data_append (hs : s.blk.state = .streaming) (hroom : s.blk.chunk.length ≠ s.params.chunkMax)
    (hlim : s.blk.absPos.toNat + s.blk.chunk.length + 1 < 2 ^ 64) (x : Byte) (last : Bool) :
    exec (.data x last) s =
      if last then s.nextBlk (s.blk.appendByte x).encodeChunk else .next (s.withBlk (s.blk.appendByte x)) := by
  have hbelow : s.blk.reachesStreamLimit = false := decide_eq_false (Nat.not_le.mpr hlim)
  have hend : (s.blk.appendByte x).chunkEnd = (s.blk.appendByte x).encodeChunk := chunkEnd_cons (by simp)
  simp only [exec, execData, hs, hroom, hbelow, hend, ne_eq, not_true_eq_false, Bool.false_eq_true, if_false]

theorem exec_endChunk_streaming (hs : s.blk.state = .streaming) : exec .endChunk s = s.nextBlk s.blk.chunkEnd :=
  if_pos hs

theorem exec_finish_streaming (hs : s.blk.state = .streaming) :
    exec .finish s = s.nextBlk (s.blk.chunkEnd.map Block.finishStream) :=
  if_pos hs

end StreamCommands

/-! ### The registers CFG_WRITE addresses (R87) -/

/-- Each register after a write: `Legal(v)` where REG selects it, else its old value. -/
theorem CfgRegs.write_toNat {P : Params} (hP : P.Legal) (c : CfgRegs) (reg : BitVec 4) (v : BitVec 16) :
    (c.write P reg v).window.toNat = (if reg.toNat = 0 then clampNat v.toNat 1 P.windowMax else c.window.toNat) ∧
      (c.write P reg v).maxMatch.toNat = (if reg.toNat = 1 then clampNat v.toNat 3 255 else c.maxMatch.toNat) ∧
      (c.write P reg v).probeCap.toNat =
        (if reg.toNat = 2 then clampNat v.toNat 1 P.probeCapMax else c.probeCap.toNat) ∧
      (c.write P reg v).chainDepth.toNat =
        (if reg.toNat = 3 then clampNat v.toNat 1 P.chainDepthMax else c.chainDepth.toNat) ∧
      (c.write P reg v).lazyEn = (if reg.toNat = 4 then v.getLsbD 0 else c.lazyEn) ∧
      (c.write P reg v).exhaustive = (if reg.toNat = 4 then v.getLsbD 1 else c.exhaustive) := by
  unfold CfgRegs.write
  split <;> simp_all [legalWindow_toNat hP, legalMaxMatch_toNat, legalProbeCap_toNat hP, legalChainDepth_toNat hP]

theorem exec_cfgWrite_legal {reg : BitVec 4} (hreg : reg.toNat ≤ 4) (v : BitVec 16) (s : State) :
    exec (.cfgWrite reg v) s = .next (s.withBlk { s.blk with cfg := s.blk.cfg.write s.params reg v }) :=
  if_pos hreg

theorem exec_cfgWrite_illegal {reg : BitVec 4} (hreg : 5 ≤ reg.toNat) (v : BitVec 16) (s : State) :
    exec (.cfgWrite reg v) s = s.raiseErr .illegal :=
  if_neg (Nat.not_le.mpr hreg)

/-! ### The step, by what the host does next (R6, R134) -/

section Step

variable {s : State}

theorem State.popAction_eq {a : HostAction} {rest : List HostAction} (hp : s.pending = a :: rest) :
    s.popAction = { s with pending := rest } := by
  simp only [State.popAction, hp, List.tail_cons]

theorem step_action {a : HostAction} {rest : List HostAction} (hm : s.microOp = none) (hp : s.pending = a :: rest) :
    step s = hostAct s a := by
  simp only [step, hm, hp]

theorem step_command {w : CmdWord} {rest : List HostAction} (hm : s.microOp = none)
    (hp : s.pending = .command w :: rest) : step s = acceptCommand w { s with pending := rest } := by
  rw [step_action hm hp, hostAct, State.popAction_eq hp]

theorem step_token {tok : Token} (hm : s.microOp = some tok) :
    step s = exec tok.toInstr { s with microOp := none } := by
  simp only [step, hm]

theorem step_idle (hm : s.microOp = none) (hp : s.pending = []) : step s = .next s := by
  simp only [step, hm, hp]

end Step

/-! ### A stream kept as it is (R86) -/

/-- From `b` to `b'` the stream is the same: everything but the configuration registers, the output queue and the
errors. -/
structure Block.SameStream (b b' : Block) : Prop where
  state : b'.state = b.state
  act : b'.act = b.act
  absPos : b'.absPos = b.absPos
  win : b'.win = b.win
  dict : b'.dict = b.dict
  chunk : b'.chunk = b.chunk
  litCount : b'.litCount = b.litCount
  matchCount : b'.matchCount = b.matchCount

section SameStream

variable {b b' : Block}

/-- The configuration registers and the queue are not part of the stream. -/
theorem Block.SameStream.output (b : Block) (cfg : CfgRegs) (outq : List Byte) :
    b.SameStream { b with cfg := cfg, outq := outq } :=
  ⟨rfl, rfl, rfl, rfl, rfl, rfl, rfl, rfl⟩

theorem Block.SameStream.raiseErr (b : Block) (c : ErrCode) : b.SameStream (b.raiseErr c) :=
  ⟨b.raiseErr_state c, b.raiseErr_act c, b.raiseErr_absPos c, b.raiseErr_win c, b.raiseErr_dict c, b.raiseErr_chunk c,
    b.raiseErr_litCount c, b.raiseErr_matchCount c⟩

/-- ABS_POS and the counters read alike (R40, R41). -/
theorem Block.SameStream.read_eq (h : b.SameStream b') (P P' : Params) :
    ∀ i ∈ [0xA#4, 0xB#4, 0xC#4, 0xD#4], b'.read P' i = b.read P i := by
  simp [Block.read, h.absPos, h.litCount, h.matchCount]

end SameStream

/-- Outside STREAMING no command but START changes the stream (R86, R124). -/
theorem ExecCase.sameStream {s : State} {i : Instr} {b : Block} (h : ExecCase s i b) (hs : s.blk.state ≠ .streaming)
    (hstart : i ≠ .start) (hcmd : i.isCommand = true) : s.blk.SameStream b := by
  cases h with
  | nop => exact .output s.blk _ _
  | cfg _ => exact .output s.blk _ _
  | err _ => exact .raiseErr s.blk _
  | start => exact absurd rfl hstart
  | data hstream _ _ => exact absurd hstream hs
  | dataLast hstream _ _ _ => exact absurd hstream hs
  | endEmpty hstream _ => exact absurd hstream hs
  | endChunk hstream _ _ => exact absurd hstream hs
  | finishEmpty hstream _ => exact absurd hstream hs
  | finish hstream _ _ => exact absurd hstream hs
  | lit => cases hcmd
  | matchRef => cases hcmd

/-- Outside STREAMING no step changes the stream but one that takes a START or a reset. -/
theorem step_sameStream {s t : State} (h : step s = .next t) (hs : s.blk.state ≠ .streaming) (hm : s.microOp = none)
    (hreset : s.pending.head? ≠ some .reset) (hstart : s.pending.head? ≠ some (.command 0x10000000#32)) :
    s.blk.SameStream t.blk := by
  cases step_cases h with
  | token hm' _ => cases hm.symm.trans hm'
  | reset _ hp => exact absurd (by rw [hp]; rfl) hreset
  | idle _ _ => exact .output s.blk _ _
  | readback _ _ => exact .output s.blk _ _
  | illegal _ _ _ => exact .raiseErr s.blk _
  | @command w rest i _ _ hp hd he =>
    obtain ⟨b, rfl, hb⟩ := exec_cases he
    refine hb.sameStream hs ?_ (legalWordsReencodeToThemselves w i hd).2.1
    rintro rfl
    rw [hp, (decodeCommand_start_iff w).mp hd] at hstart
    exact hstart rfl
  | transfer _ _ =>
    cases hq : s.blk.outq with
    | nil => rw [hostTransfer_nil hq]; exact .output s.blk _ _
    | cons x q => rw [hostTransfer_cons hq]; exact .output s.blk _ _

/-! ### The error fields after the error action (R122) -/

section RaiseErr

variable (b : Block) (c : ErrCode)

theorem Block.raiseErr_errIllegal_or : (b.raiseErr c).errIllegal = b.errIllegal ∨ c = .illegal := by
  cases c <;> simp

theorem Block.raiseErr_errNotStreaming_or : (b.raiseErr c).errNotStreaming = b.errNotStreaming ∨ c = .notStreaming := by
  cases c <;> simp

theorem Block.raiseErr_errChunkOvf_or : (b.raiseErr c).errChunkOvf = b.errChunkOvf ∨ c = .chunkOvf := by
  cases c <;> simp

theorem Block.raiseErr_errOut : (b.raiseErr c).errOut = true := by
  cases c <;> simp [Block.errOut]

/-- The first code is kept, or is recorded where there was none. -/
theorem Block.raiseErr_firstErr_or :
    (b.raiseErr c).firstErr = b.firstErr ∨ (b.firstErr = none ∧ (b.raiseErr c).errOut = true) := by
  cases hf : b.firstErr with
  | none => exact .inr ⟨rfl, b.raiseErr_errOut c⟩
  | some d => left; simp [hf]

end RaiseErr

/-! ### The commands that end no chunk (R81, R82, R83, R87) -/

/-- NOP, START, CFG_WRITE, and DATA without LAST. -/
def EndsNoChunk (i : Instr) : Prop := i = .nop ∨ i = .start ∨ (∃ r v, i = .cfgWrite r v) ∨ (∃ x, i = .data x false)

/-- What such a command does to the block: START opens a stream, an error is raised, the configuration registers change
(by CFG_WRITE alone), or the byte is appended. -/
theorem ExecCase.of_endsNoChunk {s : State} {i : Instr} {b : Block} (h : ExecCase s i b) (hi : EndsNoChunk i) :
    (i = .start ∧ b = s.blk.startStream) ∨ (∃ c, ErrCase s i c ∧ b = s.blk.raiseErr c) ∨
      (∃ c, b = { s.blk with cfg := c } ∧ ((∀ r v, i ≠ .cfgWrite r v) → c = s.blk.cfg)) ∨
      (∃ x, i = .data x false ∧ b = s.blk.appendByte x) := by
  cases h with
  | start => exact .inl ⟨rfl, rfl⟩
  | err he => exact .inr (.inl ⟨_, he, rfl⟩)
  | nop => exact .inr (.inr (.inl ⟨_, rfl, fun _ => rfl⟩))
  | cfg _ => exact .inr (.inr (.inl ⟨_, rfl, fun hne => absurd rfl (hne _ _)⟩))
  | data _ _ _ => exact .inr (.inr (.inr ⟨_, rfl, rfl⟩))
  | dataLast _ _ _ _ => simp [EndsNoChunk] at hi
  | endEmpty _ _ => simp [EndsNoChunk] at hi
  | endChunk _ _ _ => simp [EndsNoChunk] at hi
  | finishEmpty _ _ => simp [EndsNoChunk] at hi
  | finish _ _ _ => simp [EndsNoChunk] at hi
  | lit => simp [EndsNoChunk] at hi
  | matchRef => simp [EndsNoChunk] at hi

/-- The cause of each error such a command raises (R123 to R125). -/
theorem ErrCase.cause {s : State} {i : Instr} {c : ErrCode} (h : ErrCase s i c) (hi : EndsNoChunk i) :
    (c = .illegal → ∃ r v, i = .cfgWrite r v ∧ 5 ≤ r.toNat) ∧
      (c = .notStreaming → ∃ x, i = .data x false ∧ s.blk.state ≠ .streaming) ∧
      (c = .chunkOvf → ∃ x, i = .data x false ∧ s.blk.chunk.length = s.params.chunkMax) := by
  cases h with
  | illegal hreg => exact ⟨fun _ => ⟨_, _, rfl, hreg⟩, nofun, nofun⟩
  | dataOutside hs =>
    obtain rfl : _ = false := by simpa [EndsNoChunk] using hi
    exact ⟨nofun, fun _ => ⟨_, rfl, hs⟩, nofun⟩
  | full _ hfull =>
    obtain rfl : _ = false := by simpa [EndsNoChunk] using hi
    exact ⟨nofun, nofun, fun _ => ⟨_, rfl, hfull⟩⟩
  | endOutside _ => simp [EndsNoChunk] at hi
  | finishOutside _ => simp [EndsNoChunk] at hi

/-! ### The commands that end a chunk (R83 to R86, R90, R102) -/

/-- Outside the chunk that ends, the trimmed window reads as before or has dropped the position (R51). -/
theorem read_trimWindow_outside (v : View) {q : Nat} (hq : q < v.cs ∨ v.ce ≤ q) :
    Memory.read (trimWindow v) q = Memory.read v.win q ∨
      (Memory.read (trimWindow v) q = none ∧ q < v.ce - v.window) := by
  have hce : v.ce = v.cs + v.chunk.length := rfl
  rw [trimWindow, read_winDropBelow]
  split
  · left
    rw [read_winWriteAll, if_neg (by omega)]
  · exact .inr ⟨rfl, by omega⟩

/-- From `b` to `b'` the end of a chunk of `n` bytes has kept both configurations and the error fields, added to the queue
at its tail only, and left every window position outside the chunk as it was unless it has left the window. -/
structure Block.KeptByChunkEnd (n : Nat) (b b' : Block) : Prop where
  cfg : b'.cfg = b.cfg
  act : b'.act = b.act
  outq : b.outq <+: b'.outq
  errIllegal : b'.errIllegal = b.errIllegal
  errNotStreaming : b'.errNotStreaming = b.errNotStreaming
  errChunkOvf : b'.errChunkOvf = b.errChunkOvf
  firstErr : b'.firstErr = b.firstErr
  window : ∀ q, (q < b.absPos.toNat ∨ b.absPos.toNat + n ≤ q) →
    Memory.read b'.win q = Memory.read b.win q ∨
      (Memory.read b'.win q = none ∧ q < b.absPos.toNat + n - b.act.window.toNat)

theorem Block.KeptByChunkEnd.refl (n : Nat) (b : Block) : b.KeptByChunkEnd n b :=
  ⟨rfl, rfl, ⟨[], List.append_nil _⟩, rfl, rfl, rfl, rfl, fun _ _ => .inl rfl⟩

/-- A chunk end keeps the stream state and what `KeptByChunkEnd` names, from any block (R90). -/
theorem encodeChunk_kept {b b' : Block} (h : b.encodeChunk = some b') :
    b.KeptByChunkEnd b.chunk.length b' ∧ b'.state = b.state := by
  obtain ⟨ts, d, rfl⟩ := encodeChunk_frame h
  exact ⟨⟨rfl, rfl, ⟨serialize ts, rfl⟩, rfl, rfl, rfl, rfl, fun _ => read_trimWindow_outside b.view⟩, rfl⟩

/-- How many bytes such a command adds to the chunk before it ends it: DATA its own. -/
def bytesAdded (i : Instr) : Nat := if i = .endChunk ∨ i = .finish then 0 else 1

/-- In STREAMING a command that ends a chunk is the DATA of CHUNK_OVF, or keeps what a chunk end keeps, and the stream
state unless it is FINISH. -/
theorem ExecCase.of_endsChunk {s : State} {i : Instr} {b : Block} (h : ExecCase s i b) (hi : EndsChunk i)
    (hs : s.blk.state = .streaming) :
    ((∃ x, i = .data x true) ∧ b = s.blk.raiseErr .chunkOvf) ∨
      (s.blk.KeptByChunkEnd (s.blk.chunk.length + bytesAdded i) b ∧ (i ≠ .finish → b.state = s.blk.state)) := by
  cases h with
  | err he =>
    cases he with
    | full _ _ =>
      obtain rfl : _ = true := by simpa [EndsChunk] using hi
      exact .inl ⟨⟨_, rfl⟩, rfl⟩
    | illegal _ => simp [EndsChunk] at hi
    | dataOutside hout => exact absurd hs hout
    | endOutside hout => exact absurd hs hout
    | finishOutside hout => exact absurd hs hout
  | dataLast _ _ _ henc =>
    obtain ⟨hkept, hstate⟩ := encodeChunk_kept henc
    rw [Block.appendByte_chunk, List.length_append] at hkept
    exact .inr ⟨{ hkept with }, fun _ => hstate⟩
  | endEmpty _ _ => exact .inr ⟨.refl _ _, fun _ => rfl⟩
  | endChunk _ _ henc =>
    obtain ⟨hkept, hstate⟩ := encodeChunk_kept henc
    exact .inr ⟨hkept, fun _ => hstate⟩
  | finishEmpty _ _ => exact .inr ⟨{ Block.KeptByChunkEnd.refl _ s.blk with }, fun hne => absurd rfl hne⟩
  | finish _ _ henc =>
    obtain ⟨hkept, -⟩ := encodeChunk_kept henc
    exact .inr ⟨{ hkept with }, fun hne => absurd rfl hne⟩
  | nop => simp [EndsChunk] at hi
  | start => simp [EndsChunk] at hi
  | cfg _ => simp [EndsChunk] at hi
  | data _ _ _ => simp [EndsChunk] at hi
  | lit => simp [EndsChunk] at hi
  | matchRef => simp [EndsChunk] at hi

/-! ### The statements of 40_commands.md -/

/-- Settles O16: the four branches of DATA, and from the invariant the chunk end answers. -/
theorem dataAppendsItsByte : Obligations.DataAppendsItsByte := by
  intro s x last
  refine ⟨fun hs => exec_outsideStreaming hs (.inl ⟨x, last, rfl⟩), fun hs hfull => exec_data_full hs hfull x last,
    fun hs hroom hlim => ⟨?_, ?_⟩⟩
  · rintro rfl
    exact exec_data_append hs hroom hlim x false
  · rintro rfl hinv
    obtain ⟨b', hb'⟩ := encodeChunk_total (appendByte_encodable hinv.blk.encodable x)
    refine ⟨b', hb', (exec_data_append hs hroom hlim x true).trans ?_⟩
    rw [hb']
    rfl

/-- Settles O17: the chunk end by whether the chunk is empty (R84). -/
theorem endChunkEncodesTheOpenChunk : Obligations.EndChunkEncodesTheOpenChunk := by
  intro s
  refine ⟨fun hs hc => ?_, fun hs hc hinv => ?_, fun hs => exec_outsideStreaming hs (.inr (.inl rfl))⟩
  · rw [exec_endChunk_streaming hs, chunkEnd_nil hc]
    rfl
  · obtain ⟨b', hb'⟩ := encodeChunk_total hinv.blk.encodable
    refine ⟨b', hb', ?_⟩
    rw [exec_endChunk_streaming hs, chunkEnd_cons hc, hb']
    rfl

/-- Settles O18: the command by whether the chunk is empty, and the stream it leaves by what a step outside STREAMING
keeps. -/
theorem finishEndsTheStream : Obligations.FinishEndsTheStream := by
  refine ⟨fun s => ⟨fun hs hc => ?_, fun hs hc hinv => ?_, fun hs => exec_outsideStreaming hs (.inr (.inr rfl))⟩, ?_⟩
  · rw [exec_finish_streaming hs, chunkEnd_nil hc]
    rfl
  · obtain ⟨b', hb'⟩ := encodeChunk_total hinv.blk.encodable
    refine ⟨b', hb', ?_⟩
    rw [exec_finish_streaming hs, chunkEnd_cons hc, hb']
    rfl
  · intro s t hdone hm hstep hreset hstart
    have h := step_sameStream hstep (by simp [hdone]) hm hreset hstart
    exact ⟨h.state.trans hdone, h.win, h.dict, h.absPos, h.litCount, h.matchCount, h.act, h.chunk,
      h.read_eq s.params t.params⟩

/-- Settles O22: the decoder opcode by opcode, then the errors of the command it reads. -/
theorem acceptFollowsTheOpcode : Obligations.AcceptFollowsTheOpcode := by
  intro w s
  refine ⟨fun h => acceptCommand_illegal h s, fun h => ?_, fun h hop hs => ?_, fun h hop hs hfull => ?_⟩ <;>
    obtain ⟨hnop, hstart, hdata, hend, hcfg, hfinish, hle⟩ := decodeCommand_legal h
  · exact ⟨fun hop => acceptCommand_of_decode (hnop hop) s, fun hop => acceptCommand_of_decode (hstart hop) s,
      fun hop => acceptCommand_of_decode (hdata hop) s, fun hop => acceptCommand_of_decode (hend hop) s,
      fun hop => acceptCommand_of_decode (hcfg hop) s, fun hop => acceptCommand_of_decode (hfinish hop) s, hle⟩
  · rcases hop with hop | hop | hop
    · exact (acceptCommand_of_decode (hdata hop) s).trans (exec_outsideStreaming hs (.inl ⟨_, _, rfl⟩))
    · exact (acceptCommand_of_decode (hend hop) s).trans (exec_outsideStreaming hs (.inr (.inl rfl)))
    · exact (acceptCommand_of_decode (hfinish hop) s).trans (exec_outsideStreaming hs (.inr (.inr rfl)))
  · exact (acceptCommand_of_decode (hdata hop) s).trans (exec_data_full hs hfull _ _)

/-- Settles O49: each of the four things such a command can do. -/
theorem frameOfCommandsThatEndNoChunk : Obligations.FrameOfCommandsThatEndNoChunk := by
  intro s t i hi h
  obtain ⟨b, rfl, hb⟩ := exec_cases h
  rcases hb.of_endsNoChunk hi with ⟨rfl, rfl⟩ | ⟨c, herr, rfl⟩ | ⟨c, rfl, hcfg⟩ | ⟨x, rfl, rfl⟩
  · exact ⟨rfl, rfl, rfl, rfl, rfl, rfl, fun _ => rfl, fun hne => absurd rfl hne⟩
  · obtain ⟨hillegal, hnot, hovf⟩ := herr.cause hi
    have hsame := Block.SameStream.raiseErr s.blk c
    exact ⟨s.blk.raiseErr_outq c, rfl, rfl, rfl, rfl, rfl, fun _ => s.blk.raiseErr_cfg c, fun _ =>
      ⟨hsame.act, hsame.absPos, hsame.state, fun q => by rw [State.withBlk_blk, hsame.win],
        fun k => by rw [State.withBlk_blk, hsame.dict], hsame.litCount, hsame.matchCount, fun _ => hsame.chunk,
        (s.blk.raiseErr_errIllegal_or c).imp_right hillegal, (s.blk.raiseErr_errNotStreaming_or c).imp_right hnot,
        (s.blk.raiseErr_errChunkOvf_or c).imp_right hovf, s.blk.raiseErr_firstErr_or c⟩⟩
  · exact ⟨rfl, rfl, rfl, rfl, rfl, rfl, hcfg, fun _ => ⟨rfl, rfl, rfl, fun _ => rfl, fun _ => rfl, rfl, rfl,
      fun _ => rfl, .inl rfl, .inl rfl, .inl rfl, .inl rfl⟩⟩
  · exact ⟨rfl, rfl, rfl, rfl, rfl, rfl, fun _ => rfl, fun _ => ⟨rfl, rfl, rfl, fun _ => rfl, fun _ => rfl, rfl, rfl,
      fun hne => absurd rfl (hne x), .inl rfl, .inl rfl, .inl rfl, .inl rfl⟩⟩

/-- Settles O50: outside STREAMING the error action alone, in STREAMING the CHUNK_OVF of DATA or what a chunk end
keeps. -/
theorem frameOfCommandsThatEndAChunk : Obligations.FrameOfCommandsThatEndAChunk := by
  intro s t i hi h
  by_cases hs : s.blk.state = .streaming
  · obtain ⟨b, rfl, hb⟩ := exec_cases h
    rcases hb.of_endsChunk hi hs with ⟨⟨x, rfl⟩, rfl⟩ | ⟨hkept, hstate⟩
    · exact ⟨by simp, by simp, rfl, rfl, rfl, rfl, rfl, by simp, by simp, fun _ => by simp, fun _ => by simp,
        fun hne => absurd rfl (hne x), fun hout => absurd hs hout, fun _ hne => absurd rfl (hne x),
        fun _ _ _ _ => .inl (by simp)⟩
    · refine ⟨hkept.cfg, hkept.act, rfl, rfl, rfl, rfl, rfl, hkept.outq, hkept.errIllegal, hstate,
        fun _ => hkept.errNotStreaming, fun _ => hkept.errChunkOvf, fun hout => absurd hs hout,
        fun _ _ => hkept.firstErr, ?_⟩
      rintro n rfl
      exact hkept.window
  · have hout : (∃ x l, i = .data x l) ∨ i = .endChunk ∨ i = .finish := hi.imp_left fun ⟨x, hx⟩ => ⟨x, true, hx⟩
    rw [exec_outsideStreaming hs hout] at h
    cases h
    have hsame := Block.SameStream.raiseErr s.blk .notStreaming
    exact ⟨by simp, hsame.act, rfl, rfl, rfl, rfl, rfl, by simp, by simp, fun _ => hsame.state,
      fun hin => absurd hin hs, fun _ => by simp,
      fun _ => ⟨hsame.state, hsame.win, hsame.dict, hsame.absPos, hsame.chunk, by simp, hsame.litCount,
        hsame.matchCount⟩,
      fun hin => absurd hin hs, fun _ _ _ _ => .inl (by simp)⟩

/-- Settles O14. -/
theorem nopChangesNothing : Obligations.NopChangesNothing := fun s =>
  ⟨rfl, acceptCommand_of_decode ((decodeCommand_nop_iff _).mpr rfl) s⟩

/-- Settles O15: the fields of `startStream` are the statement's. -/
theorem startOpensAFreshStream : Obligations.StartOpensAFreshStream := fun _ => rfl

/-- Settles O19: the registers one by one, and the words R69 (b) and (c) reject. -/
theorem cfgWriteStoresTheLegalValue : Obligations.CfgWriteStoresTheLegalValue := by
  refine ⟨fun s reg v hP hreg => ?_, fun s reg v hreg => exec_cfgWrite_illegal hreg v s, fun s w hop hbad => ?_⟩
  · exact ⟨_, exec_cfgWrite_legal hreg v s, CfgRegs.write_toNat hP s.blk.cfg reg v⟩
  · refine acceptCommand_illegal ?_ s
    unfold IllegalWord
    omega

/-- Settles O27: the step by the head of the host's list or the token placed. -/
theorem stepRunsTheDecodedInstruction : Obligations.StepRunsTheDecodedInstruction := by
  intro s
  refine ⟨fun w rest i hm hp hd => ?_, fun w rest e hm hp hd => ?_, fun b => step_token, fun off len => step_token,
    step_idle⟩
  · exact (step_command hm hp).trans (acceptCommand_of_decode hd _)
  · exact (step_command hm hp).trans (acceptCommand_illegal ((decodeCommand_error_iff w).mp ⟨e, hd⟩) _)

/-- Settles O28: the transfer by whether the queue is empty. -/
theorem outputTransferDeliversTheHead : Obligations.OutputTransferDeliversTheHead := by
  intro s rest hm hp
  have hstep : step s = .next (hostTransfer s) := step_action hm hp
  refine ⟨fun x q hq => ?_, fun hq => ?_⟩
  · rw [hstep, hostTransfer_cons hq, hp, List.tail_cons]
  · rw [hstep, hostTransfer_nil hq]

end Sys2Proof.Machine
end

section
/-! SUPPORT. The proofs of the family 41_match_finder: the tokens of a chunk, one equation or inversion per piece of the
search, what the dictionary holds at a search, the effect of a chunk end, and what no command reads. -/

namespace Sys2Proof.Machine

/-! ### The tokens of a chunk (R99, R104) -/

section Tokens

variable {v : View} {a : CfgRegs} {p : Nat} {ts : List Token}

/-- Tokens that cover a chunk from `p` on span together the rest of it. -/
theorem TokensCover.span_sum (h : TokensCover v a p ts) : p + (ts.map Token.span).sum = v.ce := by
  induction ts generalizing p with
  | nil => exact h
  | cons t ts ih =>
    rw [List.map_cons, List.sum_cons, ← Nat.add_assoc]
    exact ih h.2

/-- With fewer than 3 bytes left no match fits, so the tokens are the chunk's own bytes (R103). -/
theorem TokensCover.eq_literals (h : TokensCover v a p ts) (hcs : v.cs ≤ p) (hshort : v.ce < p + 3) :
    ts = (v.chunk.drop (p - v.cs)).map .literal := by
  have hce : v.ce = v.cs + v.chunk.length := rfl
  induction ts generalizing p with
  | nil =>
    have hp : p = v.ce := h
    rw [List.drop_of_length_le (by omega), List.map_nil]
  | cons t ts ih =>
    obtain ⟨hfit, hrest⟩ := h
    cases t with
    | literal x =>
      have hx : v.chunk[p - v.cs]? = some x := (byteAt_chunk hcs).symm.trans hfit
      obtain ⟨hlt, rfl⟩ := List.getElem?_eq_some_iff.mp hx
      have hnext : p + (Token.literal v.chunk[p - v.cs]).span - v.cs = p - v.cs + 1 := by
        simp only [Token.span]; omega
      rw [ih hrest (by omega) (by omega), hnext, List.drop_eq_getElem_cons hlt, List.map_cons]
    | matchRef off len =>
      obtain ⟨-, -, -, hlen, -, hend, -⟩ := hfit
      omega

end Tokens

theorem countLiterals_map_literal (bs : List Byte) : countLiterals (bs.map .literal) = bs.length := by
  simp [countLiterals, List.filter_map, Function.comp_def]

theorem countMatches_map_literal (bs : List Byte) : countMatches (bs.map .literal) = 0 := by
  simp [countMatches, List.filter_map, Function.comp_def]

/-- Settles O44: the tokens of `encodeChunk_spec`, whose spans add up because they cover the chunk. -/
theorem chunkTokensStandForTheChunk : Obligations.ChunkTokensStandForTheChunk := by
  intro P b hb _
  obtain ⟨ts, d, ins, henc, hcover, hlen, -⟩ := encodeChunk_spec hb.encodable
  have hsum : (ts.map Token.span).sum = b.chunk.length := Nat.add_left_cancel hcover.span_sum
  refine ⟨_, ts, henc, hcover, hsum, rfl, ?_, ?_, hlen⟩
  · rw [BitVec.toNat_add, BitVec.toNat_ofNat, Nat.add_mod_mod]
  · rw [BitVec.toNat_add, BitVec.toNat_ofNat, Nat.add_mod_mod]

/-! ### The search (R92, R97, R98) -/

section Search

variable {v : View} {a : CfgRegs} {d : Dict} {f f' : Finder} {q len off : Nat}

/-- `FindMatch(q)` is `SyncDict(q)` and then the search (R98). -/
theorem findMatch_eq_some_iff : findMatch v a f q = some (f', len, off) ↔
    syncDict v a.chainDepth.toNat q f = some f' ∧ searchAt v a f'.dict q = some (len, off) := by
  simp only [findMatch, Option.bind_eq_some_iff, Option.map_eq_some_iff, Prod.mk.injEq]
  constructor
  · rintro ⟨f₁, hsync, lo, hsearch, rfl, rfl⟩
    exact ⟨hsync, hsearch⟩
  · rintro ⟨hsync, hsearch⟩
    exact ⟨f', hsync, (len, off), hsearch, rfl, rfl⟩

/-- With fewer than 3 bytes of limit the search answers no match and looks at no candidate (R92). -/
theorem searchAt_of_limit_lt (h : searchLimit v a q < 3) : searchAt v a d q = some (0, 0) :=
  if_pos h

/-- With 3 bytes of limit the search is `Best` over the candidates, a result below 3 being no match (R98). -/
theorem searchAt_of_limit_ge (h : 3 ≤ searchLimit v a q) : searchAt v a d q =
    (candidates v a d q).bind fun cands => (best v cands q (searchLimit v a q)).map fun lo =>
      if lo.1 < 3 then (0, 0) else lo :=
  if_neg (Nat.not_lt.mpr h)

/-- Every answer of the search is no match, or at least 3 and within the limit, whatever the dictionary (R92, R98). -/
theorem searchAt_bounds (h : searchAt v a d q = some (len, off)) :
    (len = 0 ∧ off = 0) ∨ (3 ≤ len ∧ len ≤ searchLimit v a q) := by
  by_cases hlim : searchLimit v a q < 3
  · rw [searchAt_of_limit_lt hlim] at h
    cases h
    exact .inl ⟨rfl, rfl⟩
  · rw [searchAt_of_limit_ge (Nat.not_lt.mp hlim)] at h
    obtain ⟨cands, -, h⟩ := Option.bind_eq_some_iff.mp h
    obtain ⟨⟨L, O⟩, hbest, h⟩ := Option.map_eq_some_iff.mp h
    obtain ⟨-, hle, -⟩ := bestLoop_spec hbest (Nat.zero_le _)
    split at h
    · cases h; exact .inl ⟨rfl, rfl⟩
    · next hL => cases h; exact .inr ⟨Nat.not_lt.mp hL, hle⟩

theorem findMatch_bounds (h : findMatch v a f q = some (f', len, off)) :
    (len = 0 ∧ off = 0) ∨ (3 ≤ len ∧ len ≤ min a.maxMatch.toNat (v.ce - q)) :=
  searchAt_bounds (findMatch_eq_some_iff.mp h).2

theorem findMatch_of_limit_lt (h : min a.maxMatch.toNat (v.ce - q) < 3)
    (hsync : syncDict v a.chainDepth.toNat q f = some f') : findMatch v a f q = some (f', 0, 0) :=
  findMatch_eq_some_iff.mpr ⟨hsync, searchAt_of_limit_lt h⟩

/-- `SyncDict(q)` leaves nothing to insert for a later call at the same or a higher position (R93). -/
theorem syncDict_resume {depth q' : Nat} (hq : q ≤ q') (h : syncDict v depth q f = some f') :
    syncDict v depth q' f' = syncDict v depth q' f :=
  syncLoop_resume hq h (by omega)

end Search

/-- Settles O37: the bounds of an answer, and the answer below the limit of 3 once `SyncDict` has answered. -/
theorem searchesStayWithinTheLimit : Obligations.SearchesStayWithinTheLimit := by
  refine ⟨fun v a f f' q len off h => ?_, fun v a f f' q => findMatch_of_limit_lt⟩
  rcases findMatch_bounds h with ⟨rfl, rfl⟩ | ⟨hmin, hmax⟩
  · exact ⟨Nat.zero_le _, fun _ => ⟨rfl, rfl⟩, .inl ⟨rfl, rfl⟩⟩
  · exact ⟨hmax, fun hlim => by omega, .inr hmin⟩

/-- Settles O40. -/
theorem matchLenCountsEqualBytes : Obligations.MatchLenCountsEqualBytes := by
  intro v r q lim l h
  obtain ⟨hle, hbytes, hstop⟩ := matchLen_spec h
  refine ⟨hle, fun i hi => ?_, hstop⟩
  obtain ⟨hsome, heq⟩ := hbytes i hi
  exact ⟨heq ▸ hsome, heq⟩

/-- Settles O41: the loop of `Best`, begun with no match. -/
theorem bestIsTheFirstLongestCandidate : Obligations.BestIsTheFirstLongestCandidate := by
  intro v cands q lim len off h
  obtain ⟨-, -, hmax, hfirst⟩ := bestLoop_spec h (Nat.zero_le _)
  exact ⟨hmax, hfirst.imp_right And.right⟩

/-- Settles O42: the branches of R98 after `SyncDict`, and a second call that finds nothing to insert. -/
theorem findMatchTwiceGivesTheSameAnswer : Obligations.FindMatchTwiceGivesTheSameAnswer := by
  refine ⟨fun v a f f' q hsync => ⟨fun hlim => findMatch_of_limit_lt hlim hsync,
    fun hlim cands l o hmode hbest => ?_⟩, fun v a f f' q len off h => ?_⟩
  · have hcands : candidates v a f'.dict q = some cands := by
      rcases hmode with ⟨hexh, rfl⟩ | ⟨hhash, hc⟩
      · simp [candidates, hexh]
      · simp [candidates, hhash, hc]
    have hsearch : searchAt v a f'.dict q = some (if l < 3 then (0, 0) else (l, o)) := by
      rw [searchAt_of_limit_ge hlim, hcands, Option.bind_some]
      exact Option.map_eq_some_iff.mpr ⟨(l, o), hbest, rfl⟩
    refine ⟨fun hl => findMatch_eq_some_iff.mpr ⟨hsync, ?_⟩, fun hl => findMatch_eq_some_iff.mpr ⟨hsync, ?_⟩⟩
    · rw [hsearch, if_pos hl]
    · rw [hsearch, if_neg (Nat.not_lt.mpr hl)]
  · obtain ⟨hsync, hsearch⟩ := findMatch_eq_some_iff.mp h
    exact findMatch_eq_some_iff.mpr ⟨(syncDict_resume (Nat.le_refl q) hsync).trans hsync, hsearch⟩

/-! ### The candidates (R94, R95) -/

/-- Where the entries that pass a test come first, the test keeps the entries up to the first failure. -/
theorem filter_eq_takeWhile {α : Type} {p : α → Bool} {l : List α}
    (h : l.Pairwise fun x y => p y = true → p x = true) : l.filter p = l.takeWhile p := by
  induction l with
  | nil => rfl
  | cons x l ih =>
    obtain ⟨hx, hl⟩ := List.pairwise_cons.mp h
    by_cases hp : p x = true
    · rw [List.filter_cons_of_pos hp, List.takeWhile_cons_of_pos hp, ih hl]
    · rw [List.takeWhile_cons_of_neg hp, List.filter_eq_nil_iff]
      intro y hy hpy
      rcases List.mem_cons.mp hy with rfl | hy
      · exact hp hpy
      · exact hp (hx y hy hpy)

/-- Settles O38: a decreasing list has its positions within the window first. -/
theorem hashCandidatesAreTheRecentSameKeyPositions : Obligations.HashCandidatesAreTheRecentSameKeyPositions := by
  intro v a d q k cands hk hdec hbelow h
  have hcands : cands = ((dictLookup d k).take a.nprobe).filter fun r => decide (q - r ≤ a.window.toNat) := by
    rw [candHash, hk] at h
    exact (Option.some.inj h).symm
  have hnear : ((dictLookup d k).take a.nprobe).Pairwise fun x y =>
      decide (q - y ≤ a.window.toNat) = true → decide (q - x ≤ a.window.toNat) = true := by
    refine (hdec.sublist (List.take_sublist _ _)).imp fun hxy hy => ?_
    simp only [decide_eq_true_eq] at hy ⊢
    omega
  refine ⟨hcands.trans (filter_eq_takeWhile hnear), ?_, fun r hr => ?_⟩
  · rw [hcands]
    exact (List.length_filter_le _ _).trans (List.length_take_le _ _)
  · obtain ⟨hwin, k', hk', hmem⟩ := mem_candHash h hr
    obtain rfl : k' = k := Option.some.inj (hk'.symm.trans hk)
    obtain ⟨hlt, hkey⟩ := hbelow r hmem
    exact ⟨hlt, (hkey hwin).trans hk.symm, by omega, hwin⟩

/-- Settles O39: the candidates are a range, read downwards. -/
theorem exhaustiveCandidatesAreTheWholeWindow : Obligations.ExhaustiveCandidatesAreTheWholeWindow := by
  intro a q
  refine ⟨fun r => ?_, ?_, ?_⟩
  · rw [mem_candExh]
    omega
  · exact List.pairwise_reverse.mpr List.pairwise_lt_range'
  · rw [candExh, List.length_reverse, List.length_range', CfgRegs.maxDist]
    omega

/-! ### The dictionary at a search and after the chunk (R93, R103, log 12) -/

/-- With the cursor behind the chunk's last insertable position, all of them have been inserted. -/
theorem insertedAt_all (v : View) (k : Nat) : insertedAt v (max v.cs (v.ce - 2)) k = insertablePositions v k := by
  have hce : v.ce = v.cs + v.chunk.length := rfl
  rw [insertedAt, insertablePositions, show max v.cs (v.ce - 2) - v.cs = v.chunk.length - 2 by omega]

theorem dictLookup_of_mem {d : Dict} (hd : KeysRising d) {e : Nat × List Nat} (h : e ∈ d) : dictLookup d e.1 = e.2 := by
  induction d with
  | nil => cases h
  | cons e₀ d ih =>
    obtain ⟨hlt, hd⟩ := List.pairwise_cons.mp hd
    rw [dictLookup_cons]
    rcases List.mem_cons.mp h with rfl | h
    · exact if_pos rfl
    · rw [if_neg (hlt e.1 (List.mem_map_of_mem h)).ne', ih hd h]

/-- A listed entry of one dictionary stands in every other with the same lookups. -/
theorem mem_of_dictLookup_eq {d d' : Dict} (hd : Dict.wf d = true) (h : ∀ k, dictLookup d k = dictLookup d' k)
    {e : Nat × List Nat} (he : e ∈ d) : e ∈ d' := by
  obtain ⟨hrising, hne⟩ := (dict_wf_iff d).mp hd
  have hlook : dictLookup d' e.1 = e.2 := (h e.1).symm.trans (dictLookup_of_mem hrising he)
  obtain ⟨r, hr⟩ := List.exists_mem_of_ne_nil _ (hne e he)
  have hmem : (e.1, dictLookup d' e.1) ∈ d' := mem_of_dictLookup (hlook.symm ▸ hr)
  rwa [hlook] at hmem

/-- The canonical form: dictionaries with equal lookups are equal (log 12). -/
theorem dict_ext {d d' : Dict} (hd : Dict.wf d = true) (hd' : Dict.wf d' = true)
    (h : ∀ k, dictLookup d k = dictLookup d' k) : d = d' := by
  have hlt : d.Pairwise fun e e' => e.1 < e'.1 := List.pairwise_map.mp ((dict_wf_iff d).mp hd).1
  have hlt' : d'.Pairwise fun e e' => e.1 < e'.1 := List.pairwise_map.mp ((dict_wf_iff d').mp hd').1
  have hperm : d.Perm d' := (List.perm_ext_iff_of_nodup (hlt.imp (ne_of_apply_ne _ <| Nat.ne_of_lt ·))
    (hlt'.imp (ne_of_apply_ne _ <| Nat.ne_of_lt ·))).mpr fun _ =>
      ⟨mem_of_dictLookup_eq hd h, mem_of_dictLookup_eq hd' fun k => (h k).symm⟩
  exact hperm.eq_of_pairwise (fun e e' _ _ h h' => absurd h (Nat.lt_asymm h')) hlt hlt'

theorem FinderForm.dict_wf {v : View} {depth : Nat} {d₀ : Dict} {f : Finder} (hf : FinderForm v depth d₀ f) :
    Dict.wf f.dict = true :=
  (dict_wf_iff _).mpr ⟨hf.rising, fun e he => by
    obtain ⟨-, hne, -⟩ := hf.entries e he
    exact hne⟩

/-- Settles O45: the history of the finder's form at the cursor that `SyncDict` reaches. -/
theorem chunkEndInsertsEveryInsertablePosition : Obligations.ChunkEndInsertsEveryInsertablePosition := by
  intro P b hb _
  have hv : b.view.Exact := hb.encodable.view_exact
  refine ⟨fun b' henc k => ?_, fun q hq => ?_⟩
  · obtain ⟨ts, d, ins, hspec, -, -, hf, rfl⟩ := encodeChunk_spec hb.encodable
    cases henc.symm.trans hspec
    rw [← insertedAt_all]
    exact hf.history k
  · obtain ⟨f, hsync, hf, -, hhigh, hreach⟩ := syncDict_form hv hb.encodable.depthPos q hb.encodable.finderForm
    have hcs : b.view.cs ≤ q := hq
    have hins : f.ins ≤ q := hhigh.trans (max_le hcs (Nat.le_refl q))
    refine ⟨f, hsync, fun k => ?_, fun q' hq' => syncDict_resume hq' hsync, fun k => ⟨hf.lookup_decreasing k, ?_⟩⟩
    · rw [insertablePositions_below k hf.insLow hins hf.insHigh hreach]
      exact hf.history k
    · intro r hr
      refine ⟨(hf.lookup_lt hr).trans_le hins, fun hwin => hf.keyed _ (mem_of_dictLookup hr) r hr ?_⟩
      have hlo : b.view.lo = b.view.cs - b.act.window.toNat := rfl
      omega

/-- Settles O47: no match fits into a short chunk, and no key does, so the dictionary has the lookups it had. -/
theorem shortChunksAreAllLiterals : Obligations.ShortChunksAreAllLiterals := by
  intro P b hb hn
  have hce : b.view.ce = b.view.cs + b.chunk.length := rfl
  obtain ⟨ts, d, ins, henc, hcover, -, hf, rfl⟩ := encodeChunk_spec hb.encodable
  have hts : ts = b.chunk.map .literal := by
    have h := hcover.eq_literals (Nat.le_refl _) (by omega)
    rwa [Nat.sub_self, List.drop_zero] at h
  have hdict : d = b.dict := by
    have hf₀ := hb.encodable.finderForm
    refine dict_ext hf.dict_wf hf₀.dict_wf fun k => (hf.history k).trans ?_
    rw [show max b.view.cs (b.view.ce - 2) = b.view.cs by omega]
    exact (hf₀.history k).symm
  subst hts hdict
  refine ⟨_, henc, rfl, ?_, ?_, rfl⟩
  · rw [countLiterals_map_literal]
  · rw [countMatches_map_literal]
    exact BitVec.add_zero _

/-! ### The scan (R99, R100) -/

section Scan

variable {v : View} {a : CfgRegs} {f f₁ f₂ : Finder} {p len off : Nat} {x : Byte}

/-- No match: a literal. -/
theorem chooseToken_of_no_match (hm : findMatch v a f p = some (f₁, 0, off)) (hx : v.byteAt p = some x) :
    chooseToken v a f p = some (f₁, .literal x) := by
  simp [chooseToken, hm, hx]

/-- A match: put off for a literal, or taken. -/
theorem chooseToken_of_match (hm : findMatch v a f p = some (f₁, len, off)) (hlen : len ≠ 0)
    (hx : v.byteAt p = some x) {put : Bool} (hd : deferral v a f₁ len p = some (f₂, put)) :
    chooseToken v a f p =
      some (f₂, if put then .literal x else .matchRef (BitVec.ofNat 16 off) (BitVec.ofNat 8 len)) := by
  cases put <;> simp [chooseToken, hm, hlen, hx, hd]

theorem deferral_of_not_lazy (h : a.lazyEn = false) : deferral v a f len p = some (f, false) := by
  simp [deferral, h]

theorem deferral_of_lazy (h : a.lazyEn = true) (hp : p + 1 < v.ce) {len₂ off₂ : Nat}
    (hm : findMatch v a f (p + 1) = some (f₂, len₂, off₂)) :
    deferral v a f len p = some (f₂, decide (len + 1 < len₂)) := by
  simp [deferral, h, hp, hm]

/-- The completion leaves the queue and the counters as the scan did (R102). -/
theorem completeChunk_output {b b' : Block} {ins : Nat} (h : completeChunk v b ins = some b') :
    b'.outq = b.outq ∧ b'.litCount = b.litCount ∧ b'.matchCount = b.matchCount := by
  obtain ⟨g, -, rfl⟩ := Option.map_eq_some_iff.mp h
  exact ⟨rfl, rfl, rfl⟩

end Scan

/-- Settles O43: the choice of a token by the match found and the look-ahead, then one turn of the scan, and the chunk end
as the scan and its completion. -/
theorem lazyEvaluationDefersOnlyForALongerMatch : Obligations.LazyEvaluationDefersOnlyForALongerMatch := by
  refine ⟨fun v a f f1 p len off x hm hx => ?_, fun v n b ins p => ⟨fun hp => ?_, fun hp g t hc => ?_⟩,
    fun x off len => ⟨rfl, rfl⟩, fun b b' h => ?_⟩
  · have hbounds := findMatch_bounds hm
    refine ⟨?_, fun hp => by omega, fun hlen hlazy => ?_, fun hlen hlazy f2 len2 off2 hm2 => ⟨?_, fun hmax => ?_⟩⟩
    · rintro rfl
      exact chooseToken_of_no_match hm hx
    · simpa using chooseToken_of_match hm (by omega) hx (deferral_of_not_lazy hlazy)
    · simpa using chooseToken_of_match hm (by omega) hx (deferral_of_lazy hlazy (by omega) hm2)
    · have hbounds2 := findMatch_bounds hm2
      omega
  · rw [scanLoop, if_neg (Nat.not_lt.mpr hp)]
  · rw [scanLoop, if_pos hp, hc, Option.bind_some]
  · obtain ⟨r, hscan, hcomplete⟩ := Option.bind_eq_some_iff.mp h
    exact ⟨r, hscan, completeChunk_output hcomplete⟩

/-! ### What a chunk end writes (R51, R90, R102) -/

/-- The trimmed window position by position, whatever window the chunk began with (R51). -/
theorem read_trimWindow_eq (v : View) (q : Nat) :
    Memory.read (trimWindow v) q =
      if q < v.ce - v.window then none
      else if v.cs ≤ q ∧ q < v.ce then v.chunk[q - v.cs]?
      else Memory.read v.win q := by
  rw [trimWindow, read_winDropBelow, read_winWriteAll]
  by_cases hq : v.ce - v.window ≤ q
  · rw [if_pos hq, if_neg (Nat.not_lt.mpr hq)]
    rfl
  · rw [if_neg hq, if_pos (Nat.not_le.mp hq)]

/-- Settles O46: the fields of `encodeChunk_frame`, and the trimmed window. -/
theorem chunkEndWritesOnlyItsFields : Obligations.ChunkEndWritesOnlyItsFields := by
  intro b b' h
  obtain ⟨ts, d, rfl⟩ := encodeChunk_frame h
  exact ⟨rfl, rfl, rfl, rfl, rfl, rfl, rfl, rfl, BitVec.toNat_ofNat _ _, ⟨serialize ts, rfl⟩, read_trimWindow_eq b.view⟩

/-! ### What no command reads (R105, R107) -/

/-- A byte at the queue's head, there before a command, is there after it, and the command does the same. -/
theorem exec_queue_head (s : State) (i : Instr) (x : Byte) :
    exec i (s.withBlk { s.blk with outq := x :: s.blk.outq }) =
      match exec i s with
      | .next t => .next (t.withBlk { t.blk with outq := x :: t.blk.outq })
      | .fault e => .fault e
      | .refused e => .refused e := by
  by_cases hstart : i = .start
  · subst hstart
    rfl
  · by_cases hcfg : ∃ r v, i = .cfgWrite r v
    · obtain ⟨r, v, rfl⟩ := hcfg
      simp only [exec, execCfgWrite]
      split <;> rfl
    · exact exec_untouched (untouched_queue_head x) s hstart fun r v h => hcfg ⟨r, v, h⟩

/-- Settles O56: the state with the queue's head is the one without it, the head put back. -/
theorem outputTransfersCommuteWithCommands : Obligations.OutputTransfersCommuteWithCommands := by
  intro s i x q hq
  have hs : s = ({ s with blk := { s.blk with outq := q } } : State).withBlk { s.blk with outq := x :: q } := by
    simp only [State.withBlk, ← hq]
  have hexec := exec_queue_head { s with blk := { s.blk with outq := q } } i x
  rw [← hs] at hexec
  rw [hexec]
  cases exec i { s with blk := { s.blk with outq := q } } with
  | next t => exact ⟨t.blk.outq, rfl, rfl⟩
  | fault f => rfl
  | refused r => rfl

theorem encodeChunk_act {b b' : Block} (h : b.encodeChunk = some b') : b'.act = b.act := by
  obtain ⟨hkept, -⟩ := encodeChunk_kept h
  exact hkept.act

/-- No command but START changes the active configuration (R30, R105). -/
theorem ExecCase.act_eq {s : State} {i : Instr} {b : Block} (h : ExecCase s i b) (hstart : i ≠ .start) :
    b.act = s.blk.act := by
  cases h with
  | start => exact absurd rfl hstart
  | err _ => exact Block.raiseErr_act _ _
  | dataLast _ _ _ henc => exact (encodeChunk_act henc :)
  | endChunk _ _ henc => exact encodeChunk_act henc
  | finish _ _ henc => exact (encodeChunk_act henc :)
  | nop => rfl
  | cfg _ => rfl
  | data _ _ _ => rfl
  | endEmpty _ _ => rfl
  | finishEmpty _ _ => rfl
  | lit => rfl
  | matchRef => rfl

/-- Settles O57: no command but START and CFG_WRITE reads the configuration registers. -/
theorem openStreamsIgnoreConfigurationWrites : Obligations.OpenStreamsIgnoreConfigurationWrites := by
  refine ⟨fun s i c hstart hcfg => ?_, fun s t i hstart h => ?_⟩
  · have hexec := exec_untouched (untouched_cfg c) s hstart hcfg
    rw [State.withBlk] at hexec
    rw [hexec]
    cases exec i s <;> rfl
  · obtain ⟨b, rfl, hb⟩ := exec_cases h
    exact hb.act_eq hstart

/-! ### The refused DATA and the token emissions (R101, R106) -/

/-- A DATA with room in the chunk that would reach the stream's limit is refused (R106). -/
theorem exec_data_limit {s : State} (hs : s.blk.state = .streaming) (hroom : s.blk.chunk.length ≠ s.params.chunkMax)
    (hlim : s.blk.reachesStreamLimit = true) (x : Byte) (last : Bool) :
    exec (.data x last) s = .refused .streamOf2Pow64Bytes := by
  simp only [exec, execData, hs, hroom, hlim, ne_eq, not_true_eq_false, if_false, if_true]

/-- DATA is refused exactly where its earlier tests pass and the stream's limit is reached (R83, R106, log 8). -/
theorem exec_data_refused_iff (x : Byte) (last : Bool) (s : State) (r : Refusal) :
    exec (.data x last) s = .refused r ↔
      s.blk.state = .streaming ∧ s.blk.chunk.length ≠ s.params.chunkMax ∧ s.blk.reachesStreamLimit = true ∧
        r = .streamOf2Pow64Bytes := by
  by_cases hs : s.blk.state = .streaming
  · by_cases hfull : s.blk.chunk.length = s.params.chunkMax
    · simp [exec_data_full hs hfull, hfull]
    · cases hlim : s.blk.reachesStreamLimit with
      | true => simp [exec_data_limit hs hfull hlim, hs, hfull, eq_comm (a := r)]
      | false =>
        rw [exec_data_append hs hfull (Nat.not_le.mp (of_decide_eq_false hlim))]
        cases last with
        | false => simp
        | true => cases (s.blk.appendByte x).encodeChunk <;> simp
  · simp [exec_outsideStreaming hs (.inl ⟨x, last, rfl⟩), hs]

/-- Settles O21: under the invariant the limit is reached by the one length that makes it up. -/
theorem dataReachingTwoToThe64IsRefused : Obligations.DataReachingTwoToThe64IsRefused := by
  intro s x last hs
  have hlimit : s.blk.reachesStreamLimit = true ↔ s.blk.absPos.toNat + s.blk.chunk.length + 1 = 2 ^ 64 :=
    ⟨hs.blk.reachesStreamLimit, fun h => decide_eq_true h.ge⟩
  rw [exec_data_refused_iff, hlimit, and_iff_left rfl]

/-- Settles O26: the emissions of R101, with the two bytes of an offset. -/
theorem tokenEmissionAppendsAndCounts : Obligations.TokenEmissionAppendsAndCounts := by
  intro s
  refine ⟨fun b => ⟨s.blk.litCount + 1#32, BitVec.toNat_add _ _, rfl⟩,
    fun off len => ⟨s.blk.matchCount + 1#32, BitVec.toNat_add _ _, ?_⟩⟩
  rw [← lowByte_eq, ← highByte_eq]
  rfl

end Sys2Proof.Machine
end

section
/-! SUPPORT. The proofs of the family 45_reference_decoder: the decoder's equations token by token, the tokens of a chunk
decoded to its bytes, and what a stream has emitted so far as an invariant of its commands. -/

namespace Sys2Proof.Machine

/-! ### The reference decoder, case by case (R111, R112) -/

/-- The offset of a match is its two bytes, the low one first (R72, R111). -/
theorem matchOffset_toNat (lo hi : Byte) : (hi ++ lo).toNat = lo.toNat + 256 * hi.toNat := by
  rw [toNat_append_eq]
  omega

/-- Settles O9: the equations of the decoder, the offset put together from its two bytes. -/
theorem deserializeReadsTokensAndStopsCleanly : Obligations.DeserializeReadsTokensAndStopsCleanly := by
  refine ⟨deserialize_nil, deserialize_literal,
    fun lo hi len rest => ⟨hi ++ lo, matchOffset_toNat lo hi, deserialize_match lo hi len rest⟩,
    deserialize_single _, deserialize_match_short, fun tag bs htag => ?_, rfl⟩
  refine deserialize_unknown_tag ?_ ?_ bs <;> rintro rfl <;> exact absurd htag (by decide)

/-- A match of length at least 1 whose offset lies in the output so far copies byte by byte (R112). -/
theorem applyToken_match {out : List Byte} {off : BitVec 16} {len : Byte} (hlen : 1 ≤ len.toNat) (hoff : 1 ≤ off.toNat)
    (hout : off.toNat ≤ out.length) :
    applyToken out (.matchRef off len) = .ok (copyBytes off.toNat len.toNat out) := by
  rw [applyToken, if_neg (by omega), if_neg (by omega), if_neg (by omega)]

/-- The first fault ends the decompression (R110). -/
theorem decompressFrom_error {out : List Byte} {t : Token} {e : DecoderFault} (ts : List Token)
    (h : applyToken out t = .error e) : decompressFrom out (t :: ts) = .error e := by
  simp [decompressFrom, h]

/-- Settles O11: a match by its length and offset, the copied bytes by `copyBytes_spec`. -/
theorem decompressCopiesOneByteAtATime : Obligations.DecompressCopiesOneByteAtATime := by
  refine fun out => ⟨fun _ => rfl, fun off len => ⟨?_, ?_, ?_, ?_⟩, fun t ts out' => decompressFrom_cons ts,
    fun t ts e => decompressFrom_error ts, decompressFrom_nil out, fun _ => rfl, rfl⟩
  · intro hlen
    rw [applyToken, if_pos hlen]
  · intro hlen hoff hout
    obtain ⟨copied, hcopy, hcount, hbytes⟩ := copyBytes_spec hoff len.toNat hout
    exact ⟨copied, by rw [applyToken_match hlen hoff hout, hcopy], hcount, hbytes⟩
  · intro hlen hoff
    rw [applyToken, if_neg (by omega), if_pos hoff]
  · intro hlen hoff
    rw [applyToken, if_neg (by omega), if_neg (by omega), if_pos hoff]

/-- A serialized token sequence alone is read back whole (R111). -/
theorem deserialize_serialize (ts : List Token) : deserialize (serialize ts) = ts := by
  simpa using deserializeInvertsSerialize ts []

/-- A serialized token sequence decodes as its tokens decompress (R73, R113). -/
theorem refDecode_serialize (ts : List Token) : refDecode (serialize ts) = decompress ts := by
  rw [refDecode, deserialize_serialize]

/-! ### The tokens of a chunk decode to its bytes (R104, R112) -/

/-- Copying the bytes that stand `o` places back puts the stream's next bytes there, when the stream repeats. -/
theorem copyBytes_take {stream : List Byte} {o l p : Nat} (ho : 1 ≤ o) (hop : o ≤ p) (hp : p + l ≤ stream.length)
    (hrep : ∀ i < l, stream[p - o + i]? = stream[p + i]?) : copyBytes o l (stream.take p) = stream.take (p + l) := by
  induction l generalizing p with
  | zero => rfl
  | succ l ih =>
    have hlen : (stream.take p).length = p := List.length_take_of_le (by omega)
    have hnext : (stream.take p)[p - o]? = stream[p]? := by
      rw [List.getElem?_take_of_lt (by omega)]
      exact hrep 0 (by omega)
    rw [copyBytes, hlen, hnext, ← List.take_add_one, ih (by omega) (by omega), Nat.add_right_comm, Nat.add_assoc]
    intro i hi
    have h := hrep (i + 1) (by omega)
    rwa [show p - o + (i + 1) = p + 1 - o + i by omega, show p + (i + 1) = p + 1 + i by omega] at h

/-- The view reads a stream: the chunk is what the stream holds from `cs` on, and the window holds bytes of it. -/
structure View.Of (v : View) (stream : List Byte) : Prop where
  length : stream.length = v.ce
  chunk : stream.drop v.cs = v.chunk
  window : ∀ q x, Memory.read v.win q = some x → stream[q]? = some x

/-- Every byte the view can read is the stream's byte there. -/
theorem View.Of.byteAt {v : View} {stream : List Byte} (hv : v.Of stream) {q : Nat} {x : Byte}
    (h : v.byteAt q = some x) : stream[q]? = some x := by
  by_cases hq : v.cs ≤ q
  · rwa [byteAt_chunk hq, ← hv.chunk, List.getElem?_drop, Nat.add_sub_cancel' hq] at h
  · simp only [View.byteAt, hq, if_false, Option.ite_none_right_eq_some] at h
    exact hv.window q x h.2

section Tokens

variable {v : View} {a : CfgRegs} {stream : List Byte} {p : Nat} {t : Token} {ts : List Token}

/-- A token that fits at `p` extends the output by the stream's bytes there. -/
theorem TokenFits.applyToken_take (h : TokenFits v a p t) (hv : v.Of stream) :
    applyToken (stream.take p) t = .ok (stream.take (p + t.span)) := by
  cases t with
  | literal x =>
    rw [applyToken, Token.span, List.take_add_one, hv.byteAt h, Option.toList_some]
  | matchRef off len =>
    obtain ⟨hoff, -, hpos, hlen, -, hend, hbytes⟩ := h
    have hp : p + len.toNat ≤ stream.length := hv.length ▸ hend
    rw [applyToken_match (by omega) hoff (by rw [List.length_take_of_le (by omega)]; exact hpos), Token.span,
      copyBytes_take hoff hpos hp]
    intro i hi
    obtain ⟨hsome, hsame⟩ := hbytes i hi
    obtain ⟨x, hx⟩ := Option.isSome_iff_exists.mp hsome
    rw [hv.byteAt hx, hv.byteAt (hsame.trans hx)]

/-- Tokens that cover the chunk from `p` on decompress to the whole stream, from what stands before `p`. -/
theorem TokensCover.decompressFrom_take (h : TokensCover v a p ts) (hv : v.Of stream) :
    decompressFrom (stream.take p) ts = .ok stream := by
  induction ts generalizing p with
  | nil =>
    have hp : p = v.ce := h
    rw [decompressFrom_nil, List.take_of_length_le (by rw [hv.length, hp])]
  | cons t ts ih =>
    obtain ⟨hfit, hrest⟩ := h
    rw [decompressFrom_cons ts (hfit.applyToken_take hv), ih hrest]

end Tokens

/-! ### What a stream has emitted so far (R115) -/

/-- Where the DATA of a stream have sent `sent` and its START found the queue `q`: the block reads the stream `sent`, and
the queue has gained tokens that decompress to its completed chunks. -/
structure Block.Emitted (q sent : List Byte) (b : Block) : Prop where
  view : b.view.Of sent
  queue : ∃ ts, b.outq = q ++ serialize ts ∧ decompress ts = .ok (sent.take b.absPos.toNat)

section Emitted

variable {q sent : List Byte} {b b' : Block}

/-- START begins a stream with nothing sent (R82). -/
theorem Block.emitted_startStream (b : Block) : b.startStream.Emitted b.outq [] where
  view := ⟨rfl, rfl, nofun⟩
  queue := ⟨[], (List.append_nil _).symm, rfl⟩

/-- A command without a byte leaves the stream as it was sent. -/
theorem Block.Emitted.noByte (h : b.Emitted q sent) : b.Emitted q (sent ++ []) := by
  rwa [List.append_nil]

/-- A byte appended to the chunk is the next byte of the stream (R83). -/
theorem Block.Emitted.appendByte (h : b.Emitted q sent) (x : Byte) : (b.appendByte x).Emitted q (sent ++ [x]) := by
  obtain ⟨⟨hlen, hchunk, hwin⟩, hqueue⟩ := h
  have hpos : b.absPos.toNat ≤ sent.length := hlen ▸ b.view.cs_le_ce
  refine ⟨⟨?_, ?_, fun p y hy => ?_⟩, ?_⟩
  · rw [List.length_append, hlen]
    simp [View.ce, Block.view, Nat.add_assoc]
  · exact (List.drop_append_of_le_length hpos).trans (congrArg (· ++ [x]) hchunk)
  · have hp := hwin p y hy
    rwa [List.getElem?_append_left (List.getElem?_eq_some_iff.mp hp).1]
  · rwa [← List.take_append_of_le_length hpos] at hqueue

/-- A chunk end completes the stream sent so far: its tokens decompress to the chunk (R90, R104). -/
theorem Block.Emitted.encodeChunk (h : b.Emitted q sent) (hb : b.Encodable)
    (hlim : b.absPos.toNat + b.chunk.length < Config.streamLimit) (he : b.encodeChunk = some b') :
    b'.Emitted q sent := by
  obtain ⟨hview, ts₀, hq, hdec⟩ := h
  obtain ⟨ts, d, ins, henc, hcover, -⟩ := encodeChunk_spec hb
  obtain rfl := Option.some.inj (he.symm.trans henc)
  have hpos : (BitVec.ofNat 64 b.view.ce).toNat = sent.length := by
    rw [BitVec.toNat_ofNat, hview.length]
    exact Nat.mod_eq_of_lt hlim
  refine ⟨⟨hpos.symm, List.drop_of_length_le hpos.ge, fun p x hx => ?_⟩, ts₀ ++ ts, ?_, ?_⟩
  · have hx' : Memory.read (trimWindow b.view) p = some x := hx
    rw [read_trimWindow hb.view_exact, Option.ite_none_right_eq_some] at hx'
    exact hview.byteAt hx'.2
  · simp [hq, serialize]
  · rw [decompress, decompressFrom_append ts hdec, List.take_of_length_le hpos.ge]
    exact hcover.decompressFrom_take hview

end Emitted

/-- A chunk end keeps the `err` output (R90, R129). -/
theorem encodeChunk_errOut {b b' : Block} (h : b.encodeChunk = some b') : b'.errOut = b.errOut := by
  obtain ⟨hkept, -⟩ := encodeChunk_kept h
  rw [Block.errOut, hkept.errIllegal, hkept.errNotStreaming, hkept.errChunkOvf, Block.errOut]

/-- The commands of the command port that open no stream: those of R114, and FINISH. -/
def StreamCommand (i : Instr) : Prop := i ≠ .start ∧ i.isCommand = true

theorem streamCommand_finish : StreamCommand .finish := ⟨nofun, rfl⟩

theorem streamCommand_of_inStream {i : Instr} (h : i.inStream = true) : StreamCommand i := by
  cases i with
  | start => cases h
  | lit => cases h
  | matchRef => cases h
  | _ => exact ⟨nofun, rfl⟩

section Commands

variable {s t : State} {i : Instr} {b : Block} {is : List Instr} {q sent : List Byte}

/-- A command other than START leaves no error only where there was none: errors are sticky (R127, R128). -/
theorem ExecCase.errOut_eq_false (h : ExecCase s i b) (hstart : i ≠ .start) (herr : b.errOut = false) :
    s.blk.errOut = false := by
  cases h with
  | start => exact absurd rfl hstart
  | err _ => rw [Block.raiseErr_errOut] at herr; cases herr
  | dataLast _ _ _ he => exact (encodeChunk_errOut he).symm.trans herr
  | endChunk _ _ he => exact (encodeChunk_errOut he).symm.trans herr
  | finish _ _ he => exact (encodeChunk_errOut he).symm.trans herr
  | nop => exact herr
  | cfg _ => exact herr
  | data _ _ _ => exact herr
  | endEmpty _ _ => exact herr
  | finishEmpty _ _ => exact herr
  | lit => exact herr
  | matchRef => exact herr

/-- A command of a stream that leaves no error extends what the stream has emitted. -/
theorem ExecCase.emitted (h : ExecCase s i b) (hs : s.Inv) (hi : StreamCommand i) (herr : b.errOut = false)
    (hemit : s.blk.Emitted q sent) : b.Emitted q (sent ++ i.sentByte.toList) := by
  have hb := hs.blk
  obtain ⟨hstart, hcmd⟩ := hi
  cases h with
  | start => exact absurd rfl hstart
  | lit => cases hcmd
  | matchRef => cases hcmd
  | err _ => rw [Block.raiseErr_errOut] at herr; cases herr
  | data _ _ _ => exact hemit.appendByte _
  | @dataLast x _ hstream hfull hlim he =>
    have hb' := hb.appendByte hstream hfull hlim x
    exact (hemit.appendByte x).encodeChunk hb'.encodable hb'.belowLimit he
  | nop => exact hemit.noByte
  | cfg _ => exact Block.Emitted.noByte ⟨hemit.view, hemit.queue⟩
  | endEmpty _ _ => exact hemit.noByte
  | endChunk _ _ he => exact (hemit.encodeChunk hb.encodable hb.belowLimit he).noByte
  | finishEmpty _ _ => exact Block.Emitted.noByte ⟨hemit.view, hemit.queue⟩
  | finish _ _ he =>
    obtain ⟨hview, hqueue⟩ := hemit.encodeChunk hb.encodable hb.belowLimit he
    exact Block.Emitted.noByte ⟨hview, hqueue⟩

/-- FINISH without an error ends the stream with no chunk open (R86). -/
theorem ExecCase.finish_done (h : ExecCase s .finish b) (herr : b.errOut = false) : b.state = .done ∧ b.chunk = [] := by
  cases h with
  | err _ => rw [Block.raiseErr_errOut] at herr; cases herr
  | finishEmpty _ hc => exact ⟨rfl, hc⟩
  | finish _ _ he =>
    obtain ⟨ts, d, rfl⟩ := encodeChunk_frame he
    exact ⟨rfl, rfl⟩

/-! ### A stream of commands (R114, R115) -/

theorem execAll_cons_eq_next (h : execAll (i :: is) s = .next t) :
    ∃ b, ExecCase s i b ∧ execAll is (s.withBlk b) = .next t := by
  rw [execAll] at h
  split at h
  next hexec =>
    obtain ⟨b, rfl, hb⟩ := exec_cases hexec
    exact ⟨b, hb, h⟩
  next => cases h
  next => cases h

/-- The last command of a run that gives a next state. -/
theorem execAll_concat_eq_next (h : execAll (is ++ [i]) s = .next t) : ∃ u, ExecCase u i t.blk := by
  induction is generalizing s with
  | nil =>
    obtain ⟨b, hb, hnil⟩ := execAll_cons_eq_next h
    cases hnil
    exact ⟨s, hb⟩
  | cons j js ih =>
    obtain ⟨b, -, hrest⟩ := execAll_cons_eq_next h
    exact ih hrest

/-- A run of a stream's commands leaves no error only where there was none. -/
theorem execAll_errOut_eq_false (his : ∀ i ∈ is, StreamCommand i) (h : execAll is s = .next t)
    (herr : t.blk.errOut = false) : s.blk.errOut = false := by
  induction is generalizing s with
  | nil => cases h; exact herr
  | cons i is ih =>
    obtain ⟨⟨hstart, -⟩, his⟩ := List.forall_mem_cons.mp his
    obtain ⟨b, hb, hrest⟩ := execAll_cons_eq_next h
    exact hb.errOut_eq_false hstart (ih his hrest)

theorem sentBytes_cons (i : Instr) (is : List Instr) : sentBytes (i :: is) = i.sentByte.toList ++ sentBytes is := by
  cases h : i.sentByte <;> simp [sentBytes, h]

/-- The commands of a stream, one after another, extend what it has emitted. -/
theorem execAll_emitted (hs : s.Inv) (his : ∀ i ∈ is, StreamCommand i) (h : execAll is s = .next t)
    (herr : t.blk.errOut = false) (hemit : s.blk.Emitted q sent) : t.blk.Emitted q (sent ++ sentBytes is) := by
  induction is generalizing s sent with
  | nil => cases h; exact hemit.noByte
  | cons i is ih =>
    obtain ⟨hi, his⟩ := List.forall_mem_cons.mp his
    obtain ⟨b, hb, hrest⟩ := execAll_cons_eq_next h
    have hberr : b.errOut = false := execAll_errOut_eq_false his hrest herr
    have hinv : (s.withBlk b).Inv := ⟨hs.paramsLegal, hb.inv hs⟩
    rw [sentBytes_cons, ← List.append_assoc]
    exact ih hinv his hrest (hb.emitted hs hi hberr hemit)

/-- A stream from its START on: its DATA have sent what the block and the queue stand for. -/
theorem execAll_start_emitted (hs : s.Inv) (his : ∀ i ∈ is, StreamCommand i) (h : execAll (.start :: is) s = .next t)
    (herr : t.blk.errOut = false) : t.blk.Emitted s.blk.outq (sentBytes is) :=
  have hinv : (s.withBlk s.blk.startStream).Inv := ⟨hs.paramsLegal, hs.blk.startStream⟩
  execAll_emitted hinv his h herr s.blk.emitted_startStream

end Commands

/-- Settles O59: the stream's invariant, the sent bytes cut where the completed chunks end. -/
theorem emittedBytesDecodeToTheCompletedChunks : Obligations.EmittedBytesDecodeToTheCompletedChunks := by
  intro s t cmds hs hcmds h herr
  obtain ⟨hview, ts, hq, hdec⟩ := execAll_start_emitted hs (fun i hi => streamCommand_of_inStream (hcmds i hi)) h herr
  refine ⟨serialize ts, _, hq, (refDecode_serialize ts).trans hdec, ?_, ?_⟩
  · rw [← show (sentBytes cmds).drop t.blk.absPos.toNat = t.blk.chunk from hview.chunk, List.take_append_drop]
  · exact List.length_take_of_le (hview.length ▸ t.blk.view.cs_le_ce)

/-- Settles O58: the stream's invariant after FINISH, which leaves no chunk open, so that every byte sent is completed. -/
theorem everyStreamRoundTrips : Obligations.EveryStreamRoundTrips := by
  intro s t cmds hs hcmds h herr
  have his : ∀ i ∈ cmds ++ [.finish], StreamCommand i := List.forall_mem_append.mpr
    ⟨fun i hi => streamCommand_of_inStream (hcmds i hi), List.forall_mem_singleton.mpr streamCommand_finish⟩
  have hsent : sentBytes (cmds ++ [.finish]) = sentBytes cmds := by simp [sentBytes, Instr.sentByte]
  obtain ⟨u, hfinish⟩ := execAll_concat_eq_next h
  obtain ⟨hdone, hclosed⟩ := hfinish.finish_done herr
  obtain ⟨hview, ts, hq, hdec⟩ := hsent ▸ execAll_start_emitted hs his h herr
  have hall : (sentBytes cmds).length = t.blk.absPos.toNat := by
    rw [hview.length]
    simp [View.ce, Block.view, hclosed]
  rw [List.take_of_length_le hall.le] at hdec
  exact ⟨serialize ts, hq, (refDecode_serialize ts).trans hdec, by rw [deserialize_serialize], hdone⟩

end Sys2Proof.Machine
end

section
/-! SUPPORT. The proofs of the family 60_exceptions: what a command and a step do to the error fields, and that an earlier
error changes nothing else of what a command does. -/

namespace Sys2Proof.Machine

/-! ### The error fields (R36, R122, R127) -/

/-- From `b` to `b'` the error fields are the same. -/
structure Block.SameErrors (b b' : Block) : Prop where
  errIllegal : b'.errIllegal = b.errIllegal
  errNotStreaming : b'.errNotStreaming = b.errNotStreaming
  errChunkOvf : b'.errChunkOvf = b.errChunkOvf
  firstErr : b'.firstErr = b.firstErr

theorem Block.SameErrors.errOut {b b' : Block} (h : b.SameErrors b') : b'.errOut = b.errOut := by
  rw [Block.errOut, h.errIllegal, h.errNotStreaming, h.errChunkOvf, Block.errOut]

theorem encodeChunk_sameErrors {b b' : Block} (h : b.encodeChunk = some b') : b.SameErrors b' := by
  obtain ⟨hkept, -⟩ := encodeChunk_kept h
  exact { hkept with }

theorem Block.raiseErr_firstErr_none {b : Block} (h : b.firstErr = none) (c : ErrCode) :
    (b.raiseErr c).firstErr = some c := by
  rw [Block.raiseErr_firstErr, h, Option.getD_none]

theorem Block.raiseErr_firstErr_some {b : Block} (h : b.firstErr ≠ none) (c : ErrCode) :
    (b.raiseErr c).firstErr = b.firstErr :=
  (b.raiseErr_firstErr_or c).resolve_right fun hnone => h hnone.1

/-- No two of the three sticky bits are set. -/
def Block.AtMostOneError (b : Block) : Prop :=
  ¬ (b.errIllegal = true ∧ b.errNotStreaming = true) ∧ ¬ (b.errIllegal = true ∧ b.errChunkOvf = true) ∧
    ¬ (b.errNotStreaming = true ∧ b.errChunkOvf = true)

theorem Block.errOut_eq_false_iff (b : Block) :
    b.errOut = false ↔ b.errIllegal = false ∧ b.errNotStreaming = false ∧ b.errChunkOvf = false := by
  simp [Block.errOut, and_assoc]

theorem Block.atMostOneError_of_errOut {b : Block} (h : b.errOut = false) : b.AtMostOneError := by
  obtain ⟨hillegal, hnot, hovf⟩ := b.errOut_eq_false_iff.mp h
  simp [Block.AtMostOneError, hillegal, hnot, hovf]

/-- The error action sets one bit, so from a block without errors one bit is set (R122, R126). -/
theorem Block.atMostOneError_raiseErr {b : Block} (h : b.errOut = false) (c : ErrCode) :
    (b.raiseErr c).AtMostOneError := by
  obtain ⟨hillegal, hnot, hovf⟩ := b.errOut_eq_false_iff.mp h
  cases c <;> simp [Block.AtMostOneError, hillegal, hnot, hovf]

/-! ### What a command does to the error fields (R122, R126 to R128) -/

/-- A command other than START performs one error action, or leaves the error fields as they are. -/
theorem ExecCase.errors {s : State} {i : Instr} {b : Block} (h : ExecCase s i b) (hstart : i ≠ .start) :
    (∃ c, b = s.blk.raiseErr c) ∨ s.blk.SameErrors b := by
  cases h with
  | start => exact absurd rfl hstart
  | err _ => exact .inl ⟨_, rfl⟩
  | dataLast _ _ _ he => exact .inr { encodeChunk_sameErrors he with }
  | endChunk _ _ he => exact .inr (encodeChunk_sameErrors he)
  | finish _ _ he => exact .inr { encodeChunk_sameErrors he with }
  | nop => exact .inr ⟨rfl, rfl, rfl, rfl⟩
  | cfg _ => exact .inr ⟨rfl, rfl, rfl, rfl⟩
  | data _ _ _ => exact .inr ⟨rfl, rfl, rfl, rfl⟩
  | endEmpty _ _ => exact .inr ⟨rfl, rfl, rfl, rfl⟩
  | finishEmpty _ _ => exact .inr ⟨rfl, rfl, rfl, rfl⟩
  | lit => exact .inr ⟨rfl, rfl, rfl, rfl⟩
  | matchRef => exact .inr ⟨rfl, rfl, rfl, rfl⟩

/-- A command of a block without errors leaves at most one bit set: START none, every other command that of its error. -/
theorem ExecCase.atMostOneError {s : State} {i : Instr} {b : Block} (h : ExecCase s i b) (hs : s.blk.errOut = false) :
    b.AtMostOneError := by
  by_cases hstart : i = .start
  · subst hstart
    cases h with
    | start => exact Block.atMostOneError_of_errOut rfl
    | err he => cases he
  · rcases h.errors hstart with ⟨c, rfl⟩ | hsame
    · exact Block.atMostOneError_raiseErr hs c
    · exact Block.atMostOneError_of_errOut (hsame.errOut.trans hs)

theorem acceptCommand_atMostOneError {w : CmdWord} {s t : State} (h : acceptCommand w s = .next t)
    (hs : s.blk.errOut = false) : t.blk.AtMostOneError := by
  cases hd : decodeCommand w with
  | error e =>
    rw [acceptCommand_illegal ((decodeCommand_error_iff w).mp ⟨e, hd⟩)] at h
    cases h
    exact Block.atMostOneError_raiseErr hs .illegal
  | ok i =>
    rw [acceptCommand_of_decode hd] at h
    obtain ⟨b, rfl, hb⟩ := exec_cases h
    exact hb.atMostOneError hs

/-! ### What a step does to the error fields (R127 to R129) -/

/-- The next step takes a reset or the word of START. -/
def State.TakesStartOrReset (s : State) : Prop :=
  s.microOp = none ∧ (s.pending.head? = some .reset ∨ s.pending.head? = some (.command 0x10000000#32))

theorem step_start {s : State} (hm : s.microOp = none) (hp : s.pending.head? = some (.command 0x10000000#32)) :
    step s = .next (s.popAction.withBlk s.blk.startStream) := by
  obtain ⟨rest, hp⟩ := List.head?_eq_some_iff.mp hp
  rw [step_action hm hp, hostAct, acceptCommand_of_decode ((decodeCommand_start_iff _).mpr rfl)]
  rfl

/-- Such a step clears the error state (R128, R140). -/
theorem step_clears_errors {s t : State} (h : step s = .next t) (hs : s.TakesStartOrReset) :
    t.blk.errIllegal = false ∧ t.blk.errNotStreaming = false ∧ t.blk.errChunkOvf = false ∧ t.blk.firstErr = none := by
  obtain ⟨hm, hp | hp⟩ := hs
  · cases (step_reset hm hp).symm.trans h
    exact ⟨rfl, rfl, rfl, rfl⟩
  · cases (step_start hm hp).symm.trans h
    exact ⟨rfl, rfl, rfl, rfl⟩

/-- Every other step performs one error action, or leaves the error fields as they are. -/
theorem step_errors {s t : State} (h : step s = .next t) (hs : ¬ s.TakesStartOrReset) :
    (∃ c, t.blk = s.blk.raiseErr c) ∨ s.blk.SameErrors t.blk := by
  cases step_cases h with
  | @token tok _ hm he =>
    obtain ⟨b, rfl, hb⟩ := exec_cases he
    exact hb.errors (by cases tok <;> nofun)
  | @command w rest i _ hm hp hd he =>
    obtain ⟨b, rfl, hb⟩ := exec_cases he
    refine hb.errors ?_
    rintro rfl
    obtain rfl := (decodeCommand_start_iff w).mp hd
    exact hs ⟨hm, .inr (by rw [hp]; rfl)⟩
  | illegal _ _ _ => exact .inl ⟨.illegal, rfl⟩
  | idle _ _ => exact .inr ⟨rfl, rfl, rfl, rfl⟩
  | readback _ _ => exact .inr ⟨rfl, rfl, rfl, rfl⟩
  | reset hm hp => exact absurd ⟨hm, .inl (by rw [hp]; rfl)⟩ hs
  | transfer _ _ =>
    cases hq : s.blk.outq with
    | nil => rw [hostTransfer_nil hq]; exact .inr ⟨rfl, rfl, rfl, rfl⟩
    | cons x q => rw [hostTransfer_cons hq]; exact .inr ⟨rfl, rfl, rfl, rfl⟩

/-! ### An error does not stop the block (R128)

The blocks with the same `clearErrs` are those that differ in the error fields only. -/

@[simp] theorem Block.clearErrs_raiseErr (b : Block) (c : ErrCode) : (b.raiseErr c).clearErrs = b.clearErrs := by
  cases c <;> rfl

theorem Block.eq_of_clearErrs_eq {b b' : Block} (h : b'.clearErrs = b.clearErrs) : b' = { b with
    errIllegal := b'.errIllegal, errNotStreaming := b'.errNotStreaming, errChunkOvf := b'.errChunkOvf
    firstErr := b'.firstErr } :=
  congrArg (fun x : Block => { x with
    errIllegal := b'.errIllegal, errNotStreaming := b'.errNotStreaming, errChunkOvf := b'.errChunkOvf
    firstErr := b'.firstErr }) h

/-- Under the condition of an error the command performs that error action (R123 to R126). -/
theorem ErrCase.exec_eq {s : State} {i : Instr} {c : ErrCode} (h : ErrCase s i c) : exec i s = s.raiseErr c := by
  cases h with
  | illegal hreg => exact exec_cfgWrite_illegal hreg _ s
  | dataOutside hs => exact exec_outsideStreaming hs (.inl ⟨_, _, rfl⟩)
  | endOutside hs => exact exec_outsideStreaming hs (.inr (.inl rfl))
  | finishOutside hs => exact exec_outsideStreaming hs (.inr (.inr rfl))
  | full hs hfull => exact exec_data_full hs hfull _ _

/-- Each case of `exec` is what the command does: the converse of `exec_cases`. -/
theorem ExecCase.exec_eq {s : State} {i : Instr} {b : Block} (h : ExecCase s i b) : exec i s = .next (s.withBlk b) := by
  cases h with
  | nop => rfl
  | start => rfl
  | lit => rfl
  | matchRef => rfl
  | err he => exact he.exec_eq
  | cfg hreg => exact exec_cfgWrite_legal hreg _ s
  | data hs hroom hlim => exact exec_data_append hs hroom (Nat.not_le.mp (of_decide_eq_false hlim)) _ false
  | dataLast hs hroom hlim he =>
    rw [exec_data_append hs hroom (Nat.not_le.mp (of_decide_eq_false hlim)), he]
    rfl
  | endEmpty hs hc => rw [exec_endChunk_streaming hs, chunkEnd_nil hc]; rfl
  | endChunk hs hc he => rw [exec_endChunk_streaming hs, chunkEnd_cons hc, he]; rfl
  | finishEmpty hs hc => rw [exec_finish_streaming hs, chunkEnd_nil hc]; rfl
  | finish hs hc he => rw [exec_finish_streaming hs, chunkEnd_cons hc, he]; rfl

section AfterError

variable {s : State} {i : Instr} {b b' : Block} (c : ErrCode)

theorem encodeChunk_raiseErr (h : b.encodeChunk = some b') :
    (b.raiseErr c).encodeChunk = some (b'.raiseErr c) := by
  rw [encodeChunk_unread (unread_raiseErr c), h, Option.map_some]

theorem Block.appendByte_raiseErr (b : Block) (x : Byte) : (b.raiseErr c).appendByte x = (b.appendByte x).raiseErr c := by
  cases c <;> rfl

theorem Block.reachesStreamLimit_raiseErr (b : Block) : (b.raiseErr c).reachesStreamLimit = b.reachesStreamLimit := by
  cases c <;> rfl

/-- An earlier error does not change which error a command raises. -/
theorem ErrCase.after_raiseErr {e : ErrCode} (h : ErrCase s i e) : ErrCase (s.withBlk (s.blk.raiseErr c)) i e := by
  cases h with
  | illegal hreg => exact .illegal hreg
  | dataOutside hs => exact .dataOutside (by simpa using hs)
  | endOutside hs => exact .endOutside (by simpa using hs)
  | finishOutside hs => exact .finishOutside (by simpa using hs)
  | full hs hfull => exact .full (by simpa using hs) (by simpa using hfull)

/-- After an error a command takes the same case as without it, and leaves a block that differs in the error fields only. -/
theorem ExecCase.after_raiseErr (h : ExecCase s i b) :
    ∃ b', ExecCase (s.withBlk (s.blk.raiseErr c)) i b' ∧ b'.clearErrs = b.clearErrs := by
  cases h with
  | nop => exact ⟨_, .nop, by simp⟩
  | start => exact ⟨_, .start, by cases c <;> rfl⟩
  | lit => exact ⟨_, .lit, by cases c <;> rfl⟩
  | matchRef => exact ⟨_, .matchRef, by cases c <;> rfl⟩
  | err he => exact ⟨_, .err (he.after_raiseErr c), by simp⟩
  | cfg hreg => exact ⟨_, .cfg hreg, by cases c <;> rfl⟩
  | data hs hroom hlim =>
    exact ⟨_, .data (by simpa using hs) (by simpa using hroom) ((s.blk.reachesStreamLimit_raiseErr c).trans hlim),
      by simp [Block.appendByte_raiseErr]⟩
  | dataLast hs hroom hlim he =>
    refine ⟨_, .dataLast (by simpa using hs) (by simpa using hroom) ((s.blk.reachesStreamLimit_raiseErr c).trans hlim)
      ?_, Block.clearErrs_raiseErr _ c⟩
    exact (congrArg Block.encodeChunk (s.blk.appendByte_raiseErr c _)).trans (encodeChunk_raiseErr c he)
  | endEmpty hs hc => exact ⟨_, .endEmpty (by simpa using hs) (by simpa using hc), by simp⟩
  | endChunk hs hc he =>
    exact ⟨_, .endChunk (by simpa using hs) (by simpa using hc) (encodeChunk_raiseErr c he), by simp⟩
  | finishEmpty hs hc => exact ⟨_, .finishEmpty (by simpa using hs) (by simpa using hc), by cases c <;> rfl⟩
  | finish hs hc he =>
    exact ⟨_, .finish (by simpa using hs) (by simpa using hc) (encodeChunk_raiseErr c he), by cases c <;> rfl⟩

end AfterError

/-! ### The statements of 60_exceptions.md -/

/-- Settles O23: the decoder's rejection, then the tests of the command it reads; each case performs one error action. -/
theorem errorsFollowTheirPriority : Obligations.ErrorsFollowTheirPriority := fun s _ =>
  ⟨fun hill => acceptCommand_illegal hill s,
    fun _ hd hi hs => (acceptCommand_of_decode hd s).trans (exec_outsideStreaming hs hi),
    fun x l hd hs hfull => (acceptCommand_of_decode hd s).trans (exec_data_full hs hfull x l),
    fun _ h herr => acceptCommand_atMostOneError h herr⟩

/-- Settles O25: the case of `exec` taken after the error, and what a step does to the error fields. -/
theorem onlyStartAndResetClearErrors : Obligations.OnlyStartAndResetClearErrors := by
  refine ⟨fun s t i c h => ?_, fun s t h => ⟨step_clears_errors h, fun hs => ?_⟩⟩
  · obtain ⟨b, rfl, hb⟩ := exec_cases h
    obtain ⟨b', hb', hclear⟩ := hb.after_raiseErr c
    exact ⟨_, hb'.exec_eq, Block.eq_of_clearErrs_eq hclear⟩
  · rcases step_errors h hs with ⟨c, hraise⟩ | hsame
    · rw [hraise]
      exact ⟨by simp +contextual, by simp +contextual, by simp +contextual, by simp +contextual⟩
    · exact ⟨hsame.errIllegal.trans, hsame.errNotStreaming.trans, hsame.errChunkOvf.trans,
        fun _ => hsame.firstErr.trans⟩

/-- Settles O33: a step that takes neither START nor a reset leaves `err` at 1. -/
theorem errOutputIsTheOrOfTheStickyBits : Obligations.ErrOutputIsTheOrOfTheStickyBits := by
  refine ⟨fun _ => rfl, Block.raiseErr_errOut, fun s t h herr hclear => ?_⟩
  by_contra hs
  rcases step_errors h hs with ⟨c, hraise⟩ | hsame
  · rw [hraise, Block.raiseErr_errOut] at hclear
    cases hclear
  · cases herr.symm.trans (hsame.errOut.symm.trans hclear)

/-- Settles O20: IDLE and DONE are the states other than STREAMING. -/
theorem streamCommandsOutsideStreamingAreErrors : Obligations.StreamCommandsOutsideStreamingAreErrors := by
  intro s i hs hi
  have hout : s.blk.state ≠ .streaming := by
    rcases hs with hs | hs <;> simp [hs]
  exact exec_outsideStreaming hout hi

/-- Settles O24: the bit by the code, the first code by whether there was one. -/
theorem errorActionSetsOneBitAndTheFirstCode : Obligations.ErrorActionSetsOneBitAndTheFirstCode := fun _ =>
  ⟨rfl, rfl, rfl, fun c => ⟨fun h => Block.raiseErr_firstErr_none h c, fun h => Block.raiseErr_firstErr_some h c⟩⟩

end Sys2Proof.Machine
end

section
/-! SUPPORT. The proofs of the family 70_reset_and_hazards: the reset block and the reset step, and the run of a whole
buffer from START to FINISH. -/

namespace Sys2Proof.Machine

open Sys2Proof.Config (Params)

/-! ### The reset block (R140, R141) -/

/-- A legal `WINDOW_MAX` fits the 16 bits of the register it resets (R9, R24). -/
theorem CfgRegs.reset_window_toNat {P : Params} (hP : P.Legal) : (CfgRegs.reset P).window.toNat = P.windowMax := by
  obtain ⟨⟨-, hmax⟩, -⟩ := hP
  exact Nat.mod_eq_of_lt (Nat.lt_succ_of_le hmax)

/-- STATUS after reset: IDLE, no error, the output queue empty (R38, R141). -/
theorem Block.reset_statusWord (P : Params) : (Block.reset P).statusWord = 0x00001000#32 :=
  BitVec.eq_of_toNat_eq (Block.reset P).statusWord_toNat

/-- Settles O12: `WINDOW_SIZE` by the bound on `WINDOW_MAX`, every other field by its value in the reset block. -/
theorem resetLeavesEveryFieldAsListed : Obligations.ResetLeavesEveryFieldAsListed := fun P hP =>
  ⟨rfl, CfgRegs.reset_window_toNat hP, rfl, rfl, rfl, rfl, rfl, rfl, rfl, rfl, fun _ => rfl, rfl, fun _ => rfl, rfl, rfl,
    rfl, rfl, rfl, rfl, rfl, rfl, Block.reset_statusWord P, rfl, BitVec.extractLsb'_zero,
    BitVec.extractLsb'_zero, rfl, rfl, rfl⟩

/-- Settles O13: the step is the host's action, and the reset takes itself off the list. -/
theorem resetActionRestoresTheResetBlock : Obligations.ResetActionRestoresTheResetBlock := by
  intro s rest hm hp
  rw [step_action hm hp, hostAct, hostReset, State.popAction_eq hp]
  rfl

/-- Settles O51: nothing is pending or observed at reset, so the invariant is the reset block's. -/
theorem invariantHoldsAtReset : Obligations.InvariantHoldsAtReset := fun _ hP => ⟨hP, Block.reset_inv hP⟩

/-! ### A whole buffer in one chunk (R143) -/

section WholeBuffer

variable {s u : State} {i : Instr}

theorem execAll_cons_of_next (h : exec i s = .next u) (is : List Instr) : execAll (i :: is) s = execAll is u := by
  simp only [execAll, h]

theorem sentBytes_map_data (B : List Byte) : sentBytes (B.map fun x => .data x false) = B := by
  induction B with
  | nil => rfl
  | cons x B ih => rw [List.map_cons, sentBytes_cons, ih]; rfl

/-- FINISH of an open stream completes its chunk and raises no error (R84, R86). -/
theorem exec_finish_completes (hs : s.Inv) (hstream : s.blk.state = .streaming) :
    ∃ t, exec .finish s = .next t ∧ t.blk.errOut = s.blk.errOut ∧ t.blk.chunk = [] ∧
      t.blk.absPos.toNat = s.blk.absPos.toNat + s.blk.chunk.length := by
  have he : s.blk.Encodable := hs.blk.encodable
  obtain ⟨b, hb⟩ := chunkEnd_total he
  obtain ⟨hchunk, -, -, -, hillegal, hnot, hovf, -⟩ := chunkEnd_frame he hb
  obtain ⟨-, hpos⟩ := chunkEnd_encodable he hs.blk.belowLimit hb
  refine ⟨s.withBlk b.finishStream, by rw [exec_finish_streaming hstream, hb]; rfl, ?_, hchunk, hpos⟩
  simp [Block.errOut, hillegal, hnot, hovf]

/-- Bytes that fit the open chunk and the stream, sent as DATA and ended by FINISH, are all accepted and completed. -/
theorem execAll_data_finish (B : List Byte) (hs : s.Inv) (hstream : s.blk.state = .streaming)
    (hroom : s.blk.chunk.length + B.length ≤ s.params.chunkMax)
    (hlim : s.blk.absPos.toNat + s.blk.chunk.length + B.length < 2 ^ 64) :
    ∃ t, execAll (B.map (fun x => .data x false) ++ [.finish]) s = .next t ∧ t.blk.errOut = s.blk.errOut ∧
      t.blk.chunk = [] ∧ t.blk.absPos.toNat = s.blk.absPos.toNat + s.blk.chunk.length + B.length := by
  induction B generalizing s with
  | nil =>
    obtain ⟨t, hexec, ht⟩ := exec_finish_completes hs hstream
    exact ⟨t, execAll_cons_of_next hexec [], ht⟩
  | cons x B ih =>
    rw [List.length_cons] at hroom hlim
    have hfull : s.blk.chunk.length ≠ s.params.chunkMax := by omega
    have hnext : s.blk.absPos.toNat + s.blk.chunk.length + 1 < 2 ^ 64 := by omega
    have hexec : exec (.data x false) s = .next (s.withBlk (s.blk.appendByte x)) :=
      exec_data_append hstream hfull hnext x false
    have hinv : (s.withBlk (s.blk.appendByte x)).Inv :=
      ⟨hs.paramsLegal, hs.blk.appendByte hstream hfull (decide_eq_false (Nat.not_le.mpr hnext)) x⟩
    have hlen : (s.blk.appendByte x).chunk.length = s.blk.chunk.length + 1 := List.length_append
    obtain ⟨t, hrun, herr, hchunk, hpos⟩ := ih hinv hstream
      (by simp only [State.withBlk_blk, State.withBlk_params, hlen]; omega)
      (by simp only [State.withBlk_blk, Block.appendByte_absPos, hlen]; omega)
    refine ⟨t, (execAll_cons_of_next hexec _).trans hrun, herr, hchunk, ?_⟩
    simp only [State.withBlk_blk, Block.appendByte_absPos, hlen] at hpos
    rw [hpos, List.length_cons]
    omega

end WholeBuffer

/-- Settles O60: START opens an empty chunk with room for the buffer, so every command completes, and the stream round-trips. -/
theorem wholeBufferEncodingCompletesAndRoundTrips : Obligations.WholeBufferEncodingCompletesAndRoundTrips := by
  intro s B hs hfits
  have hinv : (s.withBlk s.blk.startStream).Inv := ⟨hs.paramsLegal, hs.blk.startStream⟩
  have hlim : B.length < 2 ^ 64 := by
    obtain ⟨-, ⟨-, hmax⟩, -⟩ := hs.paramsLegal
    omega
  obtain ⟨t, hrun, herr, hchunk, hpos⟩ := execAll_data_finish B hinv rfl
    (by simpa using hfits) (by simpa using hlim)
  have hall : execAll (.start :: B.map (fun x => .data x false) ++ [.finish]) s = .next t :=
    (execAll_cons_of_next rfl _).trans hrun
  have hcmds : ∀ i ∈ B.map (fun x => Instr.data x false), i.inStream = true := List.forall_mem_map.mpr fun _ _ => rfl
  obtain ⟨O, hq, hdec, -, hdone⟩ := everyStreamRoundTrips s t _ hs hcmds hall herr
  exact ⟨t, O, hall, herr, hdone, hchunk, by simpa using hpos, hq, sentBytes_map_data B ▸ hdec⟩

end Sys2Proof.Machine
end
